-- ==== Sys2Proof/Word.lean ====
section
/-! DEFINITION. The plain types of the ring (spec/00_scope.md R2, R6, R7; spec/30_encoding.md R61). -/

namespace Sys2Proof

/-- An index or a capacity: `IDX_BITS` = 24 bits (R7, R17 to R19). -/
abbrev Idx := BitVec 24

/-- A command word (R62). -/
abbrev CmdWord := BitVec 32

/-- A storage handle, as wide as the ARG channel that carries it (R61, R64); 0 is null. -/
abbrev Handle := BitVec 32

/-- One word of a block. `WORD_BITS` is a parameter (R7), so a word is a natural number, kept below
`2 ^ WORD_BITS` by the channels and by the invariant (log 2). -/
abbrev Word := Nat

/-- A block: its words, word 0 first (R2, R8). -/
abbrev Block := List Word

/-- The three ports, one for each agent (R6). -/
inductive Port where
  /-- The producer. -/
  | P
  /-- The consumer. -/
  | C
  /-- The setup and teardown caller. -/
  | A
  deriving DecidableEq, Repr

/-- The largest capacity a command can name (R7). -/
def capMax : Nat := 2 ^ 24 - 1

end Sys2Proof
end

