-- ==== Sys2Proof/Syntax.lean ====
section
/-! DEFINITION. The fifteen commands of the opcode map, spec/30_encoding.md R63. The operands are those of the command
word (R64); a handle, a block or a data word comes on the channels of the transaction (R61, `State.bus`). -/

namespace Sys2Proof

/-- One constructor for each row of spec/opcode_table.json, in the order of R63. Operands are natural numbers, so that an
operand that does not fit its field (R71) can be written down and refused by `WellFormed`. -/
inductive Instr where
  /-- `CTOR0`, R77. -/
  | ctor0
  /-- `CTORN N`, R78. -/
  | ctorn (n : Nat)
  /-- `DTOR`, R79. -/
  | dtor
  /-- `IS_EMPTY`, R80. -/
  | isEmpty
  /-- `IS_FULL`, R81. -/
  | isFull
  /-- `HEAD_REF`, R82. -/
  | headRef
  /-- `PRODUCE_HEAD`, R83. -/
  | produceHead
  /-- `PUSH_FRONT`, R84. -/
  | pushFront
  /-- `TAIL_REF`, R86. -/
  | tailRef
  /-- `CONSUME_TAIL`, R87. -/
  | consumeTail
  /-- `POP_BACK`, R88. -/
  | popBack
  /-- `RESIZE N`, R89. -/
  | resize (n : Nat)
  /-- `PROVIDE H, N`, R90; `H` is on ARG. -/
  | provide (n : Nat)
  /-- `SLOT_RD S, W`, R92. -/
  | slotRd (slot w : Nat)
  /-- `SLOT_WR S, W, V`, R93; `V` is on DATA_IN. -/
  | slotWr (slot w : Nat)
  deriving DecidableEq, Repr

end Sys2Proof
end

