-- ==== Sys2Proof/WellFormed.lean ====
section
/-! DEFINITION. When an instruction term has an encoding: every operand fits its field (spec/30_encoding.md R64, R71). -/

namespace Sys2Proof

/-- `N` or `S` fits its 24-bit field (R64, R71). -/
def fitsCount (n : Nat) : Bool := decide (n < 2 ^ 24)

/-- `W` fits its 4-bit field (R64, R71). -/
def fitsWordIndex (w : Nat) : Bool := decide (w < 16)

/-- Every operand fits its field; otherwise the assembler emits no word (R71). -/
def WellFormed : Instr → Bool
  | .ctor0 => true
  | .ctorn n => fitsCount n
  | .dtor => true
  | .isEmpty => true
  | .isFull => true
  | .headRef => true
  | .produceHead => true
  | .pushFront => true
  | .tailRef => true
  | .consumeTail => true
  | .popBack => true
  | .resize n => fitsCount n
  | .provide n => fitsCount n
  | .slotRd slot w => fitsCount slot && fitsWordIndex w
  | .slotWr slot w => fitsCount slot && fitsWordIndex w

end Sys2Proof
end

