-- ==== Sys2Proof/Decode.lean ====
section
/-! DEFINITION. Decoding and encoding of the command word, spec/30_encoding.md R62 to R68, R76. -/

namespace Sys2Proof

/-- Why a word is illegal: the three kinds of R68. -/
inductive DecodeError where
  /-- `OP = 0x0`. -/
  | opcodeZero
  /-- A format C word with any of bits 27..0 set. -/
  | formatCBits
  /-- A format N word with any of bits 27..24 set. -/
  | formatNBits
  deriving DecidableEq, Repr

/-- `OP = word[31:28]` (R62). -/
def opField (w : CmdWord) : BitVec 4 := w.extractLsb' 28 4

/-- `word[27:24]`: `W` of format S, must be 0 in format N (R62). -/
def wField (w : CmdWord) : BitVec 4 := w.extractLsb' 24 4

/-- `word[23:0]`: `N` of format N, `S` of format S (R62). -/
def nField (w : CmdWord) : BitVec 24 := w.extractLsb' 0 24

/-- `word[27:0]`: must be 0 in format C (R62). -/
def restField (w : CmdWord) : BitVec 28 := w.extractLsb' 0 28

/-- A format C word: no operand. -/
def decodeC (w : CmdWord) (i : Instr) : Except DecodeError Instr :=
  if restField w = 0 then .ok i else .error .formatCBits

/-- A format N word: the count `N`, unscaled and zero-extended (R64). -/
def decodeN (w : CmdWord) (mk : Nat → Instr) : Except DecodeError Instr :=
  if wField w = 0 then .ok (mk (nField w).toNat) else .error .formatNBits

/-- A format S word: the slot `S` and the word index `W`; legal for every value of both (R76). -/
def decodeS (w : CmdWord) (mk : Nat → Nat → Instr) : Except DecodeError Instr :=
  .ok (mk (nField w).toNat (wField w).toNat)

/-- R67 word for word: the legal words. `decode` does not use it; that the two agree is an obligation. -/
def legal (w : CmdWord) : Bool :=
  let op := (opField w).toNat
  ([0x1, 0x3, 0x4, 0x5, 0x6, 0x7, 0x8, 0x9, 0xA, 0xB].contains op && restField w == 0)
    || ([0x2, 0xC, 0xD].contains op && wField w == 0)
    || [0xE, 0xF].contains op

/-- The instruction of a command word, or why it has none (R63, R68, R76). -/
def decode (w : CmdWord) : Except DecodeError Instr :=
  match (opField w).toNat with
  | 0x0 => .error .opcodeZero
  | 0x1 => decodeC w .ctor0
  | 0x2 => decodeN w .ctorn
  | 0x3 => decodeC w .dtor
  | 0x4 => decodeC w .isEmpty
  | 0x5 => decodeC w .isFull
  | 0x6 => decodeC w .headRef
  | 0x7 => decodeC w .produceHead
  | 0x8 => decodeC w .pushFront
  | 0x9 => decodeC w .tailRef
  | 0xA => decodeC w .consumeTail
  | 0xB => decodeC w .popBack
  | 0xC => decodeN w .resize
  | 0xD => decodeN w .provide
  | 0xE => decodeS w .slotRd
  | _ => decodeS w .slotWr

/-- What the decoder reads from the low `nbits` bits of `w`, the bits above them being 0; a command is one 32-bit word
(R69), so no byte order enters. -/
def decodeTableWord (nbits w : Nat) : Option Instr :=
  match decode (BitVec.ofNat 32 (w % 2 ^ nbits)) with
  | .ok i => some i
  | .error _ => none

/-- The opcode number of R63. -/
def opcode : Instr → BitVec 4
  | .ctor0 => 0x1
  | .ctorn _ => 0x2
  | .dtor => 0x3
  | .isEmpty => 0x4
  | .isFull => 0x5
  | .headRef => 0x6
  | .produceHead => 0x7
  | .pushFront => 0x8
  | .tailRef => 0x9
  | .consumeTail => 0xA
  | .popBack => 0xB
  | .resize _ => 0xC
  | .provide _ => 0xD
  | .slotRd _ _ => 0xE
  | .slotWr _ _ => 0xF

/-- A word from its three fields, `OP` in the high bits (R62). -/
def packWord (op wd : BitVec 4) (n : BitVec 24) : CmdWord := (op ++ wd ++ n : BitVec 32)

/-- The word of an instruction whose operands fit (R71). -/
def encode (i : Instr) : CmdWord :=
  match i with
  | .ctorn n | .resize n | .provide n => packWord (opcode i) 0 (BitVec.ofNat 24 n)
  | .slotRd slot w | .slotWr slot w => packWord (opcode i) (BitVec.ofNat 4 w) (BitVec.ofNat 24 slot)
  | _ => packWord (opcode i) 0 0

end Sys2Proof
end

