-- ==== Sys2Proof/Config.lean ====
section
/-! DEFINITION. What an implementation fixes and the free values: the open parameters of spec/00_scope.md R7, the
allocator (R50), the host memory behind a provided buffer (R51) and the scheduler's choices (spec/60_exceptions.md R102,
R112). -/

namespace Sys2Proof

/-- The open parameters of R7, carried in the state as a constant record (log 1). -/
structure Params where
  /-- `BLOCK_WORDS`: words per block. -/
  blockWords : Nat
  /-- `WORD_BITS`: width of one block word. -/
  wordBits : Nat
  /-- `DEFAULT_BLOCK`: what every freshly allocated slot holds. -/
  defaultBlock : Block
  deriving DecidableEq, Repr

/-- A block of these parameters: `BLOCK_WORDS` words of `WORD_BITS` bits (R2). -/
def Params.blockOk (p : Params) (b : Block) : Bool :=
  b.length == p.blockWords && b.all (fun v => decide (v < 2 ^ p.wordBits))

/-- The domain of the parameters (R7). -/
def Params.wf (p : Params) : Bool :=
  decide (1 ≤ p.blockWords) && decide (p.blockWords ≤ 16) && decide (1 ≤ p.wordBits) && p.blockOk p.defaultBlock

/-- `BLOCK_WORDS` less one: open (R7, D1), so no value is given (log 1). -/
opaque Config.blockWordsLess : Fin 16

/-- `WORD_BITS` less one: open (R7, D1), so no value is given (log 1). -/
opaque Config.wordBitsLess : Nat

/-- The words of `DEFAULT_BLOCK`: open (R7, D11), so no value is given (log 1). -/
opaque Config.defaultWord : Nat → Word

/-- The parameters that `State.reset` carries: any values of R7's domain (log 1). -/
def Config.params : Params :=
  let bits := Config.wordBitsLess + 1
  let words := Config.blockWordsLess.val + 1
  { blockWords := words
    wordBits := bits
    defaultBlock := (List.range words).map (fun i => Config.defaultWord i % 2 ^ bits) }

/-- The allocator's answer to draw `k`, a request for `n` slots by a ring that owns `owned`: a free value, `none` or a
fresh handle other than 0 (R50, log 7). -/
opaque Config.alloc (k n : Nat) (owned : Option Handle) : Option { h : Handle // h ≠ 0 ∧ owned ≠ some h }

/-- The ports the scheduler picks in turn `k` before it comes to the port whose turn it is: a free value (R102, R112,
log 16). -/
opaque Config.turns (k : Nat) : List Port

/-- Word `w` of slot `slot` of the buffer `h` of `n` blocks provided as draw `k`: a free value (R51, log 8). -/
opaque Config.bufContents (k : Nat) (h : Handle) (n slot w : Nat) : Word

end Sys2Proof
end

