-- ==== Sys2Proof/Machine/State.lean ====
section
/-! DEFINITION. The machine's state as plain data: the ring's own registers and storage (spec/10_state.md R16 to R23), the
parameters (R7), the inputs the outside hands over and the outputs the ring gives (spec/30_encoding.md R61, R65;
spec/60_exceptions.md R113). -/

namespace Sys2Proof.Machine

/-- `PHASE` (R20). -/
inductive Phase where
  /-- 0: no ring object exists. -/
  | unconstructed
  /-- 1: a ring exists. -/
  | live
  deriving DecidableEq, Repr

/-- `ORIGIN`: where the storage came from (R23). -/
inductive Origin where
  /-- There is no storage. -/
  | none
  /-- The ring allocated the storage, as this handle. -/
  | allocated (h : Handle)
  /-- A caller-supplied buffer, which the ring now owns. -/
  | provided (h : Handle)
  deriving DecidableEq, Repr

/-- What a slot of the present storage holds until something writes it (R49 to R51). -/
inductive Fill where
  /-- Fresh storage: every slot holds `DEFAULT_BLOCK` (R49, R50). -/
  | fresh
  /-- The buffer `h` of `n` blocks provided as draw `draw` (R51). `given` is what the outside has said of its first
  blocks; the others are free values (log 8). -/
  | buffer (draw : Nat) (h : Handle) (n : Nat) (given : List Block)
  deriving DecidableEq, Repr

/-- A slot that was written, and its block. -/
abbrev Cell := Nat × Block

/-- `STORAGE` (R23): `size` slots, numbered from 0. A slot that `cells` does not list holds what `fill` says. The list is
canonical (`Memory.wf`): slots rising, no slot listed that holds what `fill` says (log 6). -/
structure Memory where
  size : Nat
  fill : Fill
  cells : List Cell
  deriving DecidableEq, Repr

/-- No slots (R36, R77). -/
def Memory.empty : Memory := { size := 0, fill := .fresh, cells := [] }

/-- What an agent issues on its port (R61): the command word and the two operand channels. -/
structure Command where
  word : CmdWord
  arg : Handle
  dataIn : List Word
  deriving DecidableEq, Repr

/-- A command on a port: the transaction of R61. -/
structure Transaction where
  port : Port
  cmd : Command
  deriving DecidableEq, Repr

/-- What happens next (log 4). -/
inductive Event where
  /-- The scheduler picks this port: it takes its enabled step, if it has one (R102, R103). -/
  | step (p : Port)
  /-- A hardware reset (R117). -/
  | reset
  deriving DecidableEq, Repr

/-- A response (R65). -/
structure Response where
  status : BitVec 2
  code : BitVec 4
  value : BitVec 32
  dataOut : List Word
  deriving DecidableEq, Repr

/-- What leaves the block: a response on a port (R65), or the host event `free(h)` (R52). -/
inductive Output where
  | response (p : Port) (r : Response)
  | free (h : Handle)
  deriving DecidableEq, Repr

/-- Fault causes (R97). -/
inductive Cause where
  | illegalCommand
  | wrongPort
  | alreadyConstructed
  | notConstructed
  | notQuiesced
  | zeroCapacity
  | indexRange
  | emptyTail
  | ownership
  deriving DecidableEq, Repr

/-- FAIL reasons (R96). -/
inductive Reason where
  | nonempty
  | alloc
  | invalid
  deriving DecidableEq, Repr

/-- The ring's own state, exactly R16's list: a view of `State` in which statements say what a step leaves alone. -/
structure RingState where
  phase : Phase
  cap : Idx
  head : Idx
  tail : Idx
  pend : BitVec 4
  fault : BitVec 11
  storage : Memory
  origin : Origin
  deriving DecidableEq, Repr

/-- The whole state. The first eight fields are the ring's state (R16); then the parameters (R7); then the model's own
inputs and outputs. -/
structure State where
  /-- R20. -/
  phase : Phase
  /-- R17. -/
  cap : Idx
  /-- R18. -/
  head : Idx
  /-- R19. -/
  tail : Idx
  /-- R21. -/
  pend : BitVec 4
  /-- R22: the fields are read by `faultValid`, `faultCause`, `faultPort`, `faultOp`. -/
  fault : BitVec 11
  /-- R23. -/
  storage : Memory
  /-- R23. -/
  origin : Origin
  /-- R7, R16: parameters, never written (log 1). -/
  params : Params
  /-- The transaction of the step being run (R61, log 3). -/
  bus : Transaction
  /-- The producer's command stream (R16, log 3). -/
  queueP : List Command
  /-- The consumer's command stream (R16, log 3). -/
  queueC : List Command
  /-- The Admin's command stream (R16, log 3). -/
  queueA : List Command
  /-- What happens, next first; when it runs out the scheduler draws its next turn (R102, logs 4 and 16). -/
  schedule : List Event
  /-- How many turns the scheduler has drawn: the argument of its free choices (R112, log 16). -/
  turn : Nat
  /-- The allocator's next answers, where the outside has fixed them (R50, log 7). -/
  allocAnswers : List (Option Handle)
  /-- The contents of the next provided buffers, where the outside has fixed them (R51, log 8). -/
  bufAnswers : List (List Block)
  /-- How many draws have been made: the argument of the free values (logs 7 and 8). -/
  draws : Nat
  /-- What left the block, newest first (R52, R65, log 9). -/
  outputs : List Output
  deriving DecidableEq, Repr

/-- The ring's own state (R16). -/
def State.ring (s : State) : RingState :=
  { phase := s.phase, cap := s.cap, head := s.head, tail := s.tail, pend := s.pend, fault := s.fault
    storage := s.storage, origin := s.origin }

/-- Why the machine itself stops. The ring's own faults (R97) are no stops: they are NEXT states with `FAULT` recorded. -/
inductive Fault where
  /-- A command's storage access falls outside the slot space of R39, R45. Raised by the meanings of PUSH_FRONT, POP_BACK,
  SLOT_RD and SLOT_WR, only in a state that breaks R25 or R37 (an index not below CAP, or a storage of another size than
  CAP); no step from a state that keeps them raises it. Safe: the model stops (log 10). -/
  | noSuchSlot
  deriving DecidableEq, Repr

/-- Why an instruction is refused. -/
inductive Refusal where
  /-- Not modelled yet: raised by no arm of `exec` in this model. Safe. -/
  | notModelled (mnemonic : String)
  /-- An instruction term whose count `N` is above `CAP_MAX`. Raised by the meanings of CTORN, RESIZE and PROVIDE; no
  command word decodes to such a term (spec/93_implementation_defined.md U13: refuse). Safe (log 11). -/
  | capacityTooLarge
  deriving DecidableEq, Repr

/-- The state after a hardware reset with nothing placed: R36 for the ring; the parameters are the open constants (log 1);
no inputs, no draws and no outputs (logs 3, 4, 7, 8, 9, 16). -/
def State.reset : State :=
  { phase := .unconstructed
    cap := 0
    head := 0
    tail := 0
    pend := 0
    fault := 0
    storage := Memory.empty
    origin := .none
    params := Config.params
    bus := { port := .A, cmd := { word := 0, arg := 0, dataIn := [] } }
    queueP := []
    queueC := []
    queueA := []
    schedule := []
    turn := 0
    allocAnswers := []
    bufAnswers := []
    draws := 0
    outputs := [] }

end Sys2Proof.Machine
end

