-- ==== Sys2Proof/Machine/Flags.lean ====
section
/-! DEFINITION. What the ring computes from its registers and never stores: index arithmetic (spec/10_state.md R24), empty,
full and occupancy (R26, R27, R32), the fields of FAULT (R22), the codes of causes and reasons (spec/60_exceptions.md R96,
R97). -/

namespace Sys2Proof.Machine

/-! Index arithmetic -/

/-- `next(i)` at capacity `cap`; the sum is exact, in natural numbers, before the remainder is taken (R8, R24). -/
def nextIdx (cap i : Idx) : Idx :=
  if cap = 0 then 0 else BitVec.ofNat 24 ((i.toNat + 1) % cap.toNat)

/-- `prev(i)` at capacity `cap` (R24). No command uses it. -/
def prevIdx (cap i : Idx) : Idx :=
  if cap = 0 then 0 else BitVec.ofNat 24 ((i.toNat + cap.toNat - 1) % cap.toNat)

/-- Empty (R26). -/
def isEmpty (s : State) : Bool := s.head == s.tail

/-- Full (R26). -/
def isFull (s : State) : Bool := nextIdx s.cap s.head == s.tail

/-- The occupancy (R27). -/
def occ (s : State) : Nat :=
  if s.cap = 0 then 0 else (s.head.toNat + s.cap.toNat - s.tail.toNat) % s.cap.toNat

/-- The slot number of live block `k`, counting from the oldest (R27). -/
def liveSlot (s : State) (k : Nat) : Nat := (s.tail.toNat + k) % s.cap.toNat

/-! The fault record -/

/-- The port's code in `FAULT.PORT` (R22). -/
def portCode : Port → BitVec 2
  | .P => 0
  | .C => 1
  | .A => 2

/-- `VALID`, bit 0 (R22). -/
def faultValid (f : BitVec 11) : Bool := f.extractLsb' 0 1 == 1

/-- `CAUSE`, bits 4..1 (R22). -/
def faultCause (f : BitVec 11) : BitVec 4 := f.extractLsb' 1 4

/-- `PORT`, bits 6..5 (R22). -/
def faultPort (f : BitVec 11) : BitVec 2 := f.extractLsb' 5 2

/-- `OP`, bits 10..7 (R22). -/
def faultOp (f : BitVec 11) : BitVec 4 := f.extractLsb' 7 4

/-- The fault record of a fault: VALID 1 and the three fields (R22, R98). -/
def packFault (cause : BitVec 4) (port : BitVec 2) (op : BitVec 4) : BitVec 11 := op ++ port ++ cause ++ (1 : BitVec 1)

/-- Halted: a fault has been recorded, and the ring takes no step until reset (R22, R98). -/
def halted (s : State) : Bool := faultValid s.fault

/-! Codes -/

/-- The cause codes of R97. -/
def causeCode : Cause → BitVec 4
  | .illegalCommand => 1
  | .wrongPort => 2
  | .alreadyConstructed => 3
  | .notConstructed => 4
  | .notQuiesced => 5
  | .zeroCapacity => 6
  | .indexRange => 7
  | .emptyTail => 8
  | .ownership => 9

/-- The reason codes of R96. -/
def reasonCode : Reason → BitVec 4
  | .nonempty => 1
  | .alloc => 2
  | .invalid => 3

end Sys2Proof.Machine
end

