-- ==== Sys2Proof/Machine/Ops.lean ====
section
/-! DEFINITION. The shared operations: slot storage (spec/20_memory.md R39 to R49), allocation, provision and release (R50 to
R52), responses (spec/30_encoding.md R65), taking a fault (spec/60_exceptions.md R98) and the hardware reset, the only way
out of it (spec/70_reset_and_hazards.md R117). -/

namespace Sys2Proof.Machine

/-! ### Storage -/

/-- Word `i` of a channel or of a given block, as wide as a word is: bits above `WORD_BITS` are not carried, a word the list
does not give is 0 (log 2). -/
def fitWord (p : Params) (ws : List Word) (i : Nat) : Word := ws.getD i 0 % 2 ^ p.wordBits

/-- The `BLOCK_WORDS` words of a channel or of a given block (R61). -/
def fitBlock (p : Params) (ws : List Word) : Block := (List.range p.blockWords).map (fitWord p ws)

/-- A block of zero words (R65). -/
def zeroBlock (p : Params) : Block := List.replicate p.blockWords 0

/-- What a slot holds that nothing has written since the storage was installed: `DEFAULT_BLOCK` in fresh storage (R49, R50),
what the draw gives in a provided buffer (R51, log 8). -/
def unlistedBlock (p : Params) (f : Fill) (slot : Nat) : Block :=
  match f with
  | .fresh => p.defaultBlock
  | .buffer draw h n given =>
    match given[slot]? with
    | some b => fitBlock p b
    | none => (List.range p.blockWords).map (fun w => Config.bufContents draw h n slot w % 2 ^ p.wordBits)

/-- The block that the list of written slots holds for `slot`, if it lists it. -/
def lookupCell (cells : List Cell) (slot : Nat) : Option Block :=
  match cells with
  | [] => none
  | c :: cs => if c.1 = slot then some c.2 else lookupCell cs slot

/-- The list with `slot` holding `new`, or not listed when `new` is `none`; slots stay in rising order. -/
def putCell (cells : List Cell) (slot : Nat) (new : Option Block) : List Cell :=
  match cells with
  | [] => (new.map (fun b => (slot, b))).toList
  | c :: cs =>
    if c.1 < slot then c :: putCell cs slot new
    else if c.1 = slot then (new.map (fun b => (slot, b))).toList ++ cs
    else (new.map (fun b => (slot, b))).toList ++ c :: cs

/-- What slot `slot` holds, whether or not it is a slot of the storage. -/
def slotBlock (p : Params) (m : Memory) (slot : Nat) : Block :=
  (lookupCell m.cells slot).getD (unlistedBlock p m.fill slot)

/-- `MemRead((slot, 0), BLOCK_WORDS)`: a whole block, of a slot that exists (R9, R41). -/
def readBlock (p : Params) (m : Memory) (slot : Nat) : Option Block :=
  if slot < m.size then some (slotBlock p m slot) else none

/-- `MemWrite((slot, 0), BLOCK_WORDS, b)`: a whole block, into a slot that exists (R9, R41). Writing what an unlisted slot
holds unlists the slot, so the list stays canonical. -/
def writeBlock (p : Params) (m : Memory) (slot : Nat) (b : Block) : Option Memory :=
  if slot < m.size then
    some { m with cells := putCell m.cells slot (if b = unlistedBlock p m.fill slot then none else some b) }
  else none

/-- `MemRead((slot, w), 1)`: one word of a slot that exists (R9, R41). -/
def readWord (p : Params) (m : Memory) (slot w : Nat) : Option Word := (readBlock p m slot).bind (fun b => b[w]?)

/-- `MemWrite((slot, w), 1, v)`: one word of a slot that exists; the block's other words stay (R9, R38, R41). -/
def writeWord (p : Params) (m : Memory) (slot w : Nat) (v : Word) : Option Memory :=
  (readBlock p m slot).bind (fun b => if w < b.length then writeBlock p m slot (b.set w v) else none)

/-- The canonical form of the storage: slots strictly rising and within the storage, every listed block a block of the
parameters and different from what the slot holds unlisted. -/
def Memory.wf (p : Params) (m : Memory) : Bool :=
  decide ((m.cells.map Prod.fst).Pairwise (· < ·)) &&
    m.cells.all (fun c => decide (c.1 < m.size) && p.blockOk c.2 && decide (c.2 ≠ unlistedBlock p m.fill c.1))

/-! ### Outputs: responses and host events -/

/-- Append an output (newest first, log 9). -/
def emit (o : Output) (s : State) : State := { s with outputs := o :: s.outputs }

/-- Answer the transaction on the bus (R65). -/
def respond (r : Response) (s : State) : State := emit (.response s.bus.port r) s

/-- `respond OK(v)`: STATUS 0, CODE 0, DATA_OUT all zero (R65). -/
def okResponse (p : Params) (v : BitVec 32) : Response := { status := 0, code := 0, value := v, dataOut := zeroBlock p }

/-- `respond OK(v)` (R9). -/
def respondOk (v : BitVec 32) (s : State) : State := respond (okResponse s.params v) s

/-- `respond OK(0) with DATA_OUT <- b` (R65). -/
def respondData (b : Block) (s : State) : State := respond { status := 0, code := 0, value := 0, dataOut := b } s

/-- `respond FAIL(r)`: STATUS 1, the reason's code, the rest zero (R65, R96). -/
def respondFail (r : Reason) (s : State) : State :=
  respond { status := 1, code := reasonCode r, value := 0, dataOut := zeroBlock s.params } s

/-! ### Taking a fault, and reset -/

/-- `raise Fault(c)`: the fault record is written and the fault is the response; nothing else changes (R98). -/
def raiseFault (c : Cause) (s : State) : State :=
  respond { status := 2, code := causeCode c, value := 0, dataOut := zeroBlock s.params }
    { s with fault := packFault (causeCode c) (portCode s.bus.port) (opField s.bus.cmd.word) }

/-- A hardware reset: every register at its reset value (R36); a held produce is dropped without a response and owned storage
is forgotten, not freed (R117). The inputs still to come and the outputs so far are not the ring's (log 5). -/
def hardwareReset (s : State) : State :=
  { s with phase := .unconstructed, cap := 0, head := 0, tail := 0, pend := 0, fault := 0
           storage := Memory.empty, origin := .none }

/-! ### Storage from and to the host -/

/-- The handle of the storage the ring owns, if it owns any (R23). -/
def ownedHandle (o : Origin) : Option Handle :=
  match o with
  | .none => none
  | .allocated h => some h
  | .provided h => some h

/-- `free(h)` of what `ORIGIN` said before, if that was storage (R52). -/
def freeOwned (o : Origin) (s : State) : State :=
  match ownedHandle o with
  | none => s
  | some h => emit (.free h) s

/-- An answer the allocator may give: `none`, or a fresh handle other than 0 (R50). -/
def allocLegal (owned : Option Handle) (a : Option Handle) : Bool :=
  match a with
  | none => true
  | some h => h != 0 && owned != some h

/-- The allocator's answer to a request for `n` slots: the outside's next answer if it has fixed a legal one, else a free
value (R50, log 7). -/
def allocAnswer (s : State) (n : Nat) : Option Handle :=
  let free := (Config.alloc s.draws n (ownedHandle s.origin)).map Subtype.val
  match s.allocAnswers with
  | [] => free
  | a :: _ => if allocLegal (ownedHandle s.origin) a then a else free

/-- The request is made: one draw is used up (R50, log 7). -/
def afterAlloc (s : State) : State := { s with allocAnswers := s.allocAnswers.tail, draws := s.draws + 1 }

/-- The ring with no storage: capacity and indices 0, `ORIGIN` NONE (R77, R79, R89). -/
def clearRing (s : State) : State :=
  { s with cap := 0, head := 0, tail := 0, storage := Memory.empty, origin := .none }

/-- The ring over new storage of `n` slots: indices 0 (R78, R89, R90). -/
def installStorage (n : Nat) (f : Fill) (o : Origin) (s : State) : State :=
  { s with cap := BitVec.ofNat 24 n, head := 0, tail := 0, storage := { size := n, fill := f, cells := [] }, origin := o }

/-- What the provided buffer `h` of `n` blocks holds: the draw `bufcontents(h, n)` (R51, log 8). -/
def bufferFill (h : Handle) (n : Nat) (s : State) : Fill := .buffer s.draws h n (s.bufAnswers.headD [])

/-- The buffer's contents are drawn: one draw is used up (R51, log 8). -/
def afterProvide (s : State) : State := { s with bufAnswers := s.bufAnswers.tail, draws := s.draws + 1 }

/-! ### Producing -/

/-- Publish the head slot when the ring is not full, else hold the producer with the command's opcode in PEND (R83, R84). -/
def publishOrHold (op : BitVec 4) (s : State) : State :=
  if isFull s then { s with pend := op } else respondOk 0 { s with head := nextIdx s.cap s.head }

/-- The completion of a held produce: HEAD advances, PEND is cleared, the held command is answered on port P (R85). -/
def completeHeld (s : State) : State :=
  emit (.response .P (okResponse s.params 0)) { s with head := nextIdx s.cap s.head, pend := 0 }

/-! ### The prologue -/

/-- The ports a command may be issued on (R66). -/
def permitted (i : Instr) (p : Port) : Bool :=
  match i with
  | .ctor0 | .ctorn _ | .dtor | .resize _ | .provide _ => p == .A
  | .isEmpty | .isFull => true
  | .headRef | .produceHead | .pushFront => p == .P
  | .tailRef | .consumeTail | .popBack => p == .C
  | .slotRd _ _ | .slotWr _ _ => p == .P || p == .C

/-- The two constructors (R70). -/
def constructs (i : Instr) : Bool :=
  match i with
  | .ctor0 | .ctorn _ => true
  | _ => false

/-- The commands that fault while the producer is held (R70). -/
def needsQuiescence (i : Instr) : Bool :=
  match i with
  | .dtor | .resize _ | .provide _ => true
  | _ => false

/-- The common prologue after the word has been found legal: the first check that fails, if any (R70, R103). -/
def prologueFault (i : Instr) (s : State) : Option Cause :=
  if !permitted i s.bus.port then some .wrongPort
  else if constructs i then (if s.phase = .live then some .alreadyConstructed else none)
  else if s.phase = .unconstructed then some .notConstructed
  else if needsQuiescence i && s.pend != 0 then some .notQuiesced
  else none

/-- The outcome of one command. -/
abbrev Result := Host.Outcome State Fault Refusal

/-- Run the prologue, then the body (R70). -/
def afterPrologue (i : Instr) (s : State) (body : Result) : Result :=
  match prologueFault i s with
  | some c => .next (raiseFault c s)
  | none => body

/-! ### The command streams -/

/-- The command stream of a port (R75). -/
def queueOf (p : Port) (s : State) : List Command :=
  match p with
  | .P => s.queueP
  | .C => s.queueC
  | .A => s.queueA

/-- The state with another command stream on a port. -/
def setQueue (p : Port) (q : List Command) (s : State) : State :=
  match p with
  | .P => { s with queueP := q }
  | .C => { s with queueC := q }
  | .A => { s with queueA := q }

/-- The port's next command is taken from its stream and stands on the bus (R61, R75). -/
def accept (p : Port) (c : Command) (rest : List Command) (s : State) : State :=
  { setQueue p rest s with bus := { port := p, cmd := c } }

end Sys2Proof.Machine
end

