-- ==== Sys2Proof/Machine/Operands.lean ====
section
/-! DEFINITION. The operands that come on the channels of the transaction (spec/30_encoding.md R61, R64) and the check of a
slot operand (spec/20_memory.md R48). -/

namespace Sys2Proof.Machine

/-- `H = ARG[31:0]`, 0 the null buffer (R64). -/
def operandH (s : State) : Handle := s.bus.cmd.arg

/-- `B = DATA_IN[0..BLOCK_WORDS-1]` (R64). -/
def operandB (s : State) : Block := fitBlock s.params s.bus.cmd.dataIn

/-- `V = DATA_IN[0]` (R64). -/
def operandV (s : State) : Word := fitWord s.params s.bus.cmd.dataIn 0

/-- `slot_access_check(p, s, w)` for the port on the bus: the first check that fails, if any (R48). Port A never reaches it
(R66). -/
def slotAccessFault (slot w : Nat) (s : State) : Option Cause :=
  if s.cap = 0 ∨ s.cap.toNat ≤ slot ∨ s.params.blockWords ≤ w then some .indexRange
  else
    match s.bus.port with
    | .P => if slot ≠ s.head.toNat then some .ownership else none
    | .C => if isEmpty s then some .emptyTail else if slot ≠ s.tail.toNat then some .ownership else none
    | .A => none

end Sys2Proof.Machine
end

