-- ==== Sys2Proof/Machine/Capacity.lean ====
section
/-! DEFINITION. Capacity management: RESIZE, PROVIDE (spec/44_capacity.md R89, R90). The old storage is freed after the new
storage is in place (R52). -/

namespace Sys2Proof.Machine

/-- The body of `RESIZE` for `n ≥ 1` on an empty ring: the allocation's answer decides (R89). -/
def resizeN (n : Nat) (s : State) : State :=
  match allocAnswer s n with
  | none => respondFail .alloc (afterAlloc s)
  | some h => respondOk 0 (freeOwned s.origin (installStorage n .fresh (.allocated h) (afterAlloc s)))

/-- `RESIZE N` (R89): NONEMPTY is tested before anything is allocated. -/
def execResize (n : Nat) (s : State) : Result :=
  afterPrologue (.resize n) s
    (if capMax < n then .refused .capacityTooLarge
     else
       .next
         (if !isEmpty s then respondFail .nonempty s
          else if n = 0 then respondOk 0 (freeOwned s.origin (clearRing s))
          else resizeN n s))

/-- `PROVIDE H, N` (R90): INVALID is tested before NONEMPTY. -/
def execProvide (n : Nat) (s : State) : Result :=
  afterPrologue (.provide n) s
    (if capMax < n then .refused .capacityTooLarge
     else
       .next
         (if operandH s = 0 ∨ n = 0 then respondFail .invalid s
          else if !isEmpty s then respondFail .nonempty s
          else
            respondOk 0
              (freeOwned s.origin
                (installStorage n (bufferFill (operandH s) n s) (.provided (operandH s)) (afterProvide s)))))

end Sys2Proof.Machine
end

