-- ==== Sys2Proof/Machine/Construction.lean ====
section
/-! DEFINITION. Construction and destruction: CTOR0, CTORN, DTOR (spec/40_construction.md R77 to R79). -/

namespace Sys2Proof.Machine

/-- A live ring of capacity 0 (R77). -/
def constructEmpty (s : State) : State := clearRing { s with phase := .live }

/-- `CTOR0` (R77). -/
def execCtor0 (s : State) : Result :=
  afterPrologue .ctor0 s (.next (respondOk 0 (constructEmpty s)))

/-- The body of `CTORN` for `n ≥ 1`: the allocation's answer decides (R78). -/
def constructN (n : Nat) (s : State) : State :=
  match allocAnswer s n with
  | none => respondFail .alloc (constructEmpty (afterAlloc s))
  | some h => respondOk 0 (installStorage n .fresh (.allocated h) { afterAlloc s with phase := .live })

/-- `CTORN N` (R78). -/
def execCtorn (n : Nat) (s : State) : Result :=
  afterPrologue (.ctorn n) s
    (if capMax < n then .refused .capacityTooLarge
     else .next (if n = 0 then respondOk 0 (constructEmpty s) else constructN n s))

/-- `DTOR` (R79). -/
def execDtor (s : State) : Result :=
  afterPrologue .dtor s
    (.next (respondOk 0 (clearRing { freeOwned s.origin s with phase := .unconstructed })))

end Sys2Proof.Machine
end

