-- ==== Sys2Proof/Machine/Consumer.lean ====
section
/-! DEFINITION. Consumer-side operations: TAIL_REF, CONSUME_TAIL, POP_BACK (spec/43_consumer.md R86 to R88). -/

namespace Sys2Proof.Machine

/-- Retire the tail slot; the slot keeps its block (R49, R87). -/
def retire (s : State) : State := { s with tail := nextIdx s.cap s.tail }

/-- `TAIL_REF` (R86). -/
def execTailRef (s : State) : Result :=
  afterPrologue .tailRef s
    (.next (if isEmpty s then raiseFault .emptyTail s else respondOk (s.tail.setWidth 32) s))

/-- `CONSUME_TAIL` (R87). -/
def execConsumeTail (s : State) : Result :=
  afterPrologue .consumeTail s (.next (respondOk 0 (if isEmpty s then s else retire s)))

/-- `POP_BACK` (R88). -/
def execPopBack (s : State) : Result :=
  afterPrologue .popBack s
    (if isEmpty s then .next (raiseFault .emptyTail s)
     else
       match readBlock s.params s.storage s.tail.toNat with
       | none => .fault .noSuchSlot
       | some b => .next (respondData b (retire s)))

end Sys2Proof.Machine
end

