-- ==== Sys2Proof/Machine/Producer.lean ====
section
/-! DEFINITION. Producer-side operations: HEAD_REF, PRODUCE_HEAD, PUSH_FRONT (spec/42_producer.md R82 to R84). The completion
of a held produce (R85) is `completeHeld`, which the step takes. -/

namespace Sys2Proof.Machine

/-- `HEAD_REF` (R82). -/
def execHeadRef (s : State) : Result :=
  afterPrologue .headRef s
    (.next (if s.cap = 0 then raiseFault .zeroCapacity s else respondOk (s.head.setWidth 32) s))

/-- `PRODUCE_HEAD`, issue part (R83). -/
def execProduceHead (s : State) : Result :=
  afterPrologue .produceHead s
    (.next (if s.cap = 0 then raiseFault .zeroCapacity s else publishOrHold 0x7 s))

/-- `PUSH_FRONT`, issue part: the copy comes before the test for full (R84). -/
def execPushFront (s : State) : Result :=
  afterPrologue .pushFront s
    (if s.cap = 0 then .next (raiseFault .zeroCapacity s)
     else
       match writeBlock s.params s.storage s.head.toNat (operandB s) with
       | none => .fault .noSuchSlot
       | some m => .next (publishOrHold 0x8 { s with storage := m }))

end Sys2Proof.Machine
end

