-- ==== Sys2Proof/Machine/SlotAccess.lean ====
section
/-! DEFINITION. In-place slot access: SLOT_RD, SLOT_WR (spec/45_slot_access.md R92, R93). -/

namespace Sys2Proof.Machine

/-- `DATA_OUT[0] <- v, DATA_OUT[1..] <- 0` (R65, R92). -/
def wordOut (p : Params) (v : Word) : Block := (zeroBlock p).set 0 v

/-- `SLOT_RD S, W` (R92). -/
def execSlotRd (slot w : Nat) (s : State) : Result :=
  afterPrologue (.slotRd slot w) s
    (match slotAccessFault slot w s with
     | some c => .next (raiseFault c s)
     | none =>
       match readWord s.params s.storage slot w with
       | none => .fault .noSuchSlot
       | some v => .next (respondData (wordOut s.params v) s))

/-- `SLOT_WR S, W, V` (R93). -/
def execSlotWr (slot w : Nat) (s : State) : Result :=
  afterPrologue (.slotWr slot w) s
    (match slotAccessFault slot w s with
     | some c => .next (raiseFault c s)
     | none =>
       match writeWord s.params s.storage slot w (operandV s) with
       | none => .fault .noSuchSlot
       | some m => .next (respondOk 0 { s with storage := m }))

end Sys2Proof.Machine
end

