-- ==== Sys2Proof/Machine/Status.lean ====
section
/-! DEFINITION. Status queries: IS_EMPTY, IS_FULL (spec/41_status.md R80, R81). -/

namespace Sys2Proof.Machine

/-- `IS_EMPTY` (R80). -/
def execIsEmpty (s : State) : Result :=
  afterPrologue .isEmpty s (.next (respondOk (if isEmpty s then 1 else 0) s))

/-- `IS_FULL` (R81). -/
def execIsFull (s : State) : Result :=
  afterPrologue .isFull s (.next (respondOk (if isFull s then 1 else 0) s))

end Sys2Proof.Machine
end

