-- ==== Sys2Proof/Machine/Dispatch.lean ====
section
/-! DEFINITION. The meaning of each command: one arm per constructor of `Instr`, in the order of spec/30_encoding.md R63. -/

namespace Sys2Proof.Machine

def exec (i : Instr) (s : State) : Host.Outcome State Fault Refusal :=
  match i with
  | .ctor0 => Sys2Proof.Machine.execCtor0 s
  | .ctorn n => Sys2Proof.Machine.execCtorn n s
  | .dtor => Sys2Proof.Machine.execDtor s
  | .isEmpty => Sys2Proof.Machine.execIsEmpty s
  | .isFull => Sys2Proof.Machine.execIsFull s
  | .headRef => Sys2Proof.Machine.execHeadRef s
  | .produceHead => Sys2Proof.Machine.execProduceHead s
  | .pushFront => Sys2Proof.Machine.execPushFront s
  | .tailRef => Sys2Proof.Machine.execTailRef s
  | .consumeTail => Sys2Proof.Machine.execConsumeTail s
  | .popBack => Sys2Proof.Machine.execPopBack s
  | .resize n => Sys2Proof.Machine.execResize n s
  | .provide n => Sys2Proof.Machine.execProvide n s
  | .slotRd slot w => Sys2Proof.Machine.execSlotRd slot w s
  | .slotWr slot w => Sys2Proof.Machine.execSlotWr slot w s

end Sys2Proof.Machine
end

