-- ==== Sys2Proof/Machine/Fetch.lean ====
section
/-! DEFINITION. How a port comes to take a step: the weakly fair scheduler (spec/60_exceptions.md R102, R112), the halt (R98 of
the same file), the held producer (spec/42_producer.md R85, spec/30_encoding.md R75), the next command of the port's stream and
its decoding (R70). -/

namespace Sys2Proof.Machine

/-! ### The scheduler -/

/-- The port whose turn it is in turn `k`: the three ports in rotation, so that none is passed over for ever (R112). -/
def fairPort (k : Nat) : Port :=
  match k % 3 with
  | 0 => .P
  | 1 => .C
  | _ => .A

/-- Turn `k` of the scheduler: any finite list of ports, then the port whose turn it is. The sequences of ports that such turns
make are exactly those in which every port is picked again and again (R102, R112, log 16). -/
def drawnTurn (k : Nat) : List Event := (Config.turns k ++ [fairPort k]).map .step

/-- The events to come: those of the schedule, and the scheduler's next turn when there are none (log 16). -/
def upcoming (s : State) : List Event :=
  match s.schedule with
  | [] => drawnTurn s.turn
  | e :: rest => e :: rest

/-- The event that happens next; `upcoming` is never empty. -/
def nextEvent (s : State) : Event := (upcoming s).headD (.step .P)

/-- The next event is used up; a turn that had to be drawn for it is counted. -/
def takeEvent (s : State) : State :=
  { s with schedule := (upcoming s).tail, turn := if s.schedule = [] then s.turn + 1 else s.turn }

/-! ### The step of a port -/

/-- Run the transaction on the bus: an illegal word faults before every other check (R70, R103). -/
def runBus (s : State) : Result :=
  match decode s.bus.cmd.word with
  | .error _ => .next (raiseFault .illegalCommand s)
  | .ok i => exec i s

/-- The scheduler has picked port `p`. A halted ring takes no step (R98). A held producer issues nothing: its completion is its
one step, enabled when the ring is not full (R75, R85). Otherwise the port issues its next command, if it has one. A port with
no enabled step leaves everything as it is (log 4). -/
def portStep (p : Port) (s : State) : Result :=
  if halted s then .next s
  else if p = .P ∧ s.pend ≠ 0 then .next (if isFull s then s else completeHeld s)
  else
    match queueOf p s with
    | [] => .next s
    | c :: rest => runBus (accept p c rest s)

/-- The port on which `withFetchWord` places a word: one that R66 marks for it; port A for an illegal word. -/
def portFor (w : CmdWord) : Port :=
  match (opField w).toNat with
  | 0x6 | 0x7 | 0x8 | 0xE | 0xF => .P
  | 0x4 | 0x5 | 0x9 | 0xA | 0xB => .C
  | _ => .A

/-- The command `w` with empty operand channels, next in the stream of a port that may issue it, and that port next in the
schedule. A halted ring accepts no command and a held producer issues none (R98, R75), so FAULT is cleared, and PEND when the
command goes to port P; nothing else changes. -/
def placeCommand (s : State) (w : CmdWord) : State :=
  let p := portFor w
  let c : Command := { word := w, arg := 0, dataIn := [] }
  setQueue p (c :: queueOf p s)
    { s with schedule := .step p :: s.schedule, fault := 0, pend := if p = .P then 0 else s.pend }

end Sys2Proof.Machine
end

