-- ==== Sys2Proof/Machine/Step.lean ====
section
/-! DEFINITION. One step of the machine (spec/00_scope.md R5, R10; spec/20_memory.md R53). -/

namespace Sys2Proof.Machine

/-- The next event happens: a hardware reset (R117), or a step of the port the scheduler picks (R102, R112). -/
def step (s : State) : Host.Outcome State Fault Refusal :=
  match nextEvent s with
  | .reset => .next (hardwareReset (takeEvent s))
  | .step p => portStep p (takeEvent s)

/-- The command of `nbits` bits `w` (the bits above them 0) placed so that the next step runs it (log 4). -/
def State.withFetchWord (s : State) (nbits w : Nat) : State := placeCommand s (BitVec.ofNat 32 (w % 2 ^ nbits))

end Sys2Proof.Machine
end

