-- ==== Sys2Proof/Machine/Asm.lean ====
section
/-! DEFINITION. The assembler syntax and the program listing (spec/30_encoding.md R71 to R73). Neither is part of a step. -/

namespace Sys2Proof.Machine

/-! ### Reading a line -/

/-- What a line is cut into: runs of letters, digits and underscores, and single marks. -/
inductive Token where
  | name (cs : List Char)
  | mark (c : Char)
  deriving DecidableEq, Repr

/-- The brace that opens a block operand. -/
def openBrace : Char := Char.ofNat 0x7B

/-- The brace that closes a block operand. -/
def closeBrace : Char := Char.ofNat 0x7D

/-- The run read so far, as a token, if it is not empty. -/
def flushName (acc : List Char) : List Token := if acc = [] then [] else [.name acc.reverse]

/-- Cut a line into tokens; `;` starts a comment (R71). -/
def tokens (acc : List Char) : List Char → List Token
  | [] => flushName acc
  | c :: cs =>
    if c = ';' then flushName acc
    else if c.isAlphanum || c = '_' then tokens (c :: acc) cs
    else if c = ' ' || c = '\t' then flushName acc ++ tokens [] cs
    else flushName acc ++ .mark c :: tokens [] cs

/-- The value of a digit in bases up to 16. -/
def digitValue (c : Char) : Option Nat :=
  if '0' ≤ c ∧ c ≤ '9' then some (c.toNat - '0'.toNat)
  else if 'a' ≤ c ∧ c ≤ 'f' then some (c.toNat - 'a'.toNat + 10)
  else if 'A' ≤ c ∧ c ≤ 'F' then some (c.toNat - 'A'.toNat + 10)
  else none

/-- The number that digits of a base spell, most significant first, after `acc`. -/
def digits (base acc : Nat) : List Char → Option Nat
  | [] => some acc
  | c :: cs =>
    match digitValue c with
    | some d => if d < base then digits base (acc * base + d) cs else none
    | none => none

/-- A number: decimal, or hexadecimal with `0x` (R71). -/
def number : List Char → Option Nat
  | [] => none
  | ['0', 'x'] => none
  | '0' :: 'x' :: cs => digits 16 0 cs
  | cs => digits 10 0 cs

/-- One operand or more, separated by commas. -/
def operands : List Token → Option (List Nat)
  | [.name n] => (number n).map (fun v => [v])
  | .name n :: .mark ',' :: ts =>
    match number n, operands ts with
    | some v, some vs => some (v :: vs)
    | _, _ => none
  | _ => none

/-- A block operand: words between braces (R71). -/
def blockOperand (ts : List Token) : Option (List Nat) :=
  match ts with
  | .mark c :: rest =>
    if c = openBrace ∧ rest.getLast? = some (.mark closeBrace) then operands rest.dropLast else none
  | _ => none

/-- The command of an instruction, if every operand fits its field; otherwise no word is emitted (R71). -/
def emitCommand (i : Instr) (h : Nat) (data : List Word) (p : Params) : Option Command :=
  if WellFormed i = true ∧ h < 2 ^ 32 ∧ data.all (fun v => decide (v < 2 ^ p.wordBits)) = true then
    some { word := encode i, arg := BitVec.ofNat 32 h, dataIn := data }
  else none

/-- A command without operands. -/
def plainCommand (i : Instr) (args : List Token) (p : Params) : Option Command :=
  if args = [] then emitCommand i 0 [] p else none

/-- A command with a count. -/
def countCommand (mk : Nat → Instr) (args : List Token) (p : Params) : Option Command :=
  match operands args with
  | some [n] => emitCommand (mk n) 0 [] p
  | _ => none

/-- The command of a mnemonic and its operands; `tail` is another name of `tail_ref` (R71, R73). -/
def mnemonicCommand (name : String) (args : List Token) (p : Params) : Option Command :=
  match name with
  | "ctor0" => plainCommand .ctor0 args p
  | "ctorn" => countCommand .ctorn args p
  | "dtor" => plainCommand .dtor args p
  | "is_empty" => plainCommand .isEmpty args p
  | "is_full" => plainCommand .isFull args p
  | "head_ref" => plainCommand .headRef args p
  | "produce_head" => plainCommand .produceHead args p
  | "push_front" =>
    match blockOperand args with
    | some b => if b.length = p.blockWords then emitCommand .pushFront 0 b p else none
    | none => none
  | "tail_ref" => plainCommand .tailRef args p
  | "tail" => plainCommand .tailRef args p
  | "consume_tail" => plainCommand .consumeTail args p
  | "pop_back" => plainCommand .popBack args p
  | "resize" => countCommand .resize args p
  | "provide" =>
    match operands args with
    | some [h, n] => emitCommand (.provide n) h [] p
    | _ => none
  | "slot_rd" =>
    match operands args with
    | some [slot, w] => emitCommand (.slotRd slot w) 0 [] p
    | _ => none
  | "slot_wr" =>
    match operands args with
    | some [slot, w, v] => emitCommand (.slotWr slot w) 0 [v] p
    | _ => none
  | _ => none

/-- The port a line names (R71). -/
def portOfName (name : String) : Option Port :=
  match name with
  | "P" => some .P
  | "C" => some .C
  | "A" => some .A
  | _ => none

/-- One line of the assembler, `<port>: <mnemonic> <operands>`: the transaction it stands for, or nothing for an assembly
error or a line without a command (R71). -/
def assemble (p : Params) (line : String) : Option Transaction :=
  match tokens [] line.toList with
  | .name port :: .mark ':' :: .name m :: args =>
    match portOfName (String.ofList port), mnemonicCommand (String.ofList m) args p with
    | some pt, some c => some { port := pt, cmd := c }
    | _, _ => none
  | _ => none

/-! ### Writing a listing -/

/-- A hexadecimal digit. -/
def hexDigit (d : Nat) : Char := ['0', '1', '2', '3', '4', '5', '6', '7', '8', '9', 'A', 'B', 'C', 'D', 'E', 'F'].getD d '0'

/-- A command word as the listing shows it: eight hexadecimal digits. -/
def hexWord (w : CmdWord) : String :=
  "0x" ++ String.ofList ((List.range 8).map (fun k => hexDigit ((w >>> (4 * (7 - k))).toNat % 16)))

/-- Numbers in decimal, separated by commas. -/
def commaList (ns : List Nat) : String := String.intercalate ", " (ns.map toString)

/-- The assembly text of an instruction with its channels (R71). -/
def asmText (p : Params) (c : Command) (i : Instr) : String :=
  match i with
  | .ctor0 => "ctor0"
  | .ctorn n => "ctorn " ++ commaList [n]
  | .dtor => "dtor"
  | .isEmpty => "is_empty"
  | .isFull => "is_full"
  | .headRef => "head_ref"
  | .produceHead => "produce_head"
  | .pushFront =>
    "push_front " ++ openBrace.toString ++ commaList (fitBlock p c.dataIn) ++ closeBrace.toString
  | .tailRef => "tail_ref"
  | .consumeTail => "consume_tail"
  | .popBack => "pop_back"
  | .resize n => "resize " ++ commaList [n]
  | .provide n => "provide " ++ commaList [c.arg.toNat, n]
  | .slotRd slot w => "slot_rd " ++ commaList [slot, w]
  | .slotWr slot w => "slot_wr " ++ commaList [slot, w, fitWord p c.dataIn 0]

/-- The port's name in a listing (R71). -/
def portName : Port → String
  | .P => "P"
  | .C => "C"
  | .A => "A"

/-- One line of a program listing: the port, the assembly text and the word; an illegal word has no assembly text (R72). -/
def listingLine (p : Params) (t : Transaction) : Option String :=
  match decode t.cmd.word with
  | .ok i => some (portName t.port ++ ": " ++ asmText p t.cmd i ++ " ; " ++ hexWord t.cmd.word)
  | .error _ => none

/-- The line that shows the completion of a held command; it has no word of its own (R72). -/
def completionLine (pend : BitVec 4) : Option String :=
  if pend = 0x7 then some "P: (completes produce_head)"
  else if pend = 0x8 then some "P: (completes push_front)"
  else none

end Sys2Proof.Machine
end

