-- ==== Sys2Proof/Machine/Inspect.lean ====
section
/-! DEFINITION. Views of the state that no command reads or writes: the inspection numbers (spec/10_state.md R35), slot
ownership and lifecycle stages (R30, R31), the live blocks (R27). -/

namespace Sys2Proof.Machine

/-- What an inspection number shows: the bits of a register, or ORIGIN, which has no bit pattern (R35). -/
inductive Inspection where
  | bits (n : Nat)
  | origin (o : Origin)
  deriving DecidableEq, Repr

/-- PHASE as its bit (R20). -/
def phaseBit : Phase → Nat
  | .unconstructed => 0
  | .live => 1

/-- The register with an inspection number, if there is one (R35). -/
def inspect (s : State) (number : Nat) : Option Inspection :=
  match number with
  | 0 => some (.bits (phaseBit s.phase))
  | 1 => some (.bits s.cap.toNat)
  | 2 => some (.bits s.head.toNat)
  | 3 => some (.bits s.tail.toNat)
  | 4 => some (.bits s.pend.toNat)
  | 5 => some (.bits s.fault.toNat)
  | 6 => some (.origin s.origin)
  | _ => none

/-- `STORAGE[slot][w]` as it is observed (R35). -/
def inspectWord (s : State) (slot w : Nat) : Option Word := readWord s.params s.storage slot w

/-- The slot is live: in the circular range from TAIL to HEAD (R13, R27). -/
def isLive (s : State) (slot : Nat) : Bool := (List.range (occ s)).any (fun k => liveSlot s k == slot)

/-- The stages of a slot's lifecycle that the registers tell apart (R31). -/
inductive Stage where
  /-- Reserved or filled: the head slot. -/
  | reserved
  /-- Live, and not the tail slot. -/
  | queued
  /-- The tail slot of a non-empty ring. -/
  | active
  /-- Neither live nor the head slot. -/
  | retired
  deriving DecidableEq, Repr

/-- The stage of a slot; a slot the ring does not have has none (R31). -/
def stageOf (s : State) (slot : Nat) : Option Stage :=
  if s.cap.toNat ≤ slot then none
  else if slot = s.head.toNat then some .reserved
  else if !isEmpty s && slot == s.tail.toNat then some .active
  else if isLive s slot then some .queued
  else some .retired

/-- The port that owns a slot and alone may access it, if any does (R30, R31). -/
def ownerOf (s : State) (slot : Nat) : Option Port :=
  match stageOf s slot with
  | some .reserved => some .P
  | some .active => some .C
  | _ => none

/-- The produced and not yet retired blocks, oldest first (R27, R55). -/
def liveBlocks (s : State) : List Block :=
  (List.range (occ s)).map (fun k => slotBlock s.params s.storage (liveSlot s k))

end Sys2Proof.Machine
end

