-- ==== Sys2Proof/Safety.lean ====
section
/-! DEFINITION. What claims are stated in: the invariants of spec/10_state.md R25 and R37, the end of a run
(spec/60_exceptions.md R116), runs, weak fairness and hangs (R112), and those duties of the callers and of the host that can be
said of a state (spec/60_exceptions.md R113, spec/70_reset_and_hazards.md R119, R127). -/

namespace Sys2Proof.Machine

/-- The parameters are in R7's domain. -/
abbrev ParamsOk (s : State) : Prop := s.params.wf = true

/-- R25: at capacity 0 both indices are 0, otherwise both are below the capacity. -/
abbrev IndexRange (s : State) : Prop :=
  (s.cap = 0 → s.head = 0 ∧ s.tail = 0) ∧ (s.cap ≠ 0 → s.head.toNat < s.cap.toNat ∧ s.tail.toNat < s.cap.toNat)

/-- R37: the storage holds exactly CAP blocks; and its list is canonical. -/
abbrev StorageOk (s : State) : Prop := s.storage.size = s.cap.toNat ∧ s.storage.wf s.params = true

/-- R37: ORIGIN is NONE exactly when CAP is 0; and no owned handle is null (R50, R90). -/
abbrev OriginOk (s : State) : Prop := (s.origin = .none ↔ s.cap = 0) ∧ ownedHandle s.origin ≠ some 0

/-- R37: an unconstructed ring has capacity 0, indices 0 and no storage. -/
abbrev PhaseOk (s : State) : Prop :=
  s.phase = .unconstructed → s.cap = 0 ∧ s.head = 0 ∧ s.tail = 0 ∧ s.origin = .none

/-- R21: PEND is 0, 0x7 or 0x8; and a held producer has a ring with slots (R83, R84). -/
abbrev PendOk (s : State) : Prop := (s.pend = 0 ∨ s.pend = 0x7 ∨ s.pend = 0x8) ∧ (s.pend ≠ 0 → s.cap ≠ 0)

/-- R22, R97: FAULT is 0, or records a cause of 1 to 9 and a port other than 3. -/
abbrev FaultOk (s : State) : Prop :=
  s.fault = 0 ∨
    (faultValid s.fault = true ∧ 1 ≤ (faultCause s.fault).toNat ∧ (faultCause s.fault).toNat ≤ 9 ∧ faultPort s.fault ≠ 3)

/-- The invariant of the machine: R25 and R37, with the legal values of R21, R22, R34. -/
abbrev State.Inv (s : State) : Prop :=
  ParamsOk s ∧ IndexRange s ∧ StorageOk s ∧ OriginOk s ∧ PhaseOk s ∧ PendOk s ∧ FaultOk s

/-- The end of a run (R116). -/
abbrev State.ended (s : State) : Prop :=
  s.queueP = [] ∧ s.queueC = [] ∧ s.queueA = [] ∧ s.pend = 0 ∧ halted s = false

/-- The port has an enabled step (R85, R98, R103). -/
abbrev Enabled (p : Port) (s : State) : Prop :=
  halted s = false ∧ (if p = .P ∧ s.pend ≠ 0 then isFull s = false else queueOf p s ≠ [])

/-- A run: one state after another, each the step's next state of the one before. -/
abbrev IsRun (r : Nat → State) : Prop := ∀ k, step (r k) = .next (r (k + 1))

/-- The step from this state is the enabled step of the port. -/
abbrev Takes (p : Port) (s : State) : Prop := nextEvent s = .step p ∧ Enabled p s

/-- Weak fairness: from every time on, a port takes its step, or its step is disabled before it has taken it (R112). -/
abbrev WeaklyFair (r : Nat → State) : Prop :=
  ∀ p k, ∃ j, k ≤ j ∧ (∀ i, k ≤ i → i < j → ¬Takes p (r i)) ∧ (Takes p (r j) ∨ ¬Enabled p (r j))

/-- The ring hangs: the producer is held on a full ring and no one else has a command left (R112). -/
abbrev State.hung (s : State) : Prop := s.pend ≠ 0 ∧ isFull s = true ∧ s.queueC = [] ∧ s.queueA = []

/-- Boot, step 4: the ring has a usable slot (R119, R129). -/
abbrev Usable (s : State) : Prop := 2 ≤ s.cap.toNat

/-- The two sides have nothing in progress and nothing more to issue: enough for the quiescence of R13 that R127 asks of the
Admin, which the ring itself cannot see. -/
abbrev SidesIdle (s : State) : Prop := s.pend = 0 ∧ s.queueP = [] ∧ s.queueC = []

/-- The host's duty on PROVIDE: the handle is not one the ring owns (R113). -/
abbrev ProvidesForeign (s : State) : Prop := ownedHandle s.origin ≠ some s.bus.cmd.arg

/-- R98: only the fault mechanism answers with STATUS 2; a state whose newest output is that answer has just faulted with the
cause. -/
abbrev JustFaulted (c : Cause) (s t : State) : Prop :=
  t.ring = { s.ring with fault := packFault (causeCode c) (portCode s.bus.port) (opField s.bus.cmd.word) } ∧
    t.outputs = .response s.bus.port
      { status := 2, code := causeCode c, value := 0, dataOut := List.replicate s.params.blockWords 0 } :: s.outputs

end Sys2Proof.Machine
end

