-- ==== Sys2Proof/Certificates/Slice0/Obligations.lean ====
section
/-! DEFINITION. The statements for the provers. Numbers and layouts are written out here from the spec, apart from the
definitions the machine uses, so that a statement compares the two. What left the block is read from the model's record
`outputs`, newest first, and a step from the model's `schedule`, scheduler and command streams (logs 3, 4, 9 and 16). -/

namespace Sys2Proof.Spec

open Sys2Proof.Machine

/-- The ports of a command, from the `ports` of its row in spec/opcode_table.json (R66). -/
def ports : Instr → List Port
  | .ctor0 => [.A]
  | .ctorn _ => [.A]
  | .dtor => [.A]
  | .isEmpty => [.P, .C, .A]
  | .isFull => [.P, .C, .A]
  | .headRef => [.P]
  | .produceHead => [.P]
  | .pushFront => [.P]
  | .tailRef => [.C]
  | .consumeTail => [.C]
  | .popBack => [.C]
  | .resize _ => [.A]
  | .provide _ => [.A]
  | .slotRd _ _ => [.P, .C]
  | .slotWr _ _ => [.P, .C]

/-- CTOR0 and CTORN (R70). -/
abbrev IsConstructor (i : Instr) : Prop := i = .ctor0 ∨ ∃ n, i = .ctorn n

/-- DTOR, RESIZE and PROVIDE (R70). -/
abbrev NeedsQuiescence (i : Instr) : Prop := i = .dtor ∨ (∃ n, i = .resize n) ∨ ∃ n, i = .provide n

/-- The prologue of R70 raises nothing: the port is marked, the phase fits, nothing is held that must not be. -/
abbrev Accepted (i : Instr) (s : State) : Prop :=
  s.bus.port ∈ ports i ∧ (IsConstructor i → s.phase = .unconstructed) ∧ (¬IsConstructor i → s.phase = .live) ∧
    (NeedsQuiescence i → s.pend = 0)

/-- `next` on numbers (R24). -/
abbrev succ (cap i : Nat) : Nat := if cap = 0 then 0 else (i + 1) % cap

/-- `next(HEAD)` and `next(TAIL)` as register contents (R24). -/
abbrev nextHead (s : State) : Idx := BitVec.ofNat 24 (succ s.cap.toNat s.head.toNat)

abbrev nextTail (s : State) : Idx := BitVec.ofNat 24 (succ s.cap.toNat s.tail.toNat)

/-- The ring is full (R26). -/
abbrev Full (s : State) : Prop := succ s.cap.toNat s.head.toNat = s.tail.toNat

/-- A block of zero words. -/
abbrev zeros (s : State) : List Word := List.replicate s.params.blockWords 0

/-- The response OK(v) on the bus's port (R65). -/
abbrev okResp (s : State) (v : BitVec 32) : Output :=
  .response s.bus.port { status := 0, code := 0, value := v, dataOut := zeros s }

/-- The response OK(0) with a block (R65). -/
abbrev dataResp (s : State) (b : Block) : Output :=
  .response s.bus.port { status := 0, code := 0, value := 0, dataOut := b }

/-- The response FAIL with a reason code (R65, R96). -/
abbrev failResp (s : State) (code : BitVec 4) : Output :=
  .response s.bus.port { status := 1, code := code, value := 0, dataOut := zeros s }

/-- The port number in FAULT (R22). -/
def portNumber : Port → Nat
  | .P => 0
  | .C => 1
  | .A => 2

/-- `VALID | CAUSE<<1 | PORT<<5 | OP<<7` (R22; spec/95_test_vectors.md section 0). -/
abbrev faultWord (cause : Nat) (p : Port) (w : CmdWord) : BitVec 11 :=
  BitVec.ofNat 11 (1 + 2 * cause + 32 * portNumber p + 128 * (w.toNat / 2 ^ 28))

/-- The state after `raise Fault(c)` (R98): FAULT written, the FAULT response given, nothing else changed. -/
abbrev faulted (s : State) (cause : Nat) : State :=
  { s with
    fault := faultWord cause s.bus.port s.bus.cmd.word
    outputs :=
      .response s.bus.port { status := 2, code := BitVec.ofNat 4 cause, value := 0, dataOut := zeros s } :: s.outputs }

/-- The free event of the storage that an ORIGIN names (R52). -/
def freeEvents : Origin → List Output
  | .none => []
  | .allocated h => [.free h]
  | .provided h => [.free h]

/-- The port `p` takes its next command `c`: it has been picked, the ring is not halted, the port is not held (R75, R98). -/
abbrev Issues (s : State) (p : Port) (c : Command) (q : List Command) (rest : List Event) : Prop :=
  s.schedule = .step p :: rest ∧ s.fault.getLsbD 0 = false ∧ (p = .P → s.pend = 0) ∧ queueOf p s = c :: q

/-- Turn `k` of the model's scheduler: free choices, then the port whose turn it is (log 16). -/
abbrev turnEvents (k : Nat) : List Event :=
  (Config.turns k ++ [if k % 3 = 0 then Port.P else if k % 3 = 1 then Port.C else Port.A]).map .step

/-- R116, R98, R112: the run has ended, a fault halts it, or it hangs: the producer is held on a full ring and neither other
port has a command left. -/
abbrev AtRest (s : State) : Prop := s.ended ∨ s.fault.getLsbD 0 = true ∨ s.hung

/-- The slot is the own slot of the port on the bus (R30, R48). -/
abbrev OwnSlot (s : State) (slot : Nat) : Prop :=
  (s.bus.port = .P ∧ slot = s.head.toNat) ∨ (s.bus.port = .C ∧ s.head ≠ s.tail ∧ slot = s.tail.toNat)

/-- The address is in the slot space (R39, R45). -/
abbrev InSlotSpace (s : State) (slot w : Nat) : Prop := slot < s.cap.toNat ∧ w < s.params.blockWords

/-- Another handle on ARG. -/
def withArg (a : Handle) (s : State) : State := { s with bus := { s.bus with cmd := { s.bus.cmd with arg := a } } }

/-- Other words on DATA_IN. -/
def withData (d : List Word) (s : State) : State := { s with bus := { s.bus with cmd := { s.bus.cmd with dataIn := d } } }

/-- An outcome whose next state is changed by `f`. -/
def onNext (f : State → State) : Result → Result
  | .next t => .next (f t)
  | .fault r => .fault r
  | .refused r => .refused r

/-- R74 item 1: HEAD_REF, a SLOT_WR for every word of the block, PRODUCE_HEAD. -/
def pushSequence (s : State) (b : List Word) : List Command :=
  { word := 0x60000000, arg := 0, dataIn := [] } ::
    (List.range s.params.blockWords).map
      (fun k => { word := encode (.slotWr s.head.toNat k), arg := 0, dataIn := [b.getD k 0] }) ++
    [{ word := 0x70000000, arg := 0, dataIn := [] }]

/-- R74 item 2: TAIL_REF, a SLOT_RD for every word of the block, CONSUME_TAIL. -/
def popSequence (s : State) : List Command :=
  { word := 0x90000000, arg := 0, dataIn := [] } ::
    (List.range s.params.blockWords).map
      (fun k => { word := encode (.slotRd s.tail.toNat k), arg := 0, dataIn := [] }) ++
    [{ word := 0xA0000000, arg := 0, dataIn := [] }]

/-- The state in which a port has only these commands to issue and is picked once for each. -/
def issuing (p : Port) (cs : List Command) (s : State) : State :=
  setQueue p cs { s with schedule := List.replicate cs.length (.step p) }

end Sys2Proof.Spec

open Sys2Proof Sys2Proof.Machine Sys2Proof.Spec

/-! ### Encoding -/

/-- R62 to R64, R71: no bit of an encoding is dropped. -/
def Obligations.DecodeAfterEncode : Prop := ∀ (i : Instr), WellFormed i = true → decode (encode i) = .ok i

/-- R63, R64, R76: a word that decodes is the word of the instruction it decodes to, whose operands fit. -/
def Obligations.EncodeAfterDecode : Prop := ∀ w (i : Instr), decode w = .ok i → WellFormed i = true ∧ encode i = w

/-- R67: the words that decode are the legal ones. -/
def Obligations.DecodableWordsAreTheLegalOnes : Prop :=
  ∀ w : CmdWord,
    (∃ i, decode w = .ok i) ↔
      (w.toNat / 2 ^ 28 ∈ [0x1, 0x3, 0x4, 0x5, 0x6, 0x7, 0x8, 0x9, 0xA, 0xB] ∧ w.toNat % 2 ^ 28 = 0) ∨
        (w.toNat / 2 ^ 28 ∈ [0x2, 0xC, 0xD] ∧ w.toNat / 2 ^ 24 % 16 = 0) ∨ w.toNat / 2 ^ 28 ∈ [0xE, 0xF]

/-- R71: some words of the assembler table. -/
def Obligations.TableWordsDecode : Prop :=
  decode 0x10000000 = .ok .ctor0 ∧ decode 0x20000004 = .ok (.ctorn 4) ∧ decode 0x40000000 = .ok .isEmpty ∧
    decode 0x80000000 = .ok .pushFront ∧ decode 0x90000000 = .ok .tailRef ∧ decode 0xC0FFFFFF = .ok (.resize 0xFFFFFF) ∧
    decode 0xE1000002 = .ok (.slotRd 2 1) ∧ decode 0xFF000003 = .ok (.slotWr 3 15)

/-- R71, R73: the assembler's words, one line for each mnemonic, the alias `tail`, and operands that do not fit. The lines
that carry block words are stated for blocks of two 32-bit words. That a channel without an operand is empty is the model's
choice (log 2). -/
def Obligations.AssemblerLines : Prop :=
  (∀ p : Params,
    assemble p "A: ctor0" = some { port := .A, cmd := { word := 0x10000000, arg := 0, dataIn := [] } } ∧
    assemble p "A: ctorn 4 ; four slots" = some { port := .A, cmd := { word := 0x20000004, arg := 0, dataIn := [] } } ∧
    assemble p "A: dtor" = some { port := .A, cmd := { word := 0x30000000, arg := 0, dataIn := [] } } ∧
    assemble p "P: is_empty" = some { port := .P, cmd := { word := 0x40000000, arg := 0, dataIn := [] } } ∧
    assemble p "C: is_full" = some { port := .C, cmd := { word := 0x50000000, arg := 0, dataIn := [] } } ∧
    assemble p "P: head_ref" = some { port := .P, cmd := { word := 0x60000000, arg := 0, dataIn := [] } } ∧
    assemble p "P: produce_head" = some { port := .P, cmd := { word := 0x70000000, arg := 0, dataIn := [] } } ∧
    assemble p "C: tail_ref" = some { port := .C, cmd := { word := 0x90000000, arg := 0, dataIn := [] } } ∧
    assemble p "C: tail" = assemble p "C: tail_ref" ∧
    assemble p "C: consume_tail" = some { port := .C, cmd := { word := 0xA0000000, arg := 0, dataIn := [] } } ∧
    assemble p "C: pop_back" = some { port := .C, cmd := { word := 0xB0000000, arg := 0, dataIn := [] } } ∧
    assemble p "A: resize 8" = some { port := .A, cmd := { word := 0xC0000008, arg := 0, dataIn := [] } } ∧
    assemble p "A: provide 0x300, 3" = some { port := .A, cmd := { word := 0xD0000003, arg := 0x300, dataIn := [] } } ∧
    assemble p "C: slot_rd 2, 1" = some { port := .C, cmd := { word := 0xE1000002, arg := 0, dataIn := [] } } ∧
    assemble p "A: ctorn 0x1000000" = none ∧ assemble p "C: slot_rd 0, 16" = none) ∧
  (∀ b : Block,
    let p : Params := { blockWords := 2, wordBits := 32, defaultBlock := b }
    assemble p "P: slot_wr 2, 1, 0x55" = some { port := .P, cmd := { word := 0xF1000002, arg := 0, dataIn := [0x55] } } ∧
    assemble p ("P: push_front " ++ openBrace.toString ++ "0xB1, 11" ++ closeBrace.toString) =
      some { port := .P, cmd := { word := 0x80000000, arg := 0, dataIn := [0xB1, 11] } })

/-! ### The step -/

/-- R70, R75: when the port's next command decodes, the step is the execution of that instruction, on the state whose bus
holds the command and whose stream and schedule have moved on. -/
def Obligations.StepRunsTheDecodedCommand : Prop :=
  ∀ (s : State) p (c : Command) q (rest : List Event) (i : Instr), Issues s p c q rest → decode c.word = .ok i →
    step s = exec i { setQueue p q { s with schedule := rest } with bus := { port := p, cmd := c } }

/-- R68: each illegal word raises ILLEGAL_COMMAND. -/
def Obligations.IllegalWordsFault : Prop :=
  ∀ (s : State) p (c : Command) q (rest : List Event), Issues s p c q rest →
    (c.word.toNat / 2 ^ 28 = 0 ∨
      (c.word.toNat / 2 ^ 28 ∈ [0x1, 0x3, 0x4, 0x5, 0x6, 0x7, 0x8, 0x9, 0xA, 0xB] ∧ c.word.toNat % 2 ^ 28 ≠ 0) ∨
      (c.word.toNat / 2 ^ 28 ∈ [0x2, 0xC, 0xD] ∧ c.word.toNat / 2 ^ 24 % 16 ≠ 0)) →
    step s = .next (faulted { setQueue p q { s with schedule := rest } with bus := { port := p, cmd := c } } 1)

/-- R85: the completion of a held produce, in every state that is not full, and its waiting in one that is. -/
def Obligations.HeldProduceCompletes : Prop :=
  ∀ (s : State) (rest : List Event), s.schedule = .step .P :: rest → s.fault.getLsbD 0 = false → (s.pend = 0x7 ∨ s.pend = 0x8) →
    (¬Full s →
      step s = .next { s with
        schedule := rest, head := nextHead s, pend := 0
        outputs := .response .P { status := 0, code := 0, value := 0, dataOut := zeros s } :: s.outputs }) ∧
    (Full s → step s = .next { s with schedule := rest })

/-- R99: while a fault is recorded nothing but a reset changes the ring, no command is taken and nothing is answered. -/
def Obligations.FaultLastsUntilReset : Prop :=
  ∀ (s : State), s.fault.getLsbD 0 = true →
    (∀ p (rest : List Event), s.schedule = .step p :: rest → step s = .next { s with schedule := rest }) ∧
    (∀ (rest : List Event), s.schedule = .reset :: rest → ∃ t, step s = .next t ∧ t.fault = 0)

/-- R117: a hardware reset sets every register to its reset value (R36), answers nothing and frees nothing. That it leaves the
command streams, the events to come and the answers still to come as they are is the model's choice (log 5). -/
def Obligations.HardwareResetSetsEveryRegister : Prop :=
  ∀ (s : State) (rest : List Event), s.schedule = .reset :: rest →
    step s = .next { s with
      schedule := rest, phase := .unconstructed, cap := 0, head := 0, tail := 0, pend := 0, fault := 0
      storage := { size := 0, fill := .fresh, cells := [] }, origin := .none }

/-- R36: the reset values. -/
def Obligations.ResetStateValues : Prop :=
  State.reset.phase = .unconstructed ∧ State.reset.cap = 0 ∧ State.reset.head = 0 ∧ State.reset.tail = 0 ∧
    State.reset.pend = 0 ∧ State.reset.fault = 0 ∧ State.reset.storage.size = 0 ∧ State.reset.storage.cells = [] ∧
    State.reset.origin = .none

/-- R21, R22, R25, R37: every step keeps the invariant. Beside the rules' own invariants it has the canonical form in which the
model writes down the storage (log 6) and the parameters it carries (log 1). -/
def Obligations.StepKeepsInvariant : Prop := ∀ (s t : State), s.Inv → step s = .next t → t.Inv

/-- R35: the inspection numbers, and the words of the slots. -/
def Obligations.InspectionNumbers : Prop :=
  ∀ (s : State), s.Inv →
    inspect s 0 = some (.bits (if s.phase = .live then 1 else 0)) ∧ inspect s 1 = some (.bits s.cap.toNat) ∧
    inspect s 2 = some (.bits s.head.toNat) ∧ inspect s 3 = some (.bits s.tail.toNat) ∧
    inspect s 4 = some (.bits s.pend.toNat) ∧ inspect s 5 = some (.bits s.fault.toNat) ∧
    inspect s 6 = some (.origin s.origin) ∧ (∀ number, 7 ≤ number → inspect s number = none) ∧
    ∀ (slot : Nat) w,
      (InSlotSpace s slot w → ∃ v, inspectWord s slot w = some v ∧ (slotBlock s.params s.storage slot)[w]? = some v ∧
        v < 2 ^ s.params.wordBits) ∧
      (¬InSlotSpace s slot w → inspectWord s slot w = none)

/-- The reset state meets the invariant. -/
def Obligations.ResetStateMeetsInvariant : Prop := State.reset.Inv

/-- No state that meets the invariant stops: neither the fault nor a refusal of the model is ever reached (logs 10, 11). -/
def Obligations.InvariantStatesNeverStop : Prop := ∀ (s : State), s.Inv → ∃ t, step s = .next t

/-- R16: the parameters are no state; no step changes them (they are carried in the model's state, log 1). -/
def Obligations.ParametersNeverChange : Prop := ∀ (s t : State), step s = .next t → t.params = s.params

/-- R53, R75, R102: one event is used up in a step, of the schedule, or of the turn the scheduler draws when it has run out (the
model's form of the scheduler, logs 4 and 16); the step is then the step with that turn as the schedule. A command stream loses
at most its first command, in a step of its own port. -/
def Obligations.InputsAreTakenInOrder : Prop :=
  ∀ (s t : State), step s = .next t →
    (∀ e (rest : List Event), s.schedule = e :: rest → nextEvent s = e ∧ t.schedule = rest ∧ t.turn = s.turn) ∧
    (s.schedule = [] →
      t.schedule = (turnEvents s.turn).tail ∧ t.turn = s.turn + 1 ∧
      nextEvent s = nextEvent { s with schedule := turnEvents s.turn, turn := s.turn + 1 } ∧
      step { s with schedule := turnEvents s.turn, turn := s.turn + 1 } = .next t) ∧
    (∀ p, queueOf p t = queueOf p s ∨ (nextEvent s = .step p ∧ queueOf p t = (queueOf p s).tail))

/-- R10, R11, R61: a command that a port takes is answered once, in the same step, on its port, unless it is held. -/
def Obligations.EveryIssuedCommandIsAnsweredOrHeld : Prop :=
  ∀ (s : State) p (c : Command) q (rest : List Event) (t : State), Issues s p c q rest → step s = .next t →
    (∃ r old, t.outputs = .response p r :: old ∧ (old = s.outputs ∨ ∃ h, old = .free h :: s.outputs)) ∨
      (p = .P ∧ t.outputs = s.outputs ∧ (t.pend = 0x7 ∨ t.pend = 0x8))

/-- R65: the form of every response. -/
def Obligations.ResponsesHaveTheirFormat : Prop :=
  ∀ (s t : State) p r, s.Inv → step s = .next t → t.outputs ≠ s.outputs → t.outputs.head? = some (.response p r) →
    r.status ≠ 3 ∧ r.dataOut.length = s.params.blockWords ∧ (∀ v ∈ r.dataOut, v < 2 ^ s.params.wordBits) ∧
    (r.status = 0 → r.code = 0) ∧
    (r.status = 1 → 1 ≤ r.code.toNat ∧ r.code.toNat ≤ 3) ∧
    (r.status = 2 → 1 ≤ r.code.toNat ∧ r.code.toNat ≤ 9) ∧
    (r.status ≠ 0 → r.value = 0 ∧ r.dataOut = zeros s)

/-! ### The prologue and faults -/

/-- R66: a command on a port that is not marked for it faults WRONG_PORT. -/
def Obligations.UnmarkedPortsFault : Prop :=
  ∀ (i : Instr) (s : State), s.bus.port ∉ ports i → exec i s = .next (faulted s 2)

/-- R70, R103: on a marked port, the checks of phase and quiescence, in their order. -/
def Obligations.PhaseAndQuiescenceFaults : Prop :=
  ∀ (i : Instr) (s : State), s.bus.port ∈ ports i →
    (IsConstructor i → s.phase = .live → exec i s = .next (faulted s 3)) ∧
    (¬IsConstructor i → s.phase = .unconstructed → exec i s = .next (faulted s 4)) ∧
    (NeedsQuiescence i → s.phase = .live → s.pend ≠ 0 → exec i s = .next (faulted s 5))

/-- R98, R104: a step that answers FAULT has recorded the cause, the port and the opcode of the command it took, and has
changed nothing else of the ring; after it no port takes a step. -/
def Obligations.FaultEntryIsPreciseAndHalts : Prop :=
  ∀ (s t : State) p r, step s = .next t → t.outputs = .response p r :: s.outputs → r.status = 2 →
    t.ring = { s.ring with fault := faultWord r.code.toNat p t.bus.cmd.word } ∧ t.bus.port = p ∧
    1 ≤ r.code.toNat ∧ r.code.toNat ≤ 9 ∧ r.value = 0 ∧ r.dataOut = zeros s ∧ ¬t.ended ∧
    ∀ q (rest : List Event), step { t with schedule := .step q :: rest } = .next { t with schedule := rest }

/-! ### Indices and occupancy -/

/-- R24: `next` and `prev`. -/
def Obligations.NextAndPrevIndex : Prop :=
  ∀ cap i : Idx,
    (cap ≠ 0 →
      (nextIdx cap i).toNat = (i.toNat + 1) % cap.toNat ∧ (prevIdx cap i).toNat = (i.toNat + cap.toNat - 1) % cap.toNat) ∧
    (cap = 0 → nextIdx cap i = 0 ∧ prevIdx cap i = 0) ∧
    (i.toNat < cap.toNat →
      (nextIdx cap i).toNat = (if i.toNat + 1 = cap.toNat then 0 else i.toNat + 1) ∧
      (prevIdx cap i).toNat = (if i.toNat = 0 then cap.toNat - 1 else i.toNat - 1))

/-- R26 to R28: occupancy, empty and full. -/
def Obligations.OccupancyEmptyAndFull : Prop :=
  ∀ (s : State), IndexRange s →
    (s.cap ≠ 0 → occ s ≤ s.cap.toNat - 1) ∧
    (s.head = s.tail ↔ occ s = 0) ∧
    (2 ≤ s.cap.toNat → (Full s ↔ occ s = s.cap.toNat - 1) ∧ ¬(s.head = s.tail ∧ Full s)) ∧
    (s.cap.toNat ≤ 1 → s.head = s.tail ∧ Full s)

/-- R29: one writer per index; an index moves by `next`, or is reset to 0 with the other by the Admin. -/
def Obligations.OneWriterPerIndex : Prop :=
  ∀ (s t : State) p (rest : List Event), s.schedule = .step p :: rest → step s = .next t →
    (p = .P → t.tail = s.tail ∧ (t.head = s.head ∨ t.head = nextHead s)) ∧
    (p = .C → t.head = s.head ∧ (t.tail = s.tail ∨ t.tail = nextTail s)) ∧
    (p = .A → (t.head = s.head ∧ t.tail = s.tail) ∨ (t.head = 0 ∧ t.tail = 0))

/-- R34: what each register is written by; a fault writes FAULT and nothing else. CTOR0, which R34 does not list for STORAGE,
leaves it without slots (R77): where the ring had none, every slot reads as before. -/
def Obligations.RegisterWriters : Prop :=
  ∀ (i : Instr) (s t : State), exec i s = .next t →
    (¬(IsConstructor i ∨ i = .dtor) → t.phase = s.phase) ∧
    (¬(IsConstructor i ∨ NeedsQuiescence i) → t.cap = s.cap ∧ t.origin = s.origin) ∧
    (¬(IsConstructor i ∨ NeedsQuiescence i ∨ i = .produceHead ∨ i = .pushFront) → t.head = s.head) ∧
    (¬(IsConstructor i ∨ NeedsQuiescence i ∨ i = .consumeTail ∨ i = .popBack) → t.tail = s.tail) ∧
    (¬(i = .produceHead ∨ i = .pushFront) → t.pend = s.pend) ∧
    (¬(IsConstructor i ∨ NeedsQuiescence i ∨ i = .pushFront ∨ ∃ slot w, i = .slotWr slot w) → t.storage = s.storage) ∧
    (i = .ctor0 → StorageOk s → PhaseOk s → ∀ (slot : Nat),
      readBlock t.params t.storage slot = readBlock s.params s.storage slot) ∧
    (t.fault = s.fault ∨ ∃ cause, 1 ≤ cause ∧ cause ≤ 9 ∧ t = faulted s cause)

/-! ### The commands -/

/-- R77. -/
def Obligations.Ctor0Constructs : Prop :=
  decode 0x10000000 = .ok .ctor0 ∧
  ∀ (s : State), s.bus.port = .A → s.phase = .unconstructed →
    exec .ctor0 s = .next { s with
      phase := .live, cap := 0, head := 0, tail := 0, storage := { size := 0, fill := .fresh, cells := [] }
      origin := .none, outputs := okResp s 0 :: s.outputs }

/-- R78. The answer is `allocAnswer`, and how a draw is used up is the model's bookkeeping (log 7). -/
def Obligations.CtornConstructs : Prop :=
  (∀ (n : Nat), n < 2 ^ 24 → decode (BitVec.ofNat 32 (0x20000000 + n)) = .ok (.ctorn n)) ∧
  ∀ (s : State) (n : Nat), s.bus.port = .A → s.phase = .unconstructed → n < 2 ^ 24 →
    (n = 0 → exec (.ctorn n) s = .next { s with
      phase := .live, cap := 0, head := 0, tail := 0, storage := { size := 0, fill := .fresh, cells := [] }
      origin := .none, outputs := okResp s 0 :: s.outputs }) ∧
    (n ≠ 0 → allocAnswer s n = none → exec (.ctorn n) s = .next { s with
      phase := .live, cap := 0, head := 0, tail := 0, storage := { size := 0, fill := .fresh, cells := [] }
      origin := .none, allocAnswers := s.allocAnswers.tail, draws := s.draws + 1
      outputs := failResp s 2 :: s.outputs }) ∧
    (∀ (h : Handle), n ≠ 0 → allocAnswer s n = some h → ∃ m, m.size = n ∧ m.wf s.params = true ∧
      (∀ (slot : Nat), readBlock s.params m slot = if slot < n then some s.params.defaultBlock else none) ∧
      exec (.ctorn n) s = .next { s with
        phase := .live, cap := BitVec.ofNat 24 n, head := 0, tail := 0, storage := m, origin := .allocated h
        allocAnswers := s.allocAnswers.tail, draws := s.draws + 1, outputs := okResp s 0 :: s.outputs })

/-- R50: the allocator answers `none`, or a handle other than 0 and fresh. That fresh means `not the handle the ring owns` is
the model's reading (log 7). -/
def Obligations.AllocatedHandlesAreFresh : Prop :=
  ∀ (s : State) (n : Nat) (h : Handle), allocAnswer s n = some h → h ≠ 0 ∧ s.origin ≠ .allocated h ∧ s.origin ≠ .provided h

/-- R79. -/
def Obligations.DtorDestroys : Prop :=
  decode 0x30000000 = .ok .dtor ∧
  ∀ (s : State), s.bus.port = .A → s.phase = .live → s.pend = 0 →
    exec .dtor s = .next { s with
      phase := .unconstructed, cap := 0, head := 0, tail := 0, storage := { size := 0, fill := .fresh, cells := [] }
      origin := .none, outputs := okResp s 0 :: (freeEvents s.origin ++ s.outputs) }

/-- R80. -/
def Obligations.IsEmptyAnswers : Prop :=
  decode 0x40000000 = .ok .isEmpty ∧
  ∀ (s : State), s.phase = .live →
    exec .isEmpty s = .next { s with outputs := okResp s (if s.head = s.tail then 1 else 0) :: s.outputs }

/-- R81. -/
def Obligations.IsFullAnswers : Prop :=
  decode 0x50000000 = .ok .isFull ∧
  ∀ (s : State), s.phase = .live →
    exec .isFull s = .next { s with outputs := okResp s (if Full s then 1 else 0) :: s.outputs }

/-- R82. -/
def Obligations.HeadRefAnswers : Prop :=
  decode 0x60000000 = .ok .headRef ∧
  ∀ (s : State), s.bus.port = .P → s.phase = .live →
    (s.cap = 0 → exec .headRef s = .next (faulted s 6)) ∧
    (s.cap ≠ 0 → exec .headRef s = .next { s with outputs := okResp s (BitVec.ofNat 32 s.head.toNat) :: s.outputs })

/-- R83. -/
def Obligations.ProduceHeadPublishesOrHolds : Prop :=
  decode 0x70000000 = .ok .produceHead ∧
  ∀ (s : State), s.bus.port = .P → s.phase = .live →
    (s.cap = 0 → exec .produceHead s = .next (faulted s 6)) ∧
    (s.cap ≠ 0 → ¬Full s →
      exec .produceHead s = .next { s with head := nextHead s, outputs := okResp s 0 :: s.outputs }) ∧
    (s.cap ≠ 0 → Full s → exec .produceHead s = .next { s with pend := 0x7 })

/-- R84: the copy first, then publishing or the hold; `b` is what DATA_IN carries. -/
def Obligations.PushFrontCopiesThenPublishesOrHolds : Prop :=
  decode 0x80000000 = .ok .pushFront ∧
  ∀ (s : State), s.bus.port = .P → s.phase = .live →
    (s.cap = 0 → exec .pushFront s = .next (faulted s 6)) ∧
    (s.cap ≠ 0 → IndexRange s → StorageOk s → ∃ m b,
      m.size = s.storage.size ∧ m.wf s.params = true ∧ (s.params.blockOk s.bus.cmd.dataIn = true → b = s.bus.cmd.dataIn) ∧
      (∀ (slot : Nat), readBlock s.params m slot =
        if slot = s.head.toNat then some b else readBlock s.params s.storage slot) ∧
      (¬Full s → exec .pushFront s = .next { s with
        storage := m, head := nextHead s, outputs := okResp s 0 :: s.outputs }) ∧
      (Full s → exec .pushFront s = .next { s with storage := m, pend := 0x8 }))

/-- R86. -/
def Obligations.TailRefAnswers : Prop :=
  decode 0x90000000 = .ok .tailRef ∧
  ∀ (s : State), s.bus.port = .C → s.phase = .live →
    (s.head = s.tail → exec .tailRef s = .next (faulted s 8)) ∧
    (s.head ≠ s.tail →
      exec .tailRef s = .next { s with outputs := okResp s (BitVec.ofNat 32 s.tail.toNat) :: s.outputs })

/-- R87. -/
def Obligations.ConsumeTailRetires : Prop :=
  decode 0xA0000000 = .ok .consumeTail ∧
  ∀ (s : State), s.bus.port = .C → s.phase = .live →
    (s.head = s.tail → exec .consumeTail s = .next { s with outputs := okResp s 0 :: s.outputs }) ∧
    (s.head ≠ s.tail →
      exec .consumeTail s = .next { s with tail := nextTail s, outputs := okResp s 0 :: s.outputs })

/-- R88. -/
def Obligations.PopBackCopiesAndRetires : Prop :=
  decode 0xB0000000 = .ok .popBack ∧
  ∀ (s : State), s.bus.port = .C → s.phase = .live →
    (s.head = s.tail → exec .popBack s = .next (faulted s 8)) ∧
    (s.head ≠ s.tail → IndexRange s → StorageOk s → ∃ b,
      readBlock s.params s.storage s.tail.toNat = some b ∧
      exec .popBack s = .next { s with tail := nextTail s, outputs := dataResp s b :: s.outputs })

/-- R89. The answer is `allocAnswer`, and how a draw is used up is the model's bookkeeping (log 7). -/
def Obligations.ResizeReplacesTheStorage : Prop :=
  (∀ (n : Nat), n < 2 ^ 24 → decode (BitVec.ofNat 32 (0xC0000000 + n)) = .ok (.resize n)) ∧
  ∀ (s : State) (n : Nat), s.bus.port = .A → s.phase = .live → s.pend = 0 → n < 2 ^ 24 →
    (s.head ≠ s.tail → exec (.resize n) s = .next { s with outputs := failResp s 1 :: s.outputs }) ∧
    (s.head = s.tail → n = 0 → exec (.resize n) s = .next { s with
      cap := 0, head := 0, tail := 0, storage := { size := 0, fill := .fresh, cells := [] }, origin := .none
      outputs := okResp s 0 :: (freeEvents s.origin ++ s.outputs) }) ∧
    (s.head = s.tail → n ≠ 0 → allocAnswer s n = none → exec (.resize n) s = .next { s with
      allocAnswers := s.allocAnswers.tail, draws := s.draws + 1, outputs := failResp s 2 :: s.outputs }) ∧
    (∀ (h : Handle), s.head = s.tail → n ≠ 0 → allocAnswer s n = some h → ∃ m, m.size = n ∧ m.wf s.params = true ∧
      (∀ (slot : Nat), readBlock s.params m slot = if slot < n then some s.params.defaultBlock else none) ∧
      exec (.resize n) s = .next { s with
        cap := BitVec.ofNat 24 n, head := 0, tail := 0, storage := m, origin := .allocated h
        allocAnswers := s.allocAnswers.tail, draws := s.draws + 1
        outputs := okResp s 0 :: (freeEvents s.origin ++ s.outputs) })

/-- R90. The contents of the buffer are what the outside gives, or free values (log 8). -/
def Obligations.ProvideTakesTheBuffer : Prop :=
  (∀ (n : Nat), n < 2 ^ 24 → decode (BitVec.ofNat 32 (0xD0000000 + n)) = .ok (.provide n)) ∧
  ∀ (s : State) (n : Nat), s.bus.port = .A → s.phase = .live → s.pend = 0 → n < 2 ^ 24 →
    (s.bus.cmd.arg = 0 ∨ n = 0 → exec (.provide n) s = .next { s with outputs := failResp s 3 :: s.outputs }) ∧
    (s.bus.cmd.arg ≠ 0 → n ≠ 0 → s.head ≠ s.tail →
      exec (.provide n) s = .next { s with outputs := failResp s 1 :: s.outputs }) ∧
    (s.bus.cmd.arg ≠ 0 → n ≠ 0 → s.head = s.tail → ∃ m, m.size = n ∧ m.wf s.params = true ∧
      (∀ (slot : Nat) (b : Block), slot < n → (s.bufAnswers.headD [])[slot]? = some b →
        readBlock s.params m slot = some (fitBlock s.params b)) ∧
      exec (.provide n) s = .next { s with
        cap := BitVec.ofNat 24 n, head := 0, tail := 0, storage := m, origin := .provided s.bus.cmd.arg
        bufAnswers := s.bufAnswers.tail, draws := s.draws + 1
        outputs := okResp s 0 :: (freeEvents s.origin ++ s.outputs) })

/-- R48, R92: the checks of the access in their order, then the read. -/
def Obligations.SlotRdReadsOneWord : Prop :=
  (∀ (slot : Nat) w, slot < 2 ^ 24 → w < 16 →
    decode (BitVec.ofNat 32 (0xE0000000 + w * 2 ^ 24 + slot)) = .ok (.slotRd slot w)) ∧
  ∀ (s : State) (slot : Nat) w, s.bus.port ∈ [Port.P, Port.C] → s.phase = .live →
    (¬InSlotSpace s slot w → exec (.slotRd slot w) s = .next (faulted s 7)) ∧
    (InSlotSpace s slot w → s.bus.port = .C → s.head = s.tail → exec (.slotRd slot w) s = .next (faulted s 8)) ∧
    (InSlotSpace s slot w → ¬(s.bus.port = .C ∧ s.head = s.tail) → ¬OwnSlot s slot →
      exec (.slotRd slot w) s = .next (faulted s 9)) ∧
    (ParamsOk s → StorageOk s → InSlotSpace s slot w → OwnSlot s slot → ∃ v,
      readWord s.params s.storage slot w = some v ∧
      exec (.slotRd slot w) s = .next { s with
        outputs := dataResp s (v :: List.replicate (s.params.blockWords - 1) 0) :: s.outputs })

/-- R48, R93: the checks of the access in their order, then the write; `v` is what `DATA_IN[0]` carries. -/
def Obligations.SlotWrWritesOneWord : Prop :=
  (∀ (slot : Nat) w, slot < 2 ^ 24 → w < 16 →
    decode (BitVec.ofNat 32 (0xF0000000 + w * 2 ^ 24 + slot)) = .ok (.slotWr slot w)) ∧
  ∀ (s : State) (slot : Nat) w, s.bus.port ∈ [Port.P, Port.C] → s.phase = .live →
    (¬InSlotSpace s slot w → exec (.slotWr slot w) s = .next (faulted s 7)) ∧
    (InSlotSpace s slot w → s.bus.port = .C → s.head = s.tail → exec (.slotWr slot w) s = .next (faulted s 8)) ∧
    (InSlotSpace s slot w → ¬(s.bus.port = .C ∧ s.head = s.tail) → ¬OwnSlot s slot →
      exec (.slotWr slot w) s = .next (faulted s 9)) ∧
    (ParamsOk s → StorageOk s → InSlotSpace s slot w → OwnSlot s slot → ∃ m v,
      m.size = s.storage.size ∧ m.wf s.params = true ∧
      (∀ v0 rest, s.bus.cmd.dataIn = v0 :: rest → v0 < 2 ^ s.params.wordBits → v = v0) ∧
      (∀ (slot' w' : Nat), readWord s.params m slot' w' =
        if slot' = slot ∧ w' = w then some v else readWord s.params s.storage slot' w') ∧
      exec (.slotWr slot w) s = .next { s with storage := m, outputs := okResp s 0 :: s.outputs })

/-- Where a meaning stops by name (logs 10 and 11): a count no word encodes (U13), and, only in a state that breaks R25 or
R37, a slot the storage does not have. -/
def Obligations.StopsByName : Prop :=
  (∀ (s : State) (n : Nat), 2 ^ 24 ≤ n →
    (Accepted (.ctorn n) s → exec (.ctorn n) s = .refused .capacityTooLarge) ∧
    (Accepted (.resize n) s → exec (.resize n) s = .refused .capacityTooLarge) ∧
    (Accepted (.provide n) s → exec (.provide n) s = .refused .capacityTooLarge)) ∧
  (∀ (s : State), Accepted .pushFront s → s.cap ≠ 0 → s.storage.size ≤ s.head.toNat → exec .pushFront s = .fault .noSuchSlot) ∧
  (∀ (s : State), Accepted .popBack s → s.head ≠ s.tail → s.storage.size ≤ s.tail.toNat → exec .popBack s = .fault .noSuchSlot) ∧
  (∀ (s : State) (slot : Nat) w, s.phase = .live → InSlotSpace s slot w → OwnSlot s slot → s.storage.size ≤ slot →
    exec (.slotRd slot w) s = .fault .noSuchSlot ∧ exec (.slotWr slot w) s = .fault .noSuchSlot)

/-! ### Whole-machine rules -/

/-- R55, the producer's half: a step of port P leaves the queue of live blocks as it is, or, exactly when HEAD moves, appends
the block of the slot HEAD pointed at. -/
def Obligations.PublishingAppendsToTheQueue : Prop :=
  ∀ (s t : State) (rest : List Event), s.Inv → s.schedule = .step .P :: rest → step s = .next t →
    (t.head = s.head → liveBlocks t = liveBlocks s) ∧
    (t.head ≠ s.head → liveBlocks t = liveBlocks s ++ [slotBlock t.params t.storage s.head.toNat])

/-- R55, the consumer's half: a step of port C takes the oldest live block off the queue exactly when TAIL moves, and changes
no other than the oldest. -/
def Obligations.RetiringDropsTheOldestBlock : Prop :=
  ∀ (s t : State) (rest : List Event), s.Inv → s.schedule = .step .C :: rest → step s = .next t →
    (t.tail = s.tail → (liveBlocks t).length = (liveBlocks s).length ∧ (liveBlocks t).tail = (liveBlocks s).tail) ∧
    (t.tail ≠ s.tail → liveBlocks s = slotBlock s.params s.storage s.tail.toNat :: liveBlocks t)

/-- R55, R91: a step of port A, or a reset, leaves the queue as it is or empties it. -/
def Obligations.AdminKeepsOrEmptiesTheQueue : Prop :=
  ∀ (s t : State), s.Inv → nextEvent s ≠ .step .P → nextEvent s ≠ .step .C → step s = .next t →
    liveBlocks t = liveBlocks s ∨ (t.head = 0 ∧ t.tail = 0 ∧ liveBlocks t = [])

/-- R28 item 3, R83, R129: a produce held at capacity 1 stays held, whatever steps come, until a reset. -/
def Obligations.CapacityOneHoldsForEver : Prop :=
  ∀ (s t : State), s.Inv → s.cap = 1 → s.pend ≠ 0 → nextEvent s ≠ .reset → step s = .next t →
    t.cap = 1 ∧ t.pend = s.pend ∧ t.head = s.head ∧ ∀ r, t.outputs ≠ .response .P r :: s.outputs

/-- R85: while the producer is held, CAP, PHASE and ORIGIN stay, HEAD moves only in the completion, and a ring that is not
full stays so until then. -/
def Obligations.HeldProducerFreezesTheRing : Prop :=
  ∀ (s t : State), s.Inv → s.pend ≠ 0 → nextEvent s ≠ .reset → step s = .next t →
    t.cap = s.cap ∧ t.phase = s.phase ∧ t.origin = s.origin ∧
    ((t.pend = s.pend ∧ t.head = s.head ∧ (¬Full s → ¬Full t)) ∨ (t.pend = 0 ∧ t.head = nextHead s ∧ ¬Full s))

/-- R122, R123: no step of the producer empties a ring that is not empty, and no step of the consumer fills one that is not
full. -/
def Obligations.EachSidesViewIsStable : Prop :=
  ∀ (s t : State) (rest : List Event), s.Inv → step s = .next t →
    (s.schedule = .step .P :: rest → s.head ≠ s.tail → t.head ≠ t.tail) ∧
    (s.schedule = .step .C :: rest → ¬Full s → ¬Full t)

/-- R43: the queries leave the ring alone (but for a fault they raise), and asking again gives the same response. -/
def Obligations.QueriesHaveNoSideEffect : Prop :=
  ∀ (i : Instr) (s t u : State), (i = .isEmpty ∨ i = .isFull ∨ i = .headRef ∨ i = .tailRef ∨ ∃ slot w, i = .slotRd slot w) →
    exec i s = .next t → exec i t = .next u →
    { t.ring with fault := s.fault } = s.ring ∧ (t.fault = s.fault ∨ ∃ cause, t = faulted s cause) ∧
    u.outputs.head? = t.outputs.head?

/-- R96: which command fails with which reason, when, and what a failure leaves. -/
def Obligations.FailuresAndTheirReasons : Prop :=
  ∀ (i : Instr) (s t : State) r (old : List Output), exec i s = .next t → t.outputs = .response s.bus.port r :: old → t.outputs ≠ s.outputs → r.status = 1 →
    (r.code = 1 ∧ s.head ≠ s.tail ∧ ((∃ n, i = .resize n) ∨ ∃ n, i = .provide n) ∧ t.ring = s.ring) ∨
    (r.code = 2 ∧ (∃ n, i = .resize n ∧ n ≠ 0 ∧ allocAnswer s n = none) ∧ t.ring = s.ring) ∨
    (r.code = 2 ∧ (∃ n, i = .ctorn n ∧ n ≠ 0 ∧ allocAnswer s n = none) ∧
      t.ring = { s.ring with
        phase := .live, cap := 0, head := 0, tail := 0, storage := { size := 0, fill := .fresh, cells := [] }
        origin := .none }) ∨
    (r.code = 3 ∧ (∃ n, i = .provide n ∧ (s.bus.cmd.arg = 0 ∨ n = 0)) ∧ t.ring = s.ring)

/-- R38: the block pushed on an empty ring is the block popped from it, word for word. -/
def Obligations.PushedBlockIsPopped : Prop :=
  ∀ (s : State) (b : Block) (c : Command), s.Inv → s.phase = .live → s.head = s.tail → 2 ≤ s.cap.toNat → s.params.blockOk b = true →
    ∃ t, exec .pushFront { s with bus := { port := .P, cmd := { word := 0x80000000, arg := 0, dataIn := b } } } = .next t ∧
      ∃ u, exec .popBack { t with bus := { port := .C, cmd := c } } = .next u ∧
        u.outputs.head? = some (.response .C { status := 0, code := 0, value := 0, dataOut := b }) ∧ u.head = u.tail

/-- R74 item 1: PUSH_FRONT leaves the ring as its sequence does; a full ring holds either, each under its own opcode (R83,
R84). DATA_IN may have any words here: a block's own, or words that the model cuts and fills in the same way for both (log 2). -/
def Obligations.PushFrontEqualsItsSequence : Prop :=
  ∀ (s : State) (b : Block), s.Inv → s.phase = .live → s.cap ≠ 0 → s.pend = 0 → s.fault = 0 →
    ∃ t u,
      step (issuing .P [{ word := 0x80000000, arg := 0, dataIn := b }] s) = .next t ∧
      core.run (s.params.blockWords + 2) (issuing .P (pushSequence s b) s) = .next u ∧
      { t.ring with pend := 0 } = { u.ring with pend := 0 } ∧
      ((t.pend = 0 ∧ u.pend = 0) ∨ (t.pend = 0x8 ∧ u.pend = 0x7))

/-- R74 item 2: POP_BACK leaves the ring as its sequence does, and the words the sequence reads are those of its block. -/
def Obligations.PopBackEqualsItsSequence : Prop :=
  ∀ (s : State), s.Inv → s.phase = .live → s.head ≠ s.tail → s.fault = 0 →
    ∃ t u b,
      step (issuing .C [{ word := 0xB0000000, arg := 0, dataIn := [] }] s) = .next t ∧
      core.run (s.params.blockWords + 2) (issuing .C (popSequence s) s) = .next u ∧
      t.ring = u.ring ∧
      t.outputs = .response .C { status := 0, code := 0, value := 0, dataOut := b } :: s.outputs ∧
      b.length = s.params.blockWords ∧
      ∀ (k : Nat), k < s.params.blockWords → ∃ r,
        (u.outputs.take (s.params.blockWords + 2)).reverse[k + 1]? = some (.response .C r) ∧ r.status = 0 ∧
        r.dataOut[0]? = b[k]?

/-- R30, R31, R48: a slot read is answered OK exactly for the slot's owner, within the slot space. -/
def Obligations.OnlyTheOwnerReadsASlot : Prop :=
  ∀ (s : State) (slot : Nat) w, s.Inv → s.phase = .live → (s.bus.port = .P ∨ s.bus.port = .C) →
    ((∃ t r, exec (.slotRd slot w) s = .next t ∧ t.outputs = .response s.bus.port r :: s.outputs ∧ r.status = 0) ↔
      ownerOf s slot = some s.bus.port ∧ w < s.params.blockWords)

/-- R30: a step of the producer changes no slot but the head slot; a step of the consumer none but the tail slot, and none at
all while the ring is empty. -/
def Obligations.NeitherSideWritesTheOthersSlots : Prop :=
  ∀ (s t : State) (rest : List Event) (slot : Nat), s.Inv → step s = .next t →
    (s.schedule = .step .P :: rest → slot ≠ s.head.toNat →
      readBlock t.params t.storage slot = readBlock s.params s.storage slot) ∧
    (s.schedule = .step .C :: rest → (slot ≠ s.tail.toNat ∨ s.head = s.tail) →
      readBlock t.params t.storage slot = readBlock s.params s.storage slot)

/-- R83, R85, R28 item 2: on a full ring of capacity 2 or more, one CONSUME_TAIL lets the held produce complete. -/
def Obligations.ConsumingUnblocksTheHeldProduce : Prop :=
  ∀ (s : State) q (rest : List Event), s.Inv → s.pend ≠ 0 → s.fault = 0 → 2 ≤ s.cap.toNat → Full s →
    s.queueC = { word := 0xA0000000, arg := 0, dataIn := [] } :: q → s.schedule = .step .C :: .step .P :: rest →
    ∃ u, core.run 2 s = .next u ∧ u.pend = 0 ∧ u.head = nextHead s ∧ u.tail = nextTail s ∧
      u.outputs.head? = some (.response .P { status := 0, code := 0, value := 0, dataOut := zeros s })

/-- R75, R85, R98, R112: a port that is picked acts exactly when its step is enabled; every run is weakly fair, whatever the
scheduler's free choices are; so in every run a produce held on a ring that is not full is completed, unless a fault halts the
ring first or a reset comes. That a pick of a port with no enabled step changes nothing, and that the scheduler draws turns, is
the model's form of the scheduler (logs 4 and 16). -/
def Obligations.EveryRunIsWeaklyFair : Prop :=
  (∀ (s t : State) p, nextEvent s = .step p → step s = .next t →
    (Enabled p s → (p = .P ∧ s.pend ≠ 0 ∧ t.pend = 0) ∨ ∃ c, queueOf p s = c :: queueOf p t) ∧
    (¬Enabled p s → t.ring = s.ring ∧ t.outputs = s.outputs ∧ ∀ q, queueOf q t = queueOf q s)) ∧
  (∀ r : Nat → State, IsRun r → WeaklyFair r) ∧
  (∀ (r : Nat → State) k, IsRun r → (r k).Inv → (r k).pend ≠ 0 → ¬Full (r k) → (∀ j, k ≤ j → nextEvent (r j) ≠ .reset) →
    ∃ j, k ≤ j ∧
      ((r j).fault.getLsbD 0 = true ∨
        ((r j).pend = (r k).pend ∧ (r (j + 1)).pend = 0 ∧ (r (j + 1)).head = nextHead (r k) ∧
          (r (j + 1)).outputs =
            .response .P { status := 0, code := 0, value := 0, dataOut := zeros (r k) } :: (r j).outputs)))

/-- R112, R116: when no block is retired any more and no reset comes, a produce held on a full ring stays held and the run does
not end; and every run without resets comes to rest: it ends, a fault halts it, or the producer stays held on a full ring that no
one empties any more. That command streams are finite lists is the model's (log 3). -/
def Obligations.RunsEndHaltOrHang : Prop :=
  (∀ (r : Nat → State) k, IsRun r → (r k).Inv → (r k).pend ≠ 0 → Full (r k) →
    (∀ j, k ≤ j → nextEvent (r j) ≠ .reset ∧ (r j).tail = (r k).tail) →
    ∀ j, k ≤ j → (r j).pend = (r k).pend ∧ (r j).head = (r k).head ∧ Full (r j) ∧ ¬(r j).ended) ∧
  (∀ r : Nat → State, IsRun r → (∀ k, nextEvent (r k) ≠ .reset) → ∃ k, ∀ j, k ≤ j → AtRest (r j))

/-- R61: ARG is ignored by every command but PROVIDE, DATA_IN by every command but PUSH_FRONT and SLOT_WR. -/
def Obligations.UnusedChannelsAreIgnored : Prop :=
  ∀ (i : Instr) (s : State), ((∀ (n : Nat), i ≠ .provide n) → ∀ (a : Handle), exec i (withArg a s) = onNext (withArg a) (exec i s)) ∧
    ((i ≠ .pushFront ∧ ∀ (slot : Nat) w, i ≠ .slotWr slot w) → ∀ (d : List Word), exec i (withData d s) = onNext (withData d) (exec i s))
end

