-- ==== Sys2Proof/Laws/Encoding.lean ====
section
/-! SUPPORT. The fields of a word that is packed from its fields (spec/30_encoding.md R62). -/

namespace Sys2Proof

theorem packWord_toNat (op wd : BitVec 4) (n : BitVec 24) :
    (packWord op wd n).toNat = op.toNat * 2 ^ 28 + wd.toNat * 2 ^ 24 + n.toNat := by
  have h1 := op.isLt
  have h2 := wd.isLt
  have h3 := n.isLt
  simp only [packWord, BitVec.toNat_append]
  rw [← Nat.shiftLeft_add_eq_or_of_lt h2, ← Nat.shiftLeft_add_eq_or_of_lt h3]
  simp only [Nat.shiftLeft_eq]
  omega

theorem opField_toNat (w : CmdWord) : (opField w).toNat = w.toNat / 2 ^ 28 := by
  have := w.isLt
  simp only [opField, BitVec.extractLsb'_toNat, Nat.shiftRight_eq_div_pow]
  omega

theorem wField_toNat (w : CmdWord) : (wField w).toNat = w.toNat / 2 ^ 24 % 16 := by
  simp only [wField, BitVec.extractLsb'_toNat, Nat.shiftRight_eq_div_pow]

theorem nField_toNat (w : CmdWord) : (nField w).toNat = w.toNat % 2 ^ 24 := by
  simp only [nField, BitVec.extractLsb'_toNat, Nat.shiftRight_eq_div_pow]
  simp

theorem restField_toNat (w : CmdWord) : (restField w).toNat = w.toNat % 2 ^ 28 := by
  simp only [restField, BitVec.extractLsb'_toNat, Nat.shiftRight_eq_div_pow]
  simp

@[simp] theorem opField_packWord (op wd : BitVec 4) (n : BitVec 24) : opField (packWord op wd n) = op := by
  apply BitVec.eq_of_toNat_eq
  have h2 := wd.isLt
  have h3 := n.isLt
  rw [opField_toNat, packWord_toNat]
  omega

@[simp] theorem wField_packWord (op wd : BitVec 4) (n : BitVec 24) : wField (packWord op wd n) = wd := by
  apply BitVec.eq_of_toNat_eq
  have h2 := wd.isLt
  have h3 := n.isLt
  rw [wField_toNat, packWord_toNat]
  omega

@[simp] theorem nField_packWord (op wd : BitVec 4) (n : BitVec 24) : nField (packWord op wd n) = n := by
  apply BitVec.eq_of_toNat_eq
  have h3 := n.isLt
  rw [nField_toNat, packWord_toNat]
  omega

@[simp] theorem restField_packWord_zero (op : BitVec 4) : restField (packWord op 0#4 0#24) = 0#28 := by
  apply BitVec.eq_of_toNat_eq
  rw [restField_toNat, packWord_toNat]
  simp

/-- A word is its fields. -/
theorem packWord_fields (w : CmdWord) : packWord (opField w) (wField w) (nField w) = w := by
  apply BitVec.eq_of_toNat_eq
  rw [packWord_toNat, opField_toNat, wField_toNat, nField_toNat]
  have := w.isLt
  omega

/-- A format C word has no bit outside OP. -/
theorem packWord_op_of_rest {w : CmdWord} (h : restField w = 0) : packWord (opField w) 0 0 = w := by
  apply BitVec.eq_of_toNat_eq
  have hr := restField_toNat w
  rw [h] at hr
  rw [packWord_toNat, opField_toNat]
  have := w.isLt
  simp at hr ⊢
  omega

end Sys2Proof
end

