-- ==== Sys2Proof/Laws/Index.lean ====
section
/-! SUPPORT. Index arithmetic: `nextIdx` and `prevIdx` as natural numbers (spec/10_state.md R24). -/

namespace Sys2Proof.Machine

@[simp] theorem nextIdx_zero_cap (i : Idx) : nextIdx 0#24 i = 0#24 := by simp [nextIdx]

@[simp] theorem prevIdx_zero_cap (i : Idx) : prevIdx 0#24 i = 0#24 := by simp [prevIdx]

theorem cap_toNat_pos {cap : Idx} (h : cap ≠ 0) : 0 < cap.toNat := by
  rcases Nat.eq_zero_or_pos cap.toNat with h0 | h0
  · exact absurd (BitVec.eq_of_toNat_eq h0) h
  · exact h0

/-- A remainder by the capacity fits 24 bits: nothing is cut off. -/
theorem toNat_ofNat_mod {cap : Idx} (h : cap ≠ 0) (k : Nat) :
    (BitVec.ofNat 24 (k % cap.toNat)).toNat = k % cap.toNat := by
  have h1 := Nat.mod_lt k (cap_toNat_pos h)
  have h2 := cap.isLt
  simp only [BitVec.toNat_ofNat]
  exact Nat.mod_eq_of_lt (by omega)

theorem nextIdx_toNat {cap : Idx} (h : cap ≠ 0) (i : Idx) : (nextIdx cap i).toNat = (i.toNat + 1) % cap.toNat := by
  rw [nextIdx, if_neg h, toNat_ofNat_mod h]

theorem prevIdx_toNat {cap : Idx} (h : cap ≠ 0) (i : Idx) :
    (prevIdx cap i).toNat = (i.toNat + cap.toNat - 1) % cap.toNat := by
  rw [prevIdx, if_neg h, toNat_ofNat_mod h]

theorem nextIdx_lt {cap : Idx} (h : cap ≠ 0) (i : Idx) : (nextIdx cap i).toNat < cap.toNat := by
  rw [nextIdx_toNat h]; exact Nat.mod_lt _ (cap_toNat_pos h)

/-- Below the capacity, `next` adds one, or wraps to 0. -/
theorem nextIdx_toNat_of_lt {cap i : Idx} (hi : i.toNat < cap.toNat) :
    (nextIdx cap i).toNat = if i.toNat + 1 = cap.toNat then 0 else i.toNat + 1 := by
  have h : cap ≠ 0 := by rintro rfl; simp at hi
  rw [nextIdx_toNat h]
  split
  · next e => rw [e, Nat.mod_self]
  · exact Nat.mod_eq_of_lt (by omega)

theorem ringEmpty_iff {s : State} : isEmpty s = true ↔ s.head = s.tail := by simp [isEmpty]

theorem ringEmpty_eq_false {s : State} : isEmpty s = false ↔ s.head ≠ s.tail := by simp [isEmpty]

theorem ringFull_iff {s : State} : isFull s = true ↔ nextIdx s.cap s.head = s.tail := by simp [isFull]

theorem ringFull_eq_false {s : State} : isFull s = false ↔ nextIdx s.cap s.head ≠ s.tail := by simp [isFull]

end Sys2Proof.Machine
end

