-- ==== Sys2Proof/Laws/State.lean ====
section
/-! SUPPORT. One lemma per field of `State` and update: what each update of the shared operations does to each field. -/

namespace Sys2Proof.Machine

/-! `emit` -/

@[simp] theorem emit_phase (o : Output) (s : State) : (emit o s).phase = s.phase := rfl
@[simp] theorem emit_cap (o : Output) (s : State) : (emit o s).cap = s.cap := rfl
@[simp] theorem emit_head (o : Output) (s : State) : (emit o s).head = s.head := rfl
@[simp] theorem emit_tail (o : Output) (s : State) : (emit o s).tail = s.tail := rfl
@[simp] theorem emit_pend (o : Output) (s : State) : (emit o s).pend = s.pend := rfl
@[simp] theorem emit_fault (o : Output) (s : State) : (emit o s).fault = s.fault := rfl
@[simp] theorem emit_storage (o : Output) (s : State) : (emit o s).storage = s.storage := rfl
@[simp] theorem emit_origin (o : Output) (s : State) : (emit o s).origin = s.origin := rfl
@[simp] theorem emit_params (o : Output) (s : State) : (emit o s).params = s.params := rfl
@[simp] theorem emit_bus (o : Output) (s : State) : (emit o s).bus = s.bus := rfl
@[simp] theorem emit_queueP (o : Output) (s : State) : (emit o s).queueP = s.queueP := rfl
@[simp] theorem emit_queueC (o : Output) (s : State) : (emit o s).queueC = s.queueC := rfl
@[simp] theorem emit_queueA (o : Output) (s : State) : (emit o s).queueA = s.queueA := rfl
@[simp] theorem emit_schedule (o : Output) (s : State) : (emit o s).schedule = s.schedule := rfl
@[simp] theorem emit_turn (o : Output) (s : State) : (emit o s).turn = s.turn := rfl
@[simp] theorem emit_allocAnswers (o : Output) (s : State) : (emit o s).allocAnswers = s.allocAnswers := rfl
@[simp] theorem emit_bufAnswers (o : Output) (s : State) : (emit o s).bufAnswers = s.bufAnswers := rfl
@[simp] theorem emit_draws (o : Output) (s : State) : (emit o s).draws = s.draws := rfl
@[simp] theorem emit_outputs (o : Output) (s : State) : (emit o s).outputs = o :: s.outputs := rfl

/-! `respond` -/

@[simp] theorem respond_phase (r : Response) (s : State) : (respond r s).phase = s.phase := rfl
@[simp] theorem respond_cap (r : Response) (s : State) : (respond r s).cap = s.cap := rfl
@[simp] theorem respond_head (r : Response) (s : State) : (respond r s).head = s.head := rfl
@[simp] theorem respond_tail (r : Response) (s : State) : (respond r s).tail = s.tail := rfl
@[simp] theorem respond_pend (r : Response) (s : State) : (respond r s).pend = s.pend := rfl
@[simp] theorem respond_fault (r : Response) (s : State) : (respond r s).fault = s.fault := rfl
@[simp] theorem respond_storage (r : Response) (s : State) : (respond r s).storage = s.storage := rfl
@[simp] theorem respond_origin (r : Response) (s : State) : (respond r s).origin = s.origin := rfl
@[simp] theorem respond_params (r : Response) (s : State) : (respond r s).params = s.params := rfl
@[simp] theorem respond_bus (r : Response) (s : State) : (respond r s).bus = s.bus := rfl
@[simp] theorem respond_queueP (r : Response) (s : State) : (respond r s).queueP = s.queueP := rfl
@[simp] theorem respond_queueC (r : Response) (s : State) : (respond r s).queueC = s.queueC := rfl
@[simp] theorem respond_queueA (r : Response) (s : State) : (respond r s).queueA = s.queueA := rfl
@[simp] theorem respond_schedule (r : Response) (s : State) : (respond r s).schedule = s.schedule := rfl
@[simp] theorem respond_turn (r : Response) (s : State) : (respond r s).turn = s.turn := rfl
@[simp] theorem respond_allocAnswers (r : Response) (s : State) : (respond r s).allocAnswers = s.allocAnswers := rfl
@[simp] theorem respond_bufAnswers (r : Response) (s : State) : (respond r s).bufAnswers = s.bufAnswers := rfl
@[simp] theorem respond_draws (r : Response) (s : State) : (respond r s).draws = s.draws := rfl
@[simp] theorem respond_outputs (r : Response) (s : State) : (respond r s).outputs = .response s.bus.port r :: s.outputs := rfl

/-! `respondOk` -/

@[simp] theorem respondOk_phase (v : BitVec 32) (s : State) : (respondOk v s).phase = s.phase := rfl
@[simp] theorem respondOk_cap (v : BitVec 32) (s : State) : (respondOk v s).cap = s.cap := rfl
@[simp] theorem respondOk_head (v : BitVec 32) (s : State) : (respondOk v s).head = s.head := rfl
@[simp] theorem respondOk_tail (v : BitVec 32) (s : State) : (respondOk v s).tail = s.tail := rfl
@[simp] theorem respondOk_pend (v : BitVec 32) (s : State) : (respondOk v s).pend = s.pend := rfl
@[simp] theorem respondOk_fault (v : BitVec 32) (s : State) : (respondOk v s).fault = s.fault := rfl
@[simp] theorem respondOk_storage (v : BitVec 32) (s : State) : (respondOk v s).storage = s.storage := rfl
@[simp] theorem respondOk_origin (v : BitVec 32) (s : State) : (respondOk v s).origin = s.origin := rfl
@[simp] theorem respondOk_params (v : BitVec 32) (s : State) : (respondOk v s).params = s.params := rfl
@[simp] theorem respondOk_bus (v : BitVec 32) (s : State) : (respondOk v s).bus = s.bus := rfl
@[simp] theorem respondOk_queueP (v : BitVec 32) (s : State) : (respondOk v s).queueP = s.queueP := rfl
@[simp] theorem respondOk_queueC (v : BitVec 32) (s : State) : (respondOk v s).queueC = s.queueC := rfl
@[simp] theorem respondOk_queueA (v : BitVec 32) (s : State) : (respondOk v s).queueA = s.queueA := rfl
@[simp] theorem respondOk_schedule (v : BitVec 32) (s : State) : (respondOk v s).schedule = s.schedule := rfl
@[simp] theorem respondOk_turn (v : BitVec 32) (s : State) : (respondOk v s).turn = s.turn := rfl
@[simp] theorem respondOk_allocAnswers (v : BitVec 32) (s : State) : (respondOk v s).allocAnswers = s.allocAnswers := rfl
@[simp] theorem respondOk_bufAnswers (v : BitVec 32) (s : State) : (respondOk v s).bufAnswers = s.bufAnswers := rfl
@[simp] theorem respondOk_draws (v : BitVec 32) (s : State) : (respondOk v s).draws = s.draws := rfl
@[simp] theorem respondOk_outputs (v : BitVec 32) (s : State) : (respondOk v s).outputs = .response s.bus.port (okResponse s.params v) :: s.outputs := rfl

/-! `respondData` -/

@[simp] theorem respondData_phase (b : Block) (s : State) : (respondData b s).phase = s.phase := rfl
@[simp] theorem respondData_cap (b : Block) (s : State) : (respondData b s).cap = s.cap := rfl
@[simp] theorem respondData_head (b : Block) (s : State) : (respondData b s).head = s.head := rfl
@[simp] theorem respondData_tail (b : Block) (s : State) : (respondData b s).tail = s.tail := rfl
@[simp] theorem respondData_pend (b : Block) (s : State) : (respondData b s).pend = s.pend := rfl
@[simp] theorem respondData_fault (b : Block) (s : State) : (respondData b s).fault = s.fault := rfl
@[simp] theorem respondData_storage (b : Block) (s : State) : (respondData b s).storage = s.storage := rfl
@[simp] theorem respondData_origin (b : Block) (s : State) : (respondData b s).origin = s.origin := rfl
@[simp] theorem respondData_params (b : Block) (s : State) : (respondData b s).params = s.params := rfl
@[simp] theorem respondData_bus (b : Block) (s : State) : (respondData b s).bus = s.bus := rfl
@[simp] theorem respondData_queueP (b : Block) (s : State) : (respondData b s).queueP = s.queueP := rfl
@[simp] theorem respondData_queueC (b : Block) (s : State) : (respondData b s).queueC = s.queueC := rfl
@[simp] theorem respondData_queueA (b : Block) (s : State) : (respondData b s).queueA = s.queueA := rfl
@[simp] theorem respondData_schedule (b : Block) (s : State) : (respondData b s).schedule = s.schedule := rfl
@[simp] theorem respondData_turn (b : Block) (s : State) : (respondData b s).turn = s.turn := rfl
@[simp] theorem respondData_allocAnswers (b : Block) (s : State) : (respondData b s).allocAnswers = s.allocAnswers := rfl
@[simp] theorem respondData_bufAnswers (b : Block) (s : State) : (respondData b s).bufAnswers = s.bufAnswers := rfl
@[simp] theorem respondData_draws (b : Block) (s : State) : (respondData b s).draws = s.draws := rfl
@[simp] theorem respondData_outputs (b : Block) (s : State) : (respondData b s).outputs = .response s.bus.port { status := 0, code := 0, value := 0, dataOut := b } :: s.outputs := rfl

/-! `respondFail` -/

@[simp] theorem respondFail_phase (r : Reason) (s : State) : (respondFail r s).phase = s.phase := rfl
@[simp] theorem respondFail_cap (r : Reason) (s : State) : (respondFail r s).cap = s.cap := rfl
@[simp] theorem respondFail_head (r : Reason) (s : State) : (respondFail r s).head = s.head := rfl
@[simp] theorem respondFail_tail (r : Reason) (s : State) : (respondFail r s).tail = s.tail := rfl
@[simp] theorem respondFail_pend (r : Reason) (s : State) : (respondFail r s).pend = s.pend := rfl
@[simp] theorem respondFail_fault (r : Reason) (s : State) : (respondFail r s).fault = s.fault := rfl
@[simp] theorem respondFail_storage (r : Reason) (s : State) : (respondFail r s).storage = s.storage := rfl
@[simp] theorem respondFail_origin (r : Reason) (s : State) : (respondFail r s).origin = s.origin := rfl
@[simp] theorem respondFail_params (r : Reason) (s : State) : (respondFail r s).params = s.params := rfl
@[simp] theorem respondFail_bus (r : Reason) (s : State) : (respondFail r s).bus = s.bus := rfl
@[simp] theorem respondFail_queueP (r : Reason) (s : State) : (respondFail r s).queueP = s.queueP := rfl
@[simp] theorem respondFail_queueC (r : Reason) (s : State) : (respondFail r s).queueC = s.queueC := rfl
@[simp] theorem respondFail_queueA (r : Reason) (s : State) : (respondFail r s).queueA = s.queueA := rfl
@[simp] theorem respondFail_schedule (r : Reason) (s : State) : (respondFail r s).schedule = s.schedule := rfl
@[simp] theorem respondFail_turn (r : Reason) (s : State) : (respondFail r s).turn = s.turn := rfl
@[simp] theorem respondFail_allocAnswers (r : Reason) (s : State) : (respondFail r s).allocAnswers = s.allocAnswers := rfl
@[simp] theorem respondFail_bufAnswers (r : Reason) (s : State) : (respondFail r s).bufAnswers = s.bufAnswers := rfl
@[simp] theorem respondFail_draws (r : Reason) (s : State) : (respondFail r s).draws = s.draws := rfl
@[simp] theorem respondFail_outputs (r : Reason) (s : State) : (respondFail r s).outputs = .response s.bus.port { status := 1, code := reasonCode r, value := 0, dataOut := zeroBlock s.params } :: s.outputs := rfl

/-! `raiseFault` -/

@[simp] theorem raiseFault_phase (c : Cause) (s : State) : (raiseFault c s).phase = s.phase := rfl
@[simp] theorem raiseFault_cap (c : Cause) (s : State) : (raiseFault c s).cap = s.cap := rfl
@[simp] theorem raiseFault_head (c : Cause) (s : State) : (raiseFault c s).head = s.head := rfl
@[simp] theorem raiseFault_tail (c : Cause) (s : State) : (raiseFault c s).tail = s.tail := rfl
@[simp] theorem raiseFault_pend (c : Cause) (s : State) : (raiseFault c s).pend = s.pend := rfl
@[simp] theorem raiseFault_fault (c : Cause) (s : State) : (raiseFault c s).fault = packFault (causeCode c) (portCode s.bus.port) (opField s.bus.cmd.word) := rfl
@[simp] theorem raiseFault_storage (c : Cause) (s : State) : (raiseFault c s).storage = s.storage := rfl
@[simp] theorem raiseFault_origin (c : Cause) (s : State) : (raiseFault c s).origin = s.origin := rfl
@[simp] theorem raiseFault_params (c : Cause) (s : State) : (raiseFault c s).params = s.params := rfl
@[simp] theorem raiseFault_bus (c : Cause) (s : State) : (raiseFault c s).bus = s.bus := rfl
@[simp] theorem raiseFault_queueP (c : Cause) (s : State) : (raiseFault c s).queueP = s.queueP := rfl
@[simp] theorem raiseFault_queueC (c : Cause) (s : State) : (raiseFault c s).queueC = s.queueC := rfl
@[simp] theorem raiseFault_queueA (c : Cause) (s : State) : (raiseFault c s).queueA = s.queueA := rfl
@[simp] theorem raiseFault_schedule (c : Cause) (s : State) : (raiseFault c s).schedule = s.schedule := rfl
@[simp] theorem raiseFault_turn (c : Cause) (s : State) : (raiseFault c s).turn = s.turn := rfl
@[simp] theorem raiseFault_allocAnswers (c : Cause) (s : State) : (raiseFault c s).allocAnswers = s.allocAnswers := rfl
@[simp] theorem raiseFault_bufAnswers (c : Cause) (s : State) : (raiseFault c s).bufAnswers = s.bufAnswers := rfl
@[simp] theorem raiseFault_draws (c : Cause) (s : State) : (raiseFault c s).draws = s.draws := rfl
@[simp] theorem raiseFault_outputs (c : Cause) (s : State) : (raiseFault c s).outputs = .response s.bus.port { status := 2, code := causeCode c, value := 0, dataOut := zeroBlock s.params } :: s.outputs := rfl

/-! `hardwareReset` -/

@[simp] theorem hardwareReset_phase (s : State) : (hardwareReset s).phase = .unconstructed := rfl
@[simp] theorem hardwareReset_cap (s : State) : (hardwareReset s).cap = 0 := rfl
@[simp] theorem hardwareReset_head (s : State) : (hardwareReset s).head = 0 := rfl
@[simp] theorem hardwareReset_tail (s : State) : (hardwareReset s).tail = 0 := rfl
@[simp] theorem hardwareReset_pend (s : State) : (hardwareReset s).pend = 0 := rfl
@[simp] theorem hardwareReset_fault (s : State) : (hardwareReset s).fault = 0 := rfl
@[simp] theorem hardwareReset_storage (s : State) : (hardwareReset s).storage = Memory.empty := rfl
@[simp] theorem hardwareReset_origin (s : State) : (hardwareReset s).origin = .none := rfl
@[simp] theorem hardwareReset_params (s : State) : (hardwareReset s).params = s.params := rfl
@[simp] theorem hardwareReset_bus (s : State) : (hardwareReset s).bus = s.bus := rfl
@[simp] theorem hardwareReset_queueP (s : State) : (hardwareReset s).queueP = s.queueP := rfl
@[simp] theorem hardwareReset_queueC (s : State) : (hardwareReset s).queueC = s.queueC := rfl
@[simp] theorem hardwareReset_queueA (s : State) : (hardwareReset s).queueA = s.queueA := rfl
@[simp] theorem hardwareReset_schedule (s : State) : (hardwareReset s).schedule = s.schedule := rfl
@[simp] theorem hardwareReset_turn (s : State) : (hardwareReset s).turn = s.turn := rfl
@[simp] theorem hardwareReset_allocAnswers (s : State) : (hardwareReset s).allocAnswers = s.allocAnswers := rfl
@[simp] theorem hardwareReset_bufAnswers (s : State) : (hardwareReset s).bufAnswers = s.bufAnswers := rfl
@[simp] theorem hardwareReset_draws (s : State) : (hardwareReset s).draws = s.draws := rfl
@[simp] theorem hardwareReset_outputs (s : State) : (hardwareReset s).outputs = s.outputs := rfl

/-! `clearRing` -/

@[simp] theorem clearRing_phase (s : State) : (clearRing s).phase = s.phase := rfl
@[simp] theorem clearRing_cap (s : State) : (clearRing s).cap = 0 := rfl
@[simp] theorem clearRing_head (s : State) : (clearRing s).head = 0 := rfl
@[simp] theorem clearRing_tail (s : State) : (clearRing s).tail = 0 := rfl
@[simp] theorem clearRing_pend (s : State) : (clearRing s).pend = s.pend := rfl
@[simp] theorem clearRing_fault (s : State) : (clearRing s).fault = s.fault := rfl
@[simp] theorem clearRing_storage (s : State) : (clearRing s).storage = Memory.empty := rfl
@[simp] theorem clearRing_origin (s : State) : (clearRing s).origin = .none := rfl
@[simp] theorem clearRing_params (s : State) : (clearRing s).params = s.params := rfl
@[simp] theorem clearRing_bus (s : State) : (clearRing s).bus = s.bus := rfl
@[simp] theorem clearRing_queueP (s : State) : (clearRing s).queueP = s.queueP := rfl
@[simp] theorem clearRing_queueC (s : State) : (clearRing s).queueC = s.queueC := rfl
@[simp] theorem clearRing_queueA (s : State) : (clearRing s).queueA = s.queueA := rfl
@[simp] theorem clearRing_schedule (s : State) : (clearRing s).schedule = s.schedule := rfl
@[simp] theorem clearRing_turn (s : State) : (clearRing s).turn = s.turn := rfl
@[simp] theorem clearRing_allocAnswers (s : State) : (clearRing s).allocAnswers = s.allocAnswers := rfl
@[simp] theorem clearRing_bufAnswers (s : State) : (clearRing s).bufAnswers = s.bufAnswers := rfl
@[simp] theorem clearRing_draws (s : State) : (clearRing s).draws = s.draws := rfl
@[simp] theorem clearRing_outputs (s : State) : (clearRing s).outputs = s.outputs := rfl

/-! `constructEmpty` -/

@[simp] theorem constructEmpty_phase (s : State) : (constructEmpty s).phase = .live := rfl
@[simp] theorem constructEmpty_cap (s : State) : (constructEmpty s).cap = 0 := rfl
@[simp] theorem constructEmpty_head (s : State) : (constructEmpty s).head = 0 := rfl
@[simp] theorem constructEmpty_tail (s : State) : (constructEmpty s).tail = 0 := rfl
@[simp] theorem constructEmpty_pend (s : State) : (constructEmpty s).pend = s.pend := rfl
@[simp] theorem constructEmpty_fault (s : State) : (constructEmpty s).fault = s.fault := rfl
@[simp] theorem constructEmpty_storage (s : State) : (constructEmpty s).storage = Memory.empty := rfl
@[simp] theorem constructEmpty_origin (s : State) : (constructEmpty s).origin = .none := rfl
@[simp] theorem constructEmpty_params (s : State) : (constructEmpty s).params = s.params := rfl
@[simp] theorem constructEmpty_bus (s : State) : (constructEmpty s).bus = s.bus := rfl
@[simp] theorem constructEmpty_queueP (s : State) : (constructEmpty s).queueP = s.queueP := rfl
@[simp] theorem constructEmpty_queueC (s : State) : (constructEmpty s).queueC = s.queueC := rfl
@[simp] theorem constructEmpty_queueA (s : State) : (constructEmpty s).queueA = s.queueA := rfl
@[simp] theorem constructEmpty_schedule (s : State) : (constructEmpty s).schedule = s.schedule := rfl
@[simp] theorem constructEmpty_turn (s : State) : (constructEmpty s).turn = s.turn := rfl
@[simp] theorem constructEmpty_allocAnswers (s : State) : (constructEmpty s).allocAnswers = s.allocAnswers := rfl
@[simp] theorem constructEmpty_bufAnswers (s : State) : (constructEmpty s).bufAnswers = s.bufAnswers := rfl
@[simp] theorem constructEmpty_draws (s : State) : (constructEmpty s).draws = s.draws := rfl
@[simp] theorem constructEmpty_outputs (s : State) : (constructEmpty s).outputs = s.outputs := rfl

/-! `installStorage` -/

@[simp] theorem installStorage_phase (n : Nat) (f : Fill) (o : Origin) (s : State) : (installStorage n f o s).phase = s.phase := rfl
@[simp] theorem installStorage_cap (n : Nat) (f : Fill) (o : Origin) (s : State) : (installStorage n f o s).cap = BitVec.ofNat 24 n := rfl
@[simp] theorem installStorage_head (n : Nat) (f : Fill) (o : Origin) (s : State) : (installStorage n f o s).head = 0 := rfl
@[simp] theorem installStorage_tail (n : Nat) (f : Fill) (o : Origin) (s : State) : (installStorage n f o s).tail = 0 := rfl
@[simp] theorem installStorage_pend (n : Nat) (f : Fill) (o : Origin) (s : State) : (installStorage n f o s).pend = s.pend := rfl
@[simp] theorem installStorage_fault (n : Nat) (f : Fill) (o : Origin) (s : State) : (installStorage n f o s).fault = s.fault := rfl
@[simp] theorem installStorage_storage (n : Nat) (f : Fill) (o : Origin) (s : State) : (installStorage n f o s).storage = { size := n, fill := f, cells := [] } := rfl
@[simp] theorem installStorage_origin (n : Nat) (f : Fill) (o : Origin) (s : State) : (installStorage n f o s).origin = o := rfl
@[simp] theorem installStorage_params (n : Nat) (f : Fill) (o : Origin) (s : State) : (installStorage n f o s).params = s.params := rfl
@[simp] theorem installStorage_bus (n : Nat) (f : Fill) (o : Origin) (s : State) : (installStorage n f o s).bus = s.bus := rfl
@[simp] theorem installStorage_queueP (n : Nat) (f : Fill) (o : Origin) (s : State) : (installStorage n f o s).queueP = s.queueP := rfl
@[simp] theorem installStorage_queueC (n : Nat) (f : Fill) (o : Origin) (s : State) : (installStorage n f o s).queueC = s.queueC := rfl
@[simp] theorem installStorage_queueA (n : Nat) (f : Fill) (o : Origin) (s : State) : (installStorage n f o s).queueA = s.queueA := rfl
@[simp] theorem installStorage_schedule (n : Nat) (f : Fill) (o : Origin) (s : State) : (installStorage n f o s).schedule = s.schedule := rfl
@[simp] theorem installStorage_turn (n : Nat) (f : Fill) (o : Origin) (s : State) : (installStorage n f o s).turn = s.turn := rfl
@[simp] theorem installStorage_allocAnswers (n : Nat) (f : Fill) (o : Origin) (s : State) : (installStorage n f o s).allocAnswers = s.allocAnswers := rfl
@[simp] theorem installStorage_bufAnswers (n : Nat) (f : Fill) (o : Origin) (s : State) : (installStorage n f o s).bufAnswers = s.bufAnswers := rfl
@[simp] theorem installStorage_draws (n : Nat) (f : Fill) (o : Origin) (s : State) : (installStorage n f o s).draws = s.draws := rfl
@[simp] theorem installStorage_outputs (n : Nat) (f : Fill) (o : Origin) (s : State) : (installStorage n f o s).outputs = s.outputs := rfl

/-! `afterAlloc` -/

@[simp] theorem afterAlloc_phase (s : State) : (afterAlloc s).phase = s.phase := rfl
@[simp] theorem afterAlloc_cap (s : State) : (afterAlloc s).cap = s.cap := rfl
@[simp] theorem afterAlloc_head (s : State) : (afterAlloc s).head = s.head := rfl
@[simp] theorem afterAlloc_tail (s : State) : (afterAlloc s).tail = s.tail := rfl
@[simp] theorem afterAlloc_pend (s : State) : (afterAlloc s).pend = s.pend := rfl
@[simp] theorem afterAlloc_fault (s : State) : (afterAlloc s).fault = s.fault := rfl
@[simp] theorem afterAlloc_storage (s : State) : (afterAlloc s).storage = s.storage := rfl
@[simp] theorem afterAlloc_origin (s : State) : (afterAlloc s).origin = s.origin := rfl
@[simp] theorem afterAlloc_params (s : State) : (afterAlloc s).params = s.params := rfl
@[simp] theorem afterAlloc_bus (s : State) : (afterAlloc s).bus = s.bus := rfl
@[simp] theorem afterAlloc_queueP (s : State) : (afterAlloc s).queueP = s.queueP := rfl
@[simp] theorem afterAlloc_queueC (s : State) : (afterAlloc s).queueC = s.queueC := rfl
@[simp] theorem afterAlloc_queueA (s : State) : (afterAlloc s).queueA = s.queueA := rfl
@[simp] theorem afterAlloc_schedule (s : State) : (afterAlloc s).schedule = s.schedule := rfl
@[simp] theorem afterAlloc_turn (s : State) : (afterAlloc s).turn = s.turn := rfl
@[simp] theorem afterAlloc_allocAnswers (s : State) : (afterAlloc s).allocAnswers = s.allocAnswers.tail := rfl
@[simp] theorem afterAlloc_bufAnswers (s : State) : (afterAlloc s).bufAnswers = s.bufAnswers := rfl
@[simp] theorem afterAlloc_draws (s : State) : (afterAlloc s).draws = s.draws + 1 := rfl
@[simp] theorem afterAlloc_outputs (s : State) : (afterAlloc s).outputs = s.outputs := rfl

/-! `afterProvide` -/

@[simp] theorem afterProvide_phase (s : State) : (afterProvide s).phase = s.phase := rfl
@[simp] theorem afterProvide_cap (s : State) : (afterProvide s).cap = s.cap := rfl
@[simp] theorem afterProvide_head (s : State) : (afterProvide s).head = s.head := rfl
@[simp] theorem afterProvide_tail (s : State) : (afterProvide s).tail = s.tail := rfl
@[simp] theorem afterProvide_pend (s : State) : (afterProvide s).pend = s.pend := rfl
@[simp] theorem afterProvide_fault (s : State) : (afterProvide s).fault = s.fault := rfl
@[simp] theorem afterProvide_storage (s : State) : (afterProvide s).storage = s.storage := rfl
@[simp] theorem afterProvide_origin (s : State) : (afterProvide s).origin = s.origin := rfl
@[simp] theorem afterProvide_params (s : State) : (afterProvide s).params = s.params := rfl
@[simp] theorem afterProvide_bus (s : State) : (afterProvide s).bus = s.bus := rfl
@[simp] theorem afterProvide_queueP (s : State) : (afterProvide s).queueP = s.queueP := rfl
@[simp] theorem afterProvide_queueC (s : State) : (afterProvide s).queueC = s.queueC := rfl
@[simp] theorem afterProvide_queueA (s : State) : (afterProvide s).queueA = s.queueA := rfl
@[simp] theorem afterProvide_schedule (s : State) : (afterProvide s).schedule = s.schedule := rfl
@[simp] theorem afterProvide_turn (s : State) : (afterProvide s).turn = s.turn := rfl
@[simp] theorem afterProvide_allocAnswers (s : State) : (afterProvide s).allocAnswers = s.allocAnswers := rfl
@[simp] theorem afterProvide_bufAnswers (s : State) : (afterProvide s).bufAnswers = s.bufAnswers.tail := rfl
@[simp] theorem afterProvide_draws (s : State) : (afterProvide s).draws = s.draws + 1 := rfl
@[simp] theorem afterProvide_outputs (s : State) : (afterProvide s).outputs = s.outputs := rfl

/-! `retire` -/

@[simp] theorem retire_phase (s : State) : (retire s).phase = s.phase := rfl
@[simp] theorem retire_cap (s : State) : (retire s).cap = s.cap := rfl
@[simp] theorem retire_head (s : State) : (retire s).head = s.head := rfl
@[simp] theorem retire_tail (s : State) : (retire s).tail = nextIdx s.cap s.tail := rfl
@[simp] theorem retire_pend (s : State) : (retire s).pend = s.pend := rfl
@[simp] theorem retire_fault (s : State) : (retire s).fault = s.fault := rfl
@[simp] theorem retire_storage (s : State) : (retire s).storage = s.storage := rfl
@[simp] theorem retire_origin (s : State) : (retire s).origin = s.origin := rfl
@[simp] theorem retire_params (s : State) : (retire s).params = s.params := rfl
@[simp] theorem retire_bus (s : State) : (retire s).bus = s.bus := rfl
@[simp] theorem retire_queueP (s : State) : (retire s).queueP = s.queueP := rfl
@[simp] theorem retire_queueC (s : State) : (retire s).queueC = s.queueC := rfl
@[simp] theorem retire_queueA (s : State) : (retire s).queueA = s.queueA := rfl
@[simp] theorem retire_schedule (s : State) : (retire s).schedule = s.schedule := rfl
@[simp] theorem retire_turn (s : State) : (retire s).turn = s.turn := rfl
@[simp] theorem retire_allocAnswers (s : State) : (retire s).allocAnswers = s.allocAnswers := rfl
@[simp] theorem retire_bufAnswers (s : State) : (retire s).bufAnswers = s.bufAnswers := rfl
@[simp] theorem retire_draws (s : State) : (retire s).draws = s.draws := rfl
@[simp] theorem retire_outputs (s : State) : (retire s).outputs = s.outputs := rfl

/-! `completeHeld` -/

@[simp] theorem completeHeld_phase (s : State) : (completeHeld s).phase = s.phase := rfl
@[simp] theorem completeHeld_cap (s : State) : (completeHeld s).cap = s.cap := rfl
@[simp] theorem completeHeld_head (s : State) : (completeHeld s).head = nextIdx s.cap s.head := rfl
@[simp] theorem completeHeld_tail (s : State) : (completeHeld s).tail = s.tail := rfl
@[simp] theorem completeHeld_pend (s : State) : (completeHeld s).pend = 0 := rfl
@[simp] theorem completeHeld_fault (s : State) : (completeHeld s).fault = s.fault := rfl
@[simp] theorem completeHeld_storage (s : State) : (completeHeld s).storage = s.storage := rfl
@[simp] theorem completeHeld_origin (s : State) : (completeHeld s).origin = s.origin := rfl
@[simp] theorem completeHeld_params (s : State) : (completeHeld s).params = s.params := rfl
@[simp] theorem completeHeld_bus (s : State) : (completeHeld s).bus = s.bus := rfl
@[simp] theorem completeHeld_queueP (s : State) : (completeHeld s).queueP = s.queueP := rfl
@[simp] theorem completeHeld_queueC (s : State) : (completeHeld s).queueC = s.queueC := rfl
@[simp] theorem completeHeld_queueA (s : State) : (completeHeld s).queueA = s.queueA := rfl
@[simp] theorem completeHeld_schedule (s : State) : (completeHeld s).schedule = s.schedule := rfl
@[simp] theorem completeHeld_turn (s : State) : (completeHeld s).turn = s.turn := rfl
@[simp] theorem completeHeld_allocAnswers (s : State) : (completeHeld s).allocAnswers = s.allocAnswers := rfl
@[simp] theorem completeHeld_bufAnswers (s : State) : (completeHeld s).bufAnswers = s.bufAnswers := rfl
@[simp] theorem completeHeld_draws (s : State) : (completeHeld s).draws = s.draws := rfl
@[simp] theorem completeHeld_outputs (s : State) : (completeHeld s).outputs = .response .P (okResponse s.params 0) :: s.outputs := rfl

/-! `freeOwned` -/

@[simp] theorem freeOwned_phase (o : Origin) (s : State) : (freeOwned o s).phase = s.phase := by cases o <;> rfl
@[simp] theorem freeOwned_cap (o : Origin) (s : State) : (freeOwned o s).cap = s.cap := by cases o <;> rfl
@[simp] theorem freeOwned_head (o : Origin) (s : State) : (freeOwned o s).head = s.head := by cases o <;> rfl
@[simp] theorem freeOwned_tail (o : Origin) (s : State) : (freeOwned o s).tail = s.tail := by cases o <;> rfl
@[simp] theorem freeOwned_pend (o : Origin) (s : State) : (freeOwned o s).pend = s.pend := by cases o <;> rfl
@[simp] theorem freeOwned_fault (o : Origin) (s : State) : (freeOwned o s).fault = s.fault := by cases o <;> rfl
@[simp] theorem freeOwned_storage (o : Origin) (s : State) : (freeOwned o s).storage = s.storage := by cases o <;> rfl
@[simp] theorem freeOwned_origin (o : Origin) (s : State) : (freeOwned o s).origin = s.origin := by cases o <;> rfl
@[simp] theorem freeOwned_params (o : Origin) (s : State) : (freeOwned o s).params = s.params := by cases o <;> rfl
@[simp] theorem freeOwned_bus (o : Origin) (s : State) : (freeOwned o s).bus = s.bus := by cases o <;> rfl
@[simp] theorem freeOwned_queueP (o : Origin) (s : State) : (freeOwned o s).queueP = s.queueP := by cases o <;> rfl
@[simp] theorem freeOwned_queueC (o : Origin) (s : State) : (freeOwned o s).queueC = s.queueC := by cases o <;> rfl
@[simp] theorem freeOwned_queueA (o : Origin) (s : State) : (freeOwned o s).queueA = s.queueA := by cases o <;> rfl
@[simp] theorem freeOwned_schedule (o : Origin) (s : State) : (freeOwned o s).schedule = s.schedule := by cases o <;> rfl
@[simp] theorem freeOwned_turn (o : Origin) (s : State) : (freeOwned o s).turn = s.turn := by cases o <;> rfl
@[simp] theorem freeOwned_allocAnswers (o : Origin) (s : State) : (freeOwned o s).allocAnswers = s.allocAnswers := by cases o <;> rfl
@[simp] theorem freeOwned_bufAnswers (o : Origin) (s : State) : (freeOwned o s).bufAnswers = s.bufAnswers := by cases o <;> rfl
@[simp] theorem freeOwned_draws (o : Origin) (s : State) : (freeOwned o s).draws = s.draws := by cases o <;> rfl
@[simp] theorem freeOwned_outputs (o : Origin) (s : State) :
    (freeOwned o s).outputs = ((ownedHandle o).map Output.free).toList ++ s.outputs := by
  cases o <;> rfl

/-! `setQueue` and `accept` -/

@[simp] theorem setQueue_phase (p : Port) (q : List Command) (s : State) : (setQueue p q s).phase = s.phase := by cases p <;> rfl
@[simp] theorem setQueue_cap (p : Port) (q : List Command) (s : State) : (setQueue p q s).cap = s.cap := by cases p <;> rfl
@[simp] theorem setQueue_head (p : Port) (q : List Command) (s : State) : (setQueue p q s).head = s.head := by cases p <;> rfl
@[simp] theorem setQueue_tail (p : Port) (q : List Command) (s : State) : (setQueue p q s).tail = s.tail := by cases p <;> rfl
@[simp] theorem setQueue_pend (p : Port) (q : List Command) (s : State) : (setQueue p q s).pend = s.pend := by cases p <;> rfl
@[simp] theorem setQueue_fault (p : Port) (q : List Command) (s : State) : (setQueue p q s).fault = s.fault := by cases p <;> rfl
@[simp] theorem setQueue_storage (p : Port) (q : List Command) (s : State) : (setQueue p q s).storage = s.storage := by cases p <;> rfl
@[simp] theorem setQueue_origin (p : Port) (q : List Command) (s : State) : (setQueue p q s).origin = s.origin := by cases p <;> rfl
@[simp] theorem setQueue_params (p : Port) (q : List Command) (s : State) : (setQueue p q s).params = s.params := by cases p <;> rfl
@[simp] theorem setQueue_bus (p : Port) (q : List Command) (s : State) : (setQueue p q s).bus = s.bus := by cases p <;> rfl
@[simp] theorem setQueue_schedule (p : Port) (q : List Command) (s : State) : (setQueue p q s).schedule = s.schedule := by cases p <;> rfl
@[simp] theorem setQueue_turn (p : Port) (q : List Command) (s : State) : (setQueue p q s).turn = s.turn := by cases p <;> rfl
@[simp] theorem setQueue_allocAnswers (p : Port) (q : List Command) (s : State) : (setQueue p q s).allocAnswers = s.allocAnswers := by cases p <;> rfl
@[simp] theorem setQueue_bufAnswers (p : Port) (q : List Command) (s : State) : (setQueue p q s).bufAnswers = s.bufAnswers := by cases p <;> rfl
@[simp] theorem setQueue_draws (p : Port) (q : List Command) (s : State) : (setQueue p q s).draws = s.draws := by cases p <;> rfl
@[simp] theorem setQueue_outputs (p : Port) (q : List Command) (s : State) : (setQueue p q s).outputs = s.outputs := by cases p <;> rfl
@[simp] theorem accept_phase (p : Port) (c : Command) (q : List Command) (s : State) : (accept p c q s).phase = s.phase := by cases p <;> rfl
@[simp] theorem accept_cap (p : Port) (c : Command) (q : List Command) (s : State) : (accept p c q s).cap = s.cap := by cases p <;> rfl
@[simp] theorem accept_head (p : Port) (c : Command) (q : List Command) (s : State) : (accept p c q s).head = s.head := by cases p <;> rfl
@[simp] theorem accept_tail (p : Port) (c : Command) (q : List Command) (s : State) : (accept p c q s).tail = s.tail := by cases p <;> rfl
@[simp] theorem accept_pend (p : Port) (c : Command) (q : List Command) (s : State) : (accept p c q s).pend = s.pend := by cases p <;> rfl
@[simp] theorem accept_fault (p : Port) (c : Command) (q : List Command) (s : State) : (accept p c q s).fault = s.fault := by cases p <;> rfl
@[simp] theorem accept_storage (p : Port) (c : Command) (q : List Command) (s : State) : (accept p c q s).storage = s.storage := by cases p <;> rfl
@[simp] theorem accept_origin (p : Port) (c : Command) (q : List Command) (s : State) : (accept p c q s).origin = s.origin := by cases p <;> rfl
@[simp] theorem accept_params (p : Port) (c : Command) (q : List Command) (s : State) : (accept p c q s).params = s.params := by cases p <;> rfl
@[simp] theorem accept_bus (p : Port) (c : Command) (q : List Command) (s : State) :
    (accept p c q s).bus = { port := p, cmd := c } := rfl
@[simp] theorem accept_schedule (p : Port) (c : Command) (q : List Command) (s : State) : (accept p c q s).schedule = s.schedule := by cases p <;> rfl
@[simp] theorem accept_turn (p : Port) (c : Command) (q : List Command) (s : State) : (accept p c q s).turn = s.turn := by cases p <;> rfl
@[simp] theorem accept_allocAnswers (p : Port) (c : Command) (q : List Command) (s : State) : (accept p c q s).allocAnswers = s.allocAnswers := by cases p <;> rfl
@[simp] theorem accept_bufAnswers (p : Port) (c : Command) (q : List Command) (s : State) : (accept p c q s).bufAnswers = s.bufAnswers := by cases p <;> rfl
@[simp] theorem accept_draws (p : Port) (c : Command) (q : List Command) (s : State) : (accept p c q s).draws = s.draws := by cases p <;> rfl
@[simp] theorem accept_outputs (p : Port) (c : Command) (q : List Command) (s : State) : (accept p c q s).outputs = s.outputs := by cases p <;> rfl
@[simp] theorem queueOf_setQueue (p : Port) (q : List Command) (s : State) : queueOf p (setQueue p q s) = q := by cases p <;> rfl
@[simp] theorem queueOf_accept (p : Port) (c : Command) (q : List Command) (s : State) : queueOf p (accept p c q s) = q := by
  cases p <;> rfl

/-! `takeEvent` -/

@[simp] theorem takeEvent_phase (s : State) : (takeEvent s).phase = s.phase := rfl
@[simp] theorem takeEvent_cap (s : State) : (takeEvent s).cap = s.cap := rfl
@[simp] theorem takeEvent_head (s : State) : (takeEvent s).head = s.head := rfl
@[simp] theorem takeEvent_tail (s : State) : (takeEvent s).tail = s.tail := rfl
@[simp] theorem takeEvent_pend (s : State) : (takeEvent s).pend = s.pend := rfl
@[simp] theorem takeEvent_fault (s : State) : (takeEvent s).fault = s.fault := rfl
@[simp] theorem takeEvent_storage (s : State) : (takeEvent s).storage = s.storage := rfl
@[simp] theorem takeEvent_origin (s : State) : (takeEvent s).origin = s.origin := rfl
@[simp] theorem takeEvent_params (s : State) : (takeEvent s).params = s.params := rfl
@[simp] theorem takeEvent_bus (s : State) : (takeEvent s).bus = s.bus := rfl
@[simp] theorem takeEvent_queueP (s : State) : (takeEvent s).queueP = s.queueP := rfl
@[simp] theorem takeEvent_queueC (s : State) : (takeEvent s).queueC = s.queueC := rfl
@[simp] theorem takeEvent_queueA (s : State) : (takeEvent s).queueA = s.queueA := rfl
@[simp] theorem takeEvent_allocAnswers (s : State) : (takeEvent s).allocAnswers = s.allocAnswers := rfl
@[simp] theorem takeEvent_bufAnswers (s : State) : (takeEvent s).bufAnswers = s.bufAnswers := rfl
@[simp] theorem takeEvent_draws (s : State) : (takeEvent s).draws = s.draws := rfl
@[simp] theorem takeEvent_outputs (s : State) : (takeEvent s).outputs = s.outputs := rfl
@[simp] theorem takeEvent_schedule (s : State) : (takeEvent s).schedule = (upcoming s).tail := rfl
@[simp] theorem takeEvent_turn (s : State) : (takeEvent s).turn = if s.schedule = [] then s.turn + 1 else s.turn := rfl
@[simp] theorem queueOf_takeEvent (p : Port) (s : State) : queueOf p (takeEvent s) = queueOf p s := by cases p <;> rfl

/-! The ring's own state (R16) under the updates that leave it alone -/

@[simp] theorem emit_ring (o : Output) (s : State) : (emit o s).ring = s.ring := rfl
@[simp] theorem respond_ring (r : Response) (s : State) : (respond r s).ring = s.ring := rfl
@[simp] theorem respondOk_ring (v : BitVec 32) (s : State) : (respondOk v s).ring = s.ring := rfl
@[simp] theorem respondData_ring (b : Block) (s : State) : (respondData b s).ring = s.ring := rfl
@[simp] theorem respondFail_ring (r : Reason) (s : State) : (respondFail r s).ring = s.ring := rfl
@[simp] theorem afterAlloc_ring (s : State) : (afterAlloc s).ring = s.ring := rfl
@[simp] theorem afterProvide_ring (s : State) : (afterProvide s).ring = s.ring := rfl
@[simp] theorem freeOwned_ring (o : Origin) (s : State) : (freeOwned o s).ring = s.ring := by cases o <;> rfl
@[simp] theorem setQueue_ring (p : Port) (q : List Command) (s : State) : (setQueue p q s).ring = s.ring := by cases p <;> rfl
@[simp] theorem accept_ring (p : Port) (c : Command) (q : List Command) (s : State) : (accept p c q s).ring = s.ring := by
  cases p <;> rfl
@[simp] theorem raiseFault_ring (c : Cause) (s : State) :
    (raiseFault c s).ring =
      { s.ring with fault := packFault (causeCode c) (portCode s.bus.port) (opField s.bus.cmd.word) } := rfl
@[simp] theorem takeEvent_ring (s : State) : (takeEvent s).ring = s.ring := rfl
@[simp] theorem hardwareReset_ring (s : State) : (hardwareReset s).ring = State.reset.ring := rfl

end Sys2Proof.Machine
end

