-- ==== Sys2Proof/Laws/Ops.lean ====
section
/-! SUPPORT. One lemma for each shared operation that says everything it can do; proofs cite these instead of unfolding. -/

namespace Sys2Proof.Machine

/-! ### The prologue (R70) -/

theorem afterPrologue_of_none {i : Instr} {s : State} {body : Result} (h : prologueFault i s = none) :
    afterPrologue i s body = body := by simp [afterPrologue, h]

theorem afterPrologue_of_some {i : Instr} {s : State} {body : Result} {c : Cause} (h : prologueFault i s = some c) :
    afterPrologue i s body = .next (raiseFault c s) := by simp [afterPrologue, h]

/-- A prologue that ends in a next state took a fault, or ran the body. -/
theorem afterPrologue_next {i : Instr} {s t : State} {body : Result} (h : afterPrologue i s body = .next t) :
    (∃ c, prologueFault i s = some c ∧ t = raiseFault c s) ∨ (prologueFault i s = none ∧ body = .next t) := by
  cases hp : prologueFault i s with
  | none => exact .inr ⟨rfl, by rwa [afterPrologue_of_none hp] at h⟩
  | some c =>
    rw [afterPrologue_of_some hp] at h
    exact .inl ⟨c, rfl, (Host.Outcome.next.inj h).symm⟩

/-- When a command executes normally (R66, R70). -/
theorem prologueFault_eq_none {i : Instr} {s : State} :
    prologueFault i s = none ↔
      permitted i s.bus.port = true ∧ (constructs i = true → s.phase = .unconstructed) ∧
        (constructs i = false → s.phase = .live) ∧ (needsQuiescence i = true → s.pend = 0) := by
  cases hp : permitted i s.bus.port <;> cases hc : constructs i <;> cases hq : needsQuiescence i <;>
    cases hph : s.phase <;> simp_all [prologueFault]; (cases i <;> simp_all [constructs, needsQuiescence])

/-! ### Producing (R83, R84) -/

theorem publishOrHold_of_full {op : BitVec 4} {s : State} (h : isFull s = true) :
    publishOrHold op s = { s with pend := op } := by simp [publishOrHold, h]

theorem publishOrHold_of_not_full {op : BitVec 4} {s : State} (h : isFull s = false) :
    publishOrHold op s = respondOk 0 { s with head := nextIdx s.cap s.head } := by simp [publishOrHold, h]

/-! ### The allocator's answer (R50) -/

/-- A legal answer is `none`, or a handle other than 0 and other than the one the ring owns. -/
theorem allocLegal_iff {owned a : Option Handle} :
    allocLegal owned a = true ↔ ∀ h, a = some h → h ≠ 0 ∧ owned ≠ some h := by
  cases a <;> simp [allocLegal]

/-- The allocator's answer is the outside's next one where that is legal. -/
theorem allocAnswer_given {s : State} {n : Nat} {a : Option Handle} {rest : List (Option Handle)}
    (h : s.allocAnswers = a :: rest) (hl : allocLegal (ownedHandle s.origin) a = true) : allocAnswer s n = a := by
  simp [allocAnswer, h, hl]

/-! ### The scheduler (R102, R112) -/

/-- A schedule with an event left is followed. -/
theorem upcoming_of_cons {s : State} {e : Event} {rest : List Event} (h : s.schedule = e :: rest) :
    upcoming s = e :: rest := by simp only [upcoming, h]

/-- A schedule that has run out is followed by the scheduler's next turn. -/
theorem upcoming_of_nil {s : State} (h : s.schedule = []) : upcoming s = drawnTurn s.turn := by simp only [upcoming, h]

/-- There is always a next event. -/
theorem upcoming_eq (s : State) : upcoming s = nextEvent s :: (takeEvent s).schedule := by
  cases h : s.schedule with
  | cons e rest => simp [nextEvent, upcoming_of_cons h]
  | nil => cases hk : drawnTurn s.turn with
    | nil => simp [drawnTurn] at hk
    | cons e rest => simp [nextEvent, upcoming_of_nil h, hk]

theorem nextEvent_of_cons {s : State} {e : Event} {rest : List Event} (h : s.schedule = e :: rest) : nextEvent s = e := by
  simp [nextEvent, upcoming_of_cons h]

theorem takeEvent_of_cons {s : State} {e : Event} {rest : List Event} (h : s.schedule = e :: rest) :
    takeEvent s = { s with schedule := rest } := by simp [takeEvent, upcoming_of_cons h, h]

/-- Drawing the turn first changes nothing. -/
theorem upcoming_of_drawn {s t : State} (h : s.schedule = [])
    (ht : t = { s with schedule := drawnTurn s.turn, turn := s.turn + 1 }) :
    upcoming s = upcoming t ∧ takeEvent s = takeEvent t := by
  subst ht
  cases hk : drawnTurn s.turn with
  | nil => simp [drawnTurn] at hk
  | cons e rest => simp [takeEvent, upcoming, h, hk]

/-- A turn has no hardware reset in it. -/
theorem reset_not_mem_drawnTurn (k : Nat) : Event.reset ∉ drawnTurn k := by simp [drawnTurn]

/-- The port whose turn it is stands in the turn. -/
theorem fairPort_mem_drawnTurn (k : Nat) : Event.step (fairPort k) ∈ drawnTurn k := by simp [drawnTurn]

/-- Every port's turn comes again. -/
theorem exists_fairPort (p : Port) (k : Nat) : ∃ j, k ≤ j ∧ fairPort j = p := by
  cases p
  · exact ⟨3 * k, by omega, by simp [fairPort]⟩
  · exact ⟨3 * k + 1, by omega, by simp [fairPort, show (3 * k + 1) % 3 = 1 by omega]⟩
  · exact ⟨3 * k + 2, by omega, by simp [fairPort, show (3 * k + 2) % 3 = 2 by omega]⟩

/-! ### The step of a port -/

/-- Everything the step of a port can be: nothing, the completion of a held produce, or the next command of its stream. -/
theorem portStep_cases (p : Port) (s : State) :
    (portStep p s = .next s ∧
      (halted s = true ∨ (p = .P ∧ s.pend ≠ 0 ∧ isFull s = true) ∨ (¬(p = .P ∧ s.pend ≠ 0) ∧ queueOf p s = []))) ∨
    (portStep p s = .next (completeHeld s) ∧ halted s = false ∧ p = .P ∧ s.pend ≠ 0 ∧ isFull s = false) ∨
    (∃ c rest, queueOf p s = c :: rest ∧ halted s = false ∧ ¬(p = .P ∧ s.pend ≠ 0) ∧
      portStep p s = runBus (accept p c rest s)) := by
  cases hh : halted s with
  | true => simp [portStep, hh]
  | false =>
    by_cases hp : p = .P ∧ s.pend ≠ 0
    · have run : portStep p s = .next (if isFull s then s else completeHeld s) := by
        simp only [portStep, hh, Bool.false_eq_true, if_false, if_pos hp]
      cases hf : isFull s with
      | true => exact .inl ⟨by simp [run, hf], .inr (.inl ⟨hp.1, hp.2, rfl⟩)⟩
      | false => exact .inr (.inl ⟨by simp [run, hf], rfl, hp.1, hp.2, rfl⟩)
    · cases hq : queueOf p s with
      | nil => simp only [portStep, hh, hp, hq]; simp
      | cons c rest =>
        refine .inr (.inr ⟨c, rest, rfl, rfl, hp, ?_⟩)
        simp only [portStep, hh, hp, hq]; simp

/-- Everything a command on the bus can be: an illegal word's fault, or the execution of the decoded command (R70). -/
theorem runBus_cases (s : State) :
    (∃ e, decode s.bus.cmd.word = .error e ∧ runBus s = .next (raiseFault .illegalCommand s)) ∨
    (∃ i, decode s.bus.cmd.word = .ok i ∧ runBus s = exec i s) := by
  cases h : decode s.bus.cmd.word with
  | error e => exact .inl ⟨e, rfl, by simp [runBus, h]⟩
  | ok i => exact .inr ⟨i, rfl, by simp [runBus, h]⟩

end Sys2Proof.Machine
end

