-- ==== Sys2Proof/Laws/Exec.lean ====
section
/-! SUPPORT. Inversion: what it takes for each command, a port's step or the machine's step to answer a next state, and which
states those are. Proofs about every command cite these instead of unfolding the meanings. -/

namespace Sys2Proof.Machine

/-! ### The check of a slot operand (R48) -/

/-- When a slot access is permitted. -/
theorem slotAccessFault_eq_none {slot w : Nat} {s : State} :
    slotAccessFault slot w s = none ↔
      (s.cap ≠ 0 ∧ slot < s.cap.toNat ∧ w < s.params.blockWords) ∧ (s.bus.port = .P → slot = s.head.toNat) ∧
        (s.bus.port = .C → isEmpty s = false ∧ slot = s.tail.toNat) := by
  unfold slotAccessFault
  split
  · next h =>
    simp only [reduceCtorEq, false_iff, not_and_or]
    refine .inl ?_
    rcases h with h | h | h
    · exact .inl (not_not_intro h)
    · exact .inr (.inl (Nat.not_lt.mpr h))
    · exact .inr (.inr (Nat.not_lt.mpr h))
  · next h =>
    have hs : s.cap ≠ 0 ∧ slot < s.cap.toNat ∧ w < s.params.blockWords := by simpa only [not_or, not_le] using h
    cases s.bus.port <;> cases isEmpty s <;> simp only [hs, ne_eq, not_false_eq_true, and_self, true_and] <;> simp

/-! ### Each command: a fault is recorded, or the prologue passed and the body's own effect happened -/

/-- The step took a fault of the prologue or of the command's own checks. -/
abbrev TookFault (s t : State) : Prop := ∃ c, t = raiseFault c s

theorem execCtor0_next {s t : State} (h : execCtor0 s = .next t) :
    TookFault s t ∨ (prologueFault .ctor0 s = none ∧ t = respondOk 0 (constructEmpty s)) := by
  rcases afterPrologue_next h with ⟨c, -, rfl⟩ | ⟨hp, hb⟩
  · exact .inl ⟨c, rfl⟩
  · exact .inr ⟨hp, (Host.Outcome.next.inj hb).symm⟩

theorem execCtorn_next {n : Nat} {s t : State} (h : execCtorn n s = .next t) :
    TookFault s t ∨
      (prologueFault (.ctorn n) s = none ∧ n ≤ capMax ∧
        ((n = 0 ∧ t = respondOk 0 (constructEmpty s)) ∨
          (n ≠ 0 ∧ allocAnswer s n = none ∧ t = respondFail .alloc (constructEmpty (afterAlloc s))) ∨
          (n ≠ 0 ∧ ∃ h, allocAnswer s n = some h ∧
            t = respondOk 0 (installStorage n .fresh (.allocated h) { afterAlloc s with phase := .live })))) := by
  rcases afterPrologue_next h with ⟨c, -, rfl⟩ | ⟨hp, hb⟩
  · exact .inl ⟨c, rfl⟩
  · split at hb
    · cases hb
    · next hn =>
      have ht := (Host.Outcome.next.inj hb).symm
      refine .inr ⟨hp, Nat.le_of_not_lt hn, ?_⟩
      split at ht
      · next h0 => exact .inl ⟨h0, ht⟩
      · next h0 =>
        rw [constructN] at ht
        split at ht
        · next ha => exact .inr (.inl ⟨h0, ha, ht⟩)
        · next a ha => exact .inr (.inr ⟨h0, a, ha, ht⟩)

theorem execDtor_next {s t : State} (h : execDtor s = .next t) :
    TookFault s t ∨
      (prologueFault .dtor s = none ∧
        t = respondOk 0 (clearRing { freeOwned s.origin s with phase := .unconstructed })) := by
  rcases afterPrologue_next h with ⟨c, -, rfl⟩ | ⟨hp, hb⟩
  · exact .inl ⟨c, rfl⟩
  · exact .inr ⟨hp, (Host.Outcome.next.inj hb).symm⟩

theorem execIsEmpty_next {s t : State} (h : execIsEmpty s = .next t) :
    TookFault s t ∨ (prologueFault .isEmpty s = none ∧ t = respondOk (if isEmpty s then 1 else 0) s) := by
  rcases afterPrologue_next h with ⟨c, -, rfl⟩ | ⟨hp, hb⟩
  · exact .inl ⟨c, rfl⟩
  · exact .inr ⟨hp, (Host.Outcome.next.inj hb).symm⟩

theorem execIsFull_next {s t : State} (h : execIsFull s = .next t) :
    TookFault s t ∨ (prologueFault .isFull s = none ∧ t = respondOk (if isFull s then 1 else 0) s) := by
  rcases afterPrologue_next h with ⟨c, -, rfl⟩ | ⟨hp, hb⟩
  · exact .inl ⟨c, rfl⟩
  · exact .inr ⟨hp, (Host.Outcome.next.inj hb).symm⟩

theorem execHeadRef_next {s t : State} (h : execHeadRef s = .next t) :
    TookFault s t ∨ (prologueFault .headRef s = none ∧ s.cap ≠ 0 ∧ t = respondOk (s.head.setWidth 32) s) := by
  rcases afterPrologue_next h with ⟨c, -, rfl⟩ | ⟨hp, hb⟩
  · exact .inl ⟨c, rfl⟩
  · have ht := (Host.Outcome.next.inj hb).symm
    split at ht
    · exact .inl ⟨_, ht⟩
    · next hc => exact .inr ⟨hp, hc, ht⟩

theorem execProduceHead_next {s t : State} (h : execProduceHead s = .next t) :
    TookFault s t ∨ (prologueFault .produceHead s = none ∧ s.cap ≠ 0 ∧ t = publishOrHold 0x7 s) := by
  rcases afterPrologue_next h with ⟨c, -, rfl⟩ | ⟨hp, hb⟩
  · exact .inl ⟨c, rfl⟩
  · have ht := (Host.Outcome.next.inj hb).symm
    split at ht
    · exact .inl ⟨_, ht⟩
    · next hc => exact .inr ⟨hp, hc, ht⟩

theorem execPushFront_next {s t : State} (h : execPushFront s = .next t) :
    TookFault s t ∨
      (prologueFault .pushFront s = none ∧ s.cap ≠ 0 ∧ ∃ m,
        writeBlock s.params s.storage s.head.toNat (operandB s) = some m ∧
        t = publishOrHold 0x8 { s with storage := m }) := by
  rcases afterPrologue_next h with ⟨c, -, rfl⟩ | ⟨hp, hb⟩
  · exact .inl ⟨c, rfl⟩
  · split at hb
    · exact .inl ⟨_, (Host.Outcome.next.inj hb).symm⟩
    · next hc =>
      split at hb
      · cases hb
      · next m hm => exact .inr ⟨hp, hc, m, hm, (Host.Outcome.next.inj hb).symm⟩

theorem execTailRef_next {s t : State} (h : execTailRef s = .next t) :
    TookFault s t ∨
      (prologueFault .tailRef s = none ∧ isEmpty s = false ∧ t = respondOk (s.tail.setWidth 32) s) := by
  rcases afterPrologue_next h with ⟨c, -, rfl⟩ | ⟨hp, hb⟩
  · exact .inl ⟨c, rfl⟩
  · have ht := (Host.Outcome.next.inj hb).symm
    split at ht
    · exact .inl ⟨_, ht⟩
    · next he => exact .inr ⟨hp, Bool.eq_false_iff.mpr he, ht⟩

theorem execConsumeTail_next {s t : State} (h : execConsumeTail s = .next t) :
    TookFault s t ∨
      (prologueFault .consumeTail s = none ∧
        ((isEmpty s = true ∧ t = respondOk 0 s) ∨ (isEmpty s = false ∧ t = respondOk 0 (retire s)))) := by
  rcases afterPrologue_next h with ⟨c, -, rfl⟩ | ⟨hp, hb⟩
  · exact .inl ⟨c, rfl⟩
  · have ht := (Host.Outcome.next.inj hb).symm
    refine .inr ⟨hp, ?_⟩
    split at ht
    · next he => exact .inl ⟨he, ht⟩
    · next he => exact .inr ⟨Bool.eq_false_iff.mpr he, ht⟩

theorem execPopBack_next {s t : State} (h : execPopBack s = .next t) :
    TookFault s t ∨
      (prologueFault .popBack s = none ∧ isEmpty s = false ∧ ∃ b,
        readBlock s.params s.storage s.tail.toNat = some b ∧ t = respondData b (retire s)) := by
  rcases afterPrologue_next h with ⟨c, -, rfl⟩ | ⟨hp, hb⟩
  · exact .inl ⟨c, rfl⟩
  · split at hb
    · exact .inl ⟨_, (Host.Outcome.next.inj hb).symm⟩
    · next he =>
      split at hb
      · cases hb
      · next b hr => exact .inr ⟨hp, Bool.eq_false_iff.mpr he, b, hr, (Host.Outcome.next.inj hb).symm⟩

theorem execResize_next {n : Nat} {s t : State} (h : execResize n s = .next t) :
    TookFault s t ∨
      (prologueFault (.resize n) s = none ∧ n ≤ capMax ∧
        ((isEmpty s = false ∧ t = respondFail .nonempty s) ∨
          (isEmpty s = true ∧ n = 0 ∧ t = respondOk 0 (freeOwned s.origin (clearRing s))) ∨
          (isEmpty s = true ∧ n ≠ 0 ∧ allocAnswer s n = none ∧ t = respondFail .alloc (afterAlloc s)) ∨
          (isEmpty s = true ∧ n ≠ 0 ∧ ∃ h, allocAnswer s n = some h ∧
            t = respondOk 0 (freeOwned s.origin (installStorage n .fresh (.allocated h) (afterAlloc s)))))) := by
  rcases afterPrologue_next h with ⟨c, -, rfl⟩ | ⟨hp, hb⟩
  · exact .inl ⟨c, rfl⟩
  · split at hb
    · cases hb
    · next hn =>
      have ht := (Host.Outcome.next.inj hb).symm
      refine .inr ⟨hp, Nat.le_of_not_lt hn, ?_⟩
      cases he : isEmpty s with
      | false =>
        rw [he] at ht
        exact .inl ⟨rfl, ht⟩
      | true =>
        simp only [he, Bool.not_true, Bool.false_eq_true, if_false] at ht
        split at ht
        · next h0 => exact .inr (.inl ⟨rfl, h0, ht⟩)
        · next h0 =>
          rw [resizeN] at ht
          split at ht
          · next ha => exact .inr (.inr (.inl ⟨rfl, h0, ha, ht⟩))
          · next a ha => exact .inr (.inr (.inr ⟨rfl, h0, a, ha, ht⟩))

theorem execProvide_next {n : Nat} {s t : State} (h : execProvide n s = .next t) :
    TookFault s t ∨
      (prologueFault (.provide n) s = none ∧ n ≤ capMax ∧
        (((operandH s = 0 ∨ n = 0) ∧ t = respondFail .invalid s) ∨
          (operandH s ≠ 0 ∧ n ≠ 0 ∧ isEmpty s = false ∧ t = respondFail .nonempty s) ∨
          (operandH s ≠ 0 ∧ n ≠ 0 ∧ isEmpty s = true ∧
            t = respondOk 0 (freeOwned s.origin
              (installStorage n (bufferFill (operandH s) n s) (.provided (operandH s)) (afterProvide s)))))) := by
  rcases afterPrologue_next h with ⟨c, -, rfl⟩ | ⟨hp, hb⟩
  · exact .inl ⟨c, rfl⟩
  · split at hb
    · cases hb
    · next hn =>
      have ht := (Host.Outcome.next.inj hb).symm
      refine .inr ⟨hp, Nat.le_of_not_lt hn, ?_⟩
      split at ht
      · next h0 => exact .inl ⟨h0, ht⟩
      · next h0 =>
        have h1 := not_or.mp h0
        cases he : isEmpty s with
        | false =>
          rw [he] at ht
          exact .inr (.inl ⟨h1.1, h1.2, rfl, ht⟩)
        | true =>
          rw [he] at ht
          exact .inr (.inr ⟨h1.1, h1.2, rfl, ht⟩)

theorem execSlotRd_next {slot w : Nat} {s t : State} (h : execSlotRd slot w s = .next t) :
    TookFault s t ∨
      (prologueFault (.slotRd slot w) s = none ∧ slotAccessFault slot w s = none ∧ ∃ v,
        readWord s.params s.storage slot w = some v ∧ t = respondData (wordOut s.params v) s) := by
  rcases afterPrologue_next h with ⟨c, -, rfl⟩ | ⟨hp, hb⟩
  · exact .inl ⟨c, rfl⟩
  · split at hb
    · exact .inl ⟨_, (Host.Outcome.next.inj hb).symm⟩
    · next ha =>
      split at hb
      · cases hb
      · next v hv => exact .inr ⟨hp, ha, v, hv, (Host.Outcome.next.inj hb).symm⟩

theorem execSlotWr_next {slot w : Nat} {s t : State} (h : execSlotWr slot w s = .next t) :
    TookFault s t ∨
      (prologueFault (.slotWr slot w) s = none ∧ slotAccessFault slot w s = none ∧ ∃ m,
        writeWord s.params s.storage slot w (operandV s) = some m ∧ t = respondOk 0 { s with storage := m }) := by
  rcases afterPrologue_next h with ⟨c, -, rfl⟩ | ⟨hp, hb⟩
  · exact .inl ⟨c, rfl⟩
  · split at hb
    · exact .inl ⟨_, (Host.Outcome.next.inj hb).symm⟩
    · next ha =>
      split at hb
      · cases hb
      · next m hm => exact .inr ⟨hp, ha, m, hm, (Host.Outcome.next.inj hb).symm⟩

/-! ### The step -/

/-- The step is the port's own step, or a hardware reset. -/
theorem step_of_port {s : State} {p : Port} (h : nextEvent s = .step p) : step s = portStep p (takeEvent s) := by
  simp only [step, h]

theorem step_of_reset {s : State} (h : nextEvent s = .reset) : step s = .next (hardwareReset (takeEvent s)) := by
  simp only [step, h]

/-- The same two with the schedule written out. -/
theorem step_of_cons {s : State} {p : Port} {rest : List Event} (h : s.schedule = .step p :: rest) :
    step s = portStep p { s with schedule := rest } := by rw [step_of_port (nextEvent_of_cons h), takeEvent_of_cons h]

theorem step_of_cons_reset {s : State} {rest : List Event} (h : s.schedule = .reset :: rest) :
    step s = .next (hardwareReset { s with schedule := rest }) := by
  rw [step_of_reset (nextEvent_of_cons h), takeEvent_of_cons h]

/-- Everything a step that answers a next state can have been: nothing but the event used up, a hardware reset, the
completion of a held produce, an illegal word's fault, or the execution of the port's next command. -/
theorem step_next {s t : State} (h : step s = .next t) :
    (t = takeEvent s) ∨
    (nextEvent s = .reset ∧ t = hardwareReset (takeEvent s)) ∨
    (nextEvent s = .step .P ∧ halted s = false ∧ s.pend ≠ 0 ∧ isFull s = false ∧ t = completeHeld (takeEvent s)) ∨
    (∃ p c rest, nextEvent s = .step p ∧ queueOf p s = c :: rest ∧ halted s = false ∧ ¬(p = .P ∧ s.pend ≠ 0) ∧
      ((∃ e, decode c.word = .error e ∧ t = raiseFault .illegalCommand (accept p c rest (takeEvent s))) ∨
        (∃ i, decode c.word = .ok i ∧ exec i (accept p c rest (takeEvent s)) = .next t))) := by
  cases he : nextEvent s with
  | reset =>
    rw [step_of_reset he] at h
    exact .inr (.inl ⟨rfl, (Host.Outcome.next.inj h).symm⟩)
  | step p =>
    rw [step_of_port he] at h
    rcases portStep_cases p (takeEvent s) with ⟨hr, -⟩ | ⟨hr, h1, rfl, h2, h3⟩ | ⟨c, q, h1, h2, h3, hr⟩ <;> rw [hr] at h
    · exact .inl (Host.Outcome.next.inj h).symm
    · exact .inr (.inr (.inl ⟨rfl, h1, h2, h3, (Host.Outcome.next.inj h).symm⟩))
    · refine .inr (.inr (.inr ⟨p, c, q, rfl, by rwa [queueOf_takeEvent] at h1, h2, h3, ?_⟩))
      rcases runBus_cases (accept p c q (takeEvent s)) with ⟨e, he, hb⟩ | ⟨i, hi, hb⟩ <;> rw [hb] at h
      · exact .inl ⟨e, he, (Host.Outcome.next.inj h).symm⟩
      · exact .inr ⟨i, hi, h⟩

/-- Steps of a run, one at a time. -/
theorem run_succ {k : Nat} {s t : State} (h : step s = .next t) : core.run (k + 1) s = core.run k t := by
  have h' : core.step s = .next t := h
  simp only [Host.Core.run, h']

end Sys2Proof.Machine
end

