-- ==== Sys2Proof/Laws/Flags.lean ====
section
/-! SUPPORT. The fault record and its fields (spec/10_state.md R22). -/

namespace Sys2Proof.Machine

/-- The record as the number that observation number 5 shows. -/
theorem packFault_toNat (cause : BitVec 4) (port : BitVec 2) (op : BitVec 4) :
    (packFault cause port op).toNat = 1 + 2 * cause.toNat + 32 * port.toNat + 128 * op.toNat := by
  have h1 := cause.isLt
  have h2 := port.isLt
  have h3 : (1 : BitVec 1).toNat < 2 ^ 1 := (1 : BitVec 1).isLt
  have one : (1 : BitVec 1).toNat = 1 := rfl
  simp only [packFault, BitVec.toNat_append]
  rw [← Nat.shiftLeft_add_eq_or_of_lt h2, ← Nat.shiftLeft_add_eq_or_of_lt h1, ← Nat.shiftLeft_add_eq_or_of_lt h3]
  simp only [Nat.shiftLeft_eq, one]
  omega

@[simp] theorem faultValid_packFault (cause : BitVec 4) (port : BitVec 2) (op : BitVec 4) :
    faultValid (packFault cause port op) = true := by
  have one : (1 : BitVec 1).toNat = 1 := rfl
  simp only [faultValid, beq_iff_eq]
  apply BitVec.eq_of_toNat_eq
  simp only [BitVec.extractLsb'_toNat, packFault_toNat, Nat.shiftRight_eq_div_pow, one]
  omega

@[simp] theorem faultCause_packFault (cause : BitVec 4) (port : BitVec 2) (op : BitVec 4) :
    faultCause (packFault cause port op) = cause := by
  apply BitVec.eq_of_toNat_eq
  have h1 := cause.isLt
  simp only [faultCause, BitVec.extractLsb'_toNat, packFault_toNat, Nat.shiftRight_eq_div_pow]
  omega

@[simp] theorem faultPort_packFault (cause : BitVec 4) (port : BitVec 2) (op : BitVec 4) :
    faultPort (packFault cause port op) = port := by
  apply BitVec.eq_of_toNat_eq
  have h1 := cause.isLt
  have h2 := port.isLt
  simp only [faultPort, BitVec.extractLsb'_toNat, packFault_toNat, Nat.shiftRight_eq_div_pow]
  omega

@[simp] theorem faultOp_packFault (cause : BitVec 4) (port : BitVec 2) (op : BitVec 4) :
    faultOp (packFault cause port op) = op := by
  apply BitVec.eq_of_toNat_eq
  have h1 := cause.isLt
  have h2 := port.isLt
  have h3 := op.isLt
  simp only [faultOp, BitVec.extractLsb'_toNat, packFault_toNat, Nat.shiftRight_eq_div_pow]
  omega

/-- VALID is bit 0. -/
theorem faultValid_eq (f : BitVec 11) : faultValid f = f.getLsbD 0 := by
  simp only [faultValid, BitVec.getLsbD, Nat.testBit_zero]
  rw [Bool.eq_iff_iff, beq_iff_eq, decide_eq_true_iff, ← BitVec.toNat_inj]
  simp [BitVec.extractLsb'_toNat]

/-- A reset ring is not halted. -/
@[simp] theorem faultValid_zero : faultValid 0#11 = false := by decide

end Sys2Proof.Machine
end

