-- ==== Sys2Proof/Laws/Memory.lean ====
section
/-! SUPPORT. Slot storage: a read after a write gives what was written, a write leaves every other slot alone, and every
operation keeps the canonical form (`Memory.wf`). -/

namespace Sys2Proof.Machine

/-! ### The list of written slots -/

theorem lookupCell_of_all_ne {cells : List Cell} {slot : Nat} (h : ∀ c ∈ cells, c.1 ≠ slot) :
    lookupCell cells slot = none := by
  induction cells with
  | nil => rfl
  | cons c cs ih =>
    simp only [List.mem_cons, forall_eq_or_imp] at h
    simp [lookupCell, h.1, ih h.2]

/-- The slots of a list rise strictly. -/
abbrev Rising (cells : List Cell) : Prop := (cells.map Prod.fst).Pairwise (· < ·)

theorem Rising.cons_lt {c : Cell} {cs : List Cell} (h : Rising (c :: cs)) : ∀ d ∈ cs, c.1 < d.1 := by
  intro d hd
  have := (List.pairwise_cons.mp h).1 d.1
  exact this (List.mem_map_of_mem hd)

theorem Rising.of_cons {c : Cell} {cs : List Cell} (h : Rising (c :: cs)) : Rising cs := (List.pairwise_cons.mp h).2

/-- What the list holds after a write, slot by slot. -/
theorem lookupCell_putCell {cells : List Cell} (h : Rising cells) (slot slot' : Nat) (new : Option Block) :
    lookupCell (putCell cells slot new) slot' = if slot' = slot then new else lookupCell cells slot' := by
  induction cells with
  | nil => cases new <;> by_cases e : slot = slot' <;> simp [putCell, lookupCell, e, eq_comm (a := slot')]
  | cons c cs ih =>
    have lt := h.cons_lt
    have ih := ih h.of_cons
    by_cases h1 : c.1 < slot
    · simp only [putCell, if_pos h1, lookupCell, ih]
      by_cases e : slot' = slot
      · subst e; simp [Nat.ne_of_lt h1]
      · simp [e]
    · by_cases h2 : c.1 = slot
      · have none_rest : lookupCell cs slot = none :=
          lookupCell_of_all_ne (fun d hd => by have := lt d hd; omega)
        cases new with
        | none =>
          by_cases e : slot' = slot
          · subst e; simp [putCell, h2, none_rest]
          · have : c.1 ≠ slot' := by omega
            simp [putCell, h2, lookupCell, e, Ne.symm e]
        | some b =>
          by_cases e : slot' = slot
          · subst e; simp [putCell, h2, lookupCell]
          · simp [putCell, h2, lookupCell, e, Ne.symm e]
      · have gt : slot < c.1 := by omega
        have none_all : lookupCell (c :: cs) slot = none :=
          lookupCell_of_all_ne (fun d hd => by
            rcases List.mem_cons.mp hd with rfl | hd
            · omega
            · have := lt d hd; omega)
        cases new with
        | none =>
          by_cases e : slot' = slot
          · subst e; simp [putCell, h1, h2, none_all]
          · simp [putCell, h1, h2, e]
        | some b =>
          by_cases e : slot' = slot
          · subst e; simp [putCell, h1, h2, lookupCell]
          · simp only [putCell, h1, h2, if_false, Option.map_some, Option.toList_some, List.singleton_append, e]
            rw [lookupCell]; simp [Ne.symm e]

/-- Every entry after a write is an old entry or the new one. -/
theorem mem_putCell {cells : List Cell} {slot : Nat} {new : Option Block} {d : Cell} (h : d ∈ putCell cells slot new) :
    d ∈ cells ∨ (d.1 = slot ∧ new = some d.2) := by
  induction cells with
  | nil => cases new <;> simp_all [putCell]
  | cons c cs ih =>
    simp only [putCell] at h
    split at h
    · rcases List.mem_cons.mp h with rfl | h
      · simp
      · rcases ih h with h | h
        · simp [h]
        · exact .inr h
    · split at h
      · cases new with
        | none => exact .inl (List.mem_cons_of_mem _ (by simpa using h))
        | some b =>
          rcases List.mem_append.mp h with h | h
          · simp at h; exact .inr (by simp [h])
          · exact .inl (List.mem_cons_of_mem _ h)
      · cases new with
        | none => exact .inl (by simpa using h)
        | some b =>
          rcases List.mem_append.mp h with h | h
          · simp at h; exact .inr (by simp [h])
          · exact .inl h

/-- Slots stay in rising order. -/
theorem rising_putCell {cells : List Cell} (h : Rising cells) (slot : Nat) (new : Option Block) :
    Rising (putCell cells slot new) := by
  induction cells with
  | nil => cases new <;> simp [putCell, Rising]
  | cons c cs ih =>
    have lt := h.cons_lt
    by_cases h1 : c.1 < slot
    · simp only [putCell, if_pos h1]
      refine List.pairwise_cons.mpr ⟨?_, ih h.of_cons⟩
      intro x hx
      obtain ⟨d, hd, rfl⟩ := List.mem_map.mp hx
      rcases mem_putCell hd with hd | ⟨hd, _⟩
      · exact lt d hd
      · omega
    · by_cases h2 : c.1 = slot
      · cases new with
        | none => simpa [putCell, h2] using h.of_cons
        | some b =>
          simp only [putCell, if_neg h1, if_pos h2, Option.map_some, Option.toList_some, List.singleton_append]
          refine List.pairwise_cons.mpr ⟨?_, h.of_cons⟩
          intro x hx
          obtain ⟨d, hd, rfl⟩ := List.mem_map.mp hx
          have := lt d hd
          omega
      · cases new with
        | none => simpa [putCell, h1, h2] using h
        | some b =>
          simp only [putCell, if_neg h1, if_neg h2, Option.map_some, Option.toList_some, List.singleton_append]
          refine List.pairwise_cons.mpr ⟨?_, h⟩
          intro x hx
          obtain ⟨d, hd, rfl⟩ := List.mem_map.mp hx
          rcases List.mem_cons.mp hd with rfl | hd
          · omega
          · have := lt d hd; omega

/-! ### The canonical form -/

theorem Memory.wf_iff {p : Params} {m : Memory} :
    m.wf p = true ↔ Rising m.cells ∧
      ∀ c ∈ m.cells, c.1 < m.size ∧ p.blockOk c.2 = true ∧ c.2 ≠ unlistedBlock p m.fill c.1 := by
  simp [Memory.wf, and_assoc]

theorem Memory.wf.rising {p : Params} {m : Memory} (h : m.wf p = true) : Rising m.cells := (Memory.wf_iff.mp h).1

/-- Storage that nothing has been written to is canonical: no slots, or just installed. -/
theorem Memory.wf_no_cells (p : Params) (n : Nat) (f : Fill) : Memory.wf p { size := n, fill := f, cells := [] } = true := by
  simp [Memory.wf]

theorem Memory.wf_empty (p : Params) : Memory.empty.wf p = true := Memory.wf_no_cells p 0 .fresh

/-- The memory of the reset state is canonical. -/
theorem State.reset_storage_wf (p : Params) : State.reset.storage.wf p = true := Memory.wf_empty p

/-! ### Blocks of the parameters -/

theorem blockOk_iff {p : Params} {b : Block} :
    p.blockOk b = true ↔ b.length = p.blockWords ∧ ∀ v ∈ b, v < 2 ^ p.wordBits := by
  simp [Params.blockOk]

theorem blockOk_map_range (p : Params) (f : Nat → Nat) :
    p.blockOk ((List.range p.blockWords).map (fun i => f i % 2 ^ p.wordBits)) = true := by
  simp only [blockOk_iff, List.length_map, List.length_range, true_and, List.mem_map]
  rintro v ⟨i, -, rfl⟩
  exact Nat.mod_lt _ (Nat.two_pow_pos _)

theorem blockOk_fitBlock (p : Params) (ws : List Word) : p.blockOk (fitBlock p ws) = true :=
  blockOk_map_range p (fun i => ws.getD i 0)

theorem blockOk_zeroBlock (p : Params) : p.blockOk (zeroBlock p) = true := by
  simp only [blockOk_iff, zeroBlock, List.length_replicate, true_and]
  intro v hv
  obtain rfl := List.eq_of_mem_replicate hv
  exact Nat.two_pow_pos _

theorem fitWord_lt (p : Params) (ws : List Word) (i : Nat) : fitWord p ws i < 2 ^ p.wordBits :=
  Nat.mod_lt _ (Nat.two_pow_pos _)

theorem blockOk_set {p : Params} {b : Block} {v : Word} (w : Nat) (hb : p.blockOk b = true) (hv : v < 2 ^ p.wordBits) :
    p.blockOk (b.set w v) = true := by
  obtain ⟨hl, hw⟩ := blockOk_iff.mp hb
  refine blockOk_iff.mpr ⟨by simpa using hl, fun u hu => ?_⟩
  rcases List.mem_or_eq_of_mem_set hu with hu | rfl
  · exact hw u hu
  · exact hv

theorem Params.wf_iff {p : Params} :
    p.wf = true ↔ 1 ≤ p.blockWords ∧ p.blockWords ≤ 16 ∧ 1 ≤ p.wordBits ∧ p.blockOk p.defaultBlock = true := by
  simp [Params.wf, and_assoc]

/-- The parameters that `State.reset` carries are in R7's domain. -/
theorem wf_config_params : Config.params.wf = true := by
  refine Params.wf_iff.mpr ⟨by simp [Config.params], ?_, by simp [Config.params], ?_⟩
  · have := Config.blockWordsLess.isLt
    simp [Config.params]
  · exact blockOk_map_range Config.params (fun i => Config.defaultWord i)

/-- A block of the parameters comes off the channel as it is. -/
theorem fitBlock_of_ok {p : Params} {b : Block} (h : p.blockOk b = true) : fitBlock p b = b := by
  obtain ⟨h1, h2⟩ := blockOk_iff.mp h
  apply List.ext_getElem
  · simp [fitBlock, h1]
  · intro n hn hn'
    simp only [fitBlock, List.getElem_map, List.getElem_range, fitWord]
    rw [List.getD_eq_getElem?_getD, List.getElem?_eq_getElem hn', Option.getD_some,
      Nat.mod_eq_of_lt (h2 _ (List.getElem_mem hn'))]

theorem blockOk_unlistedBlock {p : Params} (hp : p.wf = true) (f : Fill) (slot : Nat) :
    p.blockOk (unlistedBlock p f slot) = true := by
  cases f with
  | fresh => exact (Params.wf_iff.mp hp).2.2.2
  | buffer draw h n given =>
    simp only [unlistedBlock]
    split
    · exact blockOk_fitBlock p _
    · exact blockOk_map_range p _

theorem lookupCell_mem {cells : List Cell} {slot : Nat} {b : Block} (h : lookupCell cells slot = some b) :
    (slot, b) ∈ cells := by
  induction cells with
  | nil => simp [lookupCell] at h
  | cons c cs ih =>
    simp only [lookupCell] at h
    split at h
    · rename_i e
      obtain rfl := Option.some.inj h
      exact List.mem_cons.mpr (.inl (by simp [← e]))
    · exact List.mem_cons_of_mem _ (ih h)

theorem blockOk_slotBlock {p : Params} {m : Memory} (hp : p.wf = true) (hm : m.wf p = true) (slot : Nat) :
    p.blockOk (slotBlock p m slot) = true := by
  simp only [slotBlock]
  cases h : lookupCell m.cells slot with
  | none => exact blockOk_unlistedBlock hp _ _
  | some b => exact ((Memory.wf_iff.mp hm).2 _ (lookupCell_mem h)).2.1

/-! ### Equal contents are equal data -/

/-- In a rising list no later cell lists a slot up to the first. -/
theorem Rising.lookup_of_le {c : Cell} {cs : List Cell} {slot : Nat} (h : Rising (c :: cs)) (hs : slot ≤ c.1) :
    lookupCell cs slot = none :=
  lookupCell_of_all_ne fun d hd => by have := h.cons_lt d hd; omega

theorem Rising.ext : ∀ {a b : List Cell}, Rising a → Rising b → (∀ slot, lookupCell a slot = lookupCell b slot) → a = b
  | [], [], _, _, _ => rfl
  | [], c :: cs, _, _, h => by
    have := h c.1
    simp [lookupCell] at this
  | c :: cs, [], _, _, h => by
    have := h c.1
    simp [lookupCell] at this
  | c :: cs, d :: ds, ha, hb, h => by
    have e : c.1 = d.1 := by
      rcases Nat.lt_trichotomy c.1 d.1 with hl | hl | hl
      · have := h c.1
        simp only [lookupCell, if_true] at this
        rw [if_neg (by omega), hb.lookup_of_le (by omega)] at this
        cases this
      · exact hl
      · have := h d.1
        simp only [lookupCell, if_true] at this
        rw [if_neg (by omega), ha.lookup_of_le (by omega)] at this
        cases this
    have e2 : c = d := by
      have := h c.1
      simp only [lookupCell, if_true, ← e] at this
      exact Prod.ext e (Option.some.inj this)
    subst e2
    congr 1
    refine Rising.ext ha.of_cons hb.of_cons fun slot => ?_
    by_cases hs : c.1 = slot
    · subst hs
      rw [ha.lookup_of_le (by omega), hb.lookup_of_le (by omega)]
    · have := h slot
      simpa only [lookupCell, if_neg hs] using this

/-- What canonical storage lists is what differs from the fill. -/
theorem lookupCell_of_wf {p : Params} {m : Memory} (hm : m.wf p = true) (slot : Nat) :
    lookupCell m.cells slot =
      if slotBlock p m slot = unlistedBlock p m.fill slot then none else some (slotBlock p m slot) := by
  cases hl : lookupCell m.cells slot with
  | none => simp [slotBlock, hl]
  | some b =>
    have := (Memory.wf_iff.mp hm).2 (slot, b) (lookupCell_mem hl)
    simp [slotBlock, hl, this]

/-- Canonical storages of one size and fill that hold the same blocks are equal. -/
theorem Memory.ext_of_wf {p : Params} {m n : Memory} (hm : m.wf p = true) (hn : n.wf p = true) (hs : m.size = n.size)
    (hf : m.fill = n.fill) (h : ∀ slot, slotBlock p m slot = slotBlock p n slot) : m = n := by
  have key : m.cells = n.cells :=
    Rising.ext (Memory.wf.rising hm) (Memory.wf.rising hn) fun slot => by
      rw [lookupCell_of_wf hm, lookupCell_of_wf hn, h slot, hf]
  cases m
  cases n
  simp_all

/-! ### Reading and writing blocks and words -/

theorem readBlock_eq_some {p : Params} {m : Memory} {slot : Nat} {b : Block} :
    readBlock p m slot = some b ↔ slot < m.size ∧ b = slotBlock p m slot := by
  simp only [readBlock]
  split <;> simp_all [eq_comm]

/-- Everything a block write can do: it succeeds exactly on a slot that exists, keeps the size and the fill, and changes
that slot's block only. -/
theorem writeBlock_spec {p : Params} {m m' : Memory} {slot : Nat} {b : Block} (hm : Rising m.cells)
    (h : writeBlock p m slot b = some m') :
    slot < m.size ∧ m'.size = m.size ∧ m'.fill = m.fill ∧
      ∀ slot', slotBlock p m' slot' = if slot' = slot then b else slotBlock p m slot' := by
  simp only [writeBlock] at h
  split at h
  · rename_i hlt
    obtain rfl := Option.some.inj h
    refine ⟨hlt, rfl, rfl, fun slot' => ?_⟩
    simp only [slotBlock, lookupCell_putCell hm]
    by_cases e : slot' = slot
    · subst e
      by_cases eb : b = unlistedBlock p m.fill slot' <;> simp [eb]
    · simp [e]
  · cases h

theorem writeBlock_isSome {p : Params} {m : Memory} {slot : Nat} {b : Block} (h : slot < m.size) :
    ∃ m', writeBlock p m slot b = some m' := by
  simp [writeBlock, h]

/-- A block write keeps the canonical form. -/
theorem writeBlock_wf {p : Params} {m m' : Memory} {slot : Nat} {b : Block} (hm : m.wf p = true) (hb : p.blockOk b = true)
    (h : writeBlock p m slot b = some m') : m'.wf p = true := by
  obtain ⟨hr, hc⟩ := Memory.wf_iff.mp hm
  simp only [writeBlock] at h
  split at h
  · rename_i hlt
    obtain rfl := Option.some.inj h
    refine Memory.wf_iff.mpr ⟨rising_putCell hr _ _, fun d hd => ?_⟩
    rcases mem_putCell hd with hd | ⟨rfl, hnew⟩
    · exact hc d hd
    · split at hnew
      · cases hnew
      · rename_i hne
        obtain rfl := Option.some.inj hnew
        exact ⟨hlt, hb, hne⟩
  · cases h

/-- Everything a word write can do: it succeeds exactly on a word of a slot that exists, and changes that word only. -/
theorem writeWord_spec {p : Params} {m m' : Memory} {slot w : Nat} {v : Word} (hm : Rising m.cells)
    (h : writeWord p m slot w v = some m') :
    slot < m.size ∧ w < (slotBlock p m slot).length ∧ m'.size = m.size ∧ m'.fill = m.fill ∧
      ∀ slot', slotBlock p m' slot' = if slot' = slot then (slotBlock p m slot).set w v else slotBlock p m slot' := by
  simp only [writeWord, readBlock] at h
  split at h
  · simp only [Option.bind_some] at h
    split at h
    · rename_i hw
      obtain ⟨h1, h2, h3, h4⟩ := writeBlock_spec hm h
      exact ⟨h1, hw, h2, h3, h4⟩
    · cases h
  · cases h

theorem writeWord_isSome {p : Params} {m : Memory} {slot w : Nat} {v : Word} (h : slot < m.size)
    (hw : w < (slotBlock p m slot).length) : ∃ m', writeWord p m slot w v = some m' := by
  obtain ⟨m', hm'⟩ := writeBlock_isSome (p := p) (b := (slotBlock p m slot).set w v) h
  exact ⟨m', by simp [writeWord, readBlock, h, hw, hm']⟩

/-- A word write keeps the canonical form. -/
theorem writeWord_wf {p : Params} {m m' : Memory} {slot w : Nat} {v : Word} (hp : p.wf = true) (hm : m.wf p = true)
    (hv : v < 2 ^ p.wordBits) (h : writeWord p m slot w v = some m') : m'.wf p = true := by
  simp only [writeWord, readBlock] at h
  split at h
  · simp only [Option.bind_some] at h
    split at h
    · exact writeBlock_wf hm (blockOk_set w (blockOk_slotBlock hp hm slot) hv) h
    · cases h
  · cases h

end Sys2Proof.Machine
end

