-- ==== Sys2Proof/Laws/PerInstr.lean ====
section
/-! SUPPORT. Per-instruction laws: the word of an instruction is legal (spec/30_encoding.md R67) and carries the
instruction's opcode in its OP field (R62, R63). -/

namespace Sys2Proof.Laws

/-- Facts about the two field checks of R67, for words packed from their fields. -/
theorem legal_packWord_c {op : BitVec 4} (h : [0x1, 0x3, 0x4, 0x5, 0x6, 0x7, 0x8, 0x9, 0xA, 0xB].contains op.toNat = true) :
    legal (packWord op 0 0) = true := by
  simp only [legal, opField_packWord, h]
  simp

theorem legal_packWord_n {op : BitVec 4} (n : BitVec 24) (h : [0x2, 0xC, 0xD].contains op.toNat = true) :
    legal (packWord op 0 n) = true := by
  simp only [legal, opField_packWord, wField_packWord, h]
  simp

theorem legal_packWord_s {op : BitVec 4} (wd : BitVec 4) (n : BitVec 24) (h : [0xE, 0xF].contains op.toNat = true) :
    legal (packWord op wd n) = true := by
  simp only [legal, opField_packWord, h]
  simp

end Sys2Proof.Laws

namespace Sys2Proof.Laws.LegalWord

/-- The word of an instruction is legal and its OP field is the instruction's opcode. -/
def Statement (i : Instr) : Prop := legal (encode i) = true ∧ opField (encode i) = opcode i

theorem ctor0 : Statement .ctor0 := ⟨legal_packWord_c rfl, opField_packWord _ _ _⟩
theorem ctorn (n : Nat) : Statement (.ctorn n) := ⟨legal_packWord_n _ rfl, opField_packWord _ _ _⟩
theorem dtor : Statement .dtor := ⟨legal_packWord_c rfl, opField_packWord _ _ _⟩
theorem isEmpty : Statement .isEmpty := ⟨legal_packWord_c rfl, opField_packWord _ _ _⟩
theorem isFull : Statement .isFull := ⟨legal_packWord_c rfl, opField_packWord _ _ _⟩
theorem headRef : Statement .headRef := ⟨legal_packWord_c rfl, opField_packWord _ _ _⟩
theorem produceHead : Statement .produceHead := ⟨legal_packWord_c rfl, opField_packWord _ _ _⟩
theorem pushFront : Statement .pushFront := ⟨legal_packWord_c rfl, opField_packWord _ _ _⟩
theorem tailRef : Statement .tailRef := ⟨legal_packWord_c rfl, opField_packWord _ _ _⟩
theorem consumeTail : Statement .consumeTail := ⟨legal_packWord_c rfl, opField_packWord _ _ _⟩
theorem popBack : Statement .popBack := ⟨legal_packWord_c rfl, opField_packWord _ _ _⟩
theorem resize (n : Nat) : Statement (.resize n) := ⟨legal_packWord_n _ rfl, opField_packWord _ _ _⟩
theorem provide (n : Nat) : Statement (.provide n) := ⟨legal_packWord_n _ rfl, opField_packWord _ _ _⟩
theorem slotRd (slot w : Nat) : Statement (.slotRd slot w) := ⟨legal_packWord_s _ _ rfl, opField_packWord _ _ _⟩
theorem slotWr (slot w : Nat) : Statement (.slotWr slot w) := ⟨legal_packWord_s _ _ rfl, opField_packWord _ _ _⟩

end Sys2Proof.Laws.LegalWord
end

