-- ==== Sys2Proof/Laws/Runs.lean ====
section
/-! SUPPORT. Runs: what commands and steps do to the inputs of the machine, and that the scheduler comes to every port again
(spec/60_exceptions.md R112). -/

namespace Sys2Proof.Machine

/-! ### The inputs -/

/-- The two states have the same streams, events to come, turn and parameters. -/
abbrev SameInputs (s t : State) : Prop :=
  t.params = s.params ∧ t.schedule = s.schedule ∧ t.turn = s.turn ∧ ∀ p, queueOf p t = queueOf p s

theorem SameInputs.of_fields {s t : State} (hp : t.params = s.params) (hs : t.schedule = s.schedule) (ht : t.turn = s.turn)
    (qP : t.queueP = s.queueP) (qC : t.queueC = s.queueC) (qA : t.queueA = s.queueA) : SameInputs s t :=
  ⟨hp, hs, ht, fun p => by cases p <;> assumption⟩

theorem freeOwned_sameInputs (o : Origin) (s : State) : SameInputs s (freeOwned o s) := by
  cases o <;> exact .of_fields rfl rfl rfl rfl rfl rfl

theorem publishOrHold_sameInputs (op : BitVec 4) (s : State) : SameInputs s (publishOrHold op s) := by
  cases h : isFull s with
  | true => rw [publishOrHold_of_full h]; exact .of_fields rfl rfl rfl rfl rfl rfl
  | false => rw [publishOrHold_of_not_full h]; exact .of_fields rfl rfl rfl rfl rfl rfl

/-- A command has no effect on the inputs. -/
theorem exec_sameInputs {i : Instr} {s t : State} (h : exec i s = .next t) : SameInputs s t := by
  have same : ∀ u : State, u.params = s.params → u.schedule = s.schedule → u.turn = s.turn → u.queueP = s.queueP →
      u.queueC = s.queueC → u.queueA = s.queueA → SameInputs s u := fun _ => .of_fields
  cases i with
  | ctor0 => rcases execCtor0_next h with ⟨_, rfl⟩ | ⟨-, rfl⟩ <;> exact same _ rfl rfl rfl rfl rfl rfl
  | ctorn n =>
    rcases execCtorn_next h with ⟨_, rfl⟩ | ⟨-, -, ⟨-, rfl⟩ | ⟨-, -, rfl⟩ | ⟨-, _, -, rfl⟩⟩ <;>
      exact same _ rfl rfl rfl rfl rfl rfl
  | dtor =>
    rcases execDtor_next h with ⟨_, rfl⟩ | ⟨-, rfl⟩
    · exact same _ rfl rfl rfl rfl rfl rfl
    · exact freeOwned_sameInputs s.origin s
  | isEmpty => rcases execIsEmpty_next h with ⟨_, rfl⟩ | ⟨-, rfl⟩ <;> exact same _ rfl rfl rfl rfl rfl rfl
  | isFull => rcases execIsFull_next h with ⟨_, rfl⟩ | ⟨-, rfl⟩ <;> exact same _ rfl rfl rfl rfl rfl rfl
  | headRef => rcases execHeadRef_next h with ⟨_, rfl⟩ | ⟨-, -, rfl⟩ <;> exact same _ rfl rfl rfl rfl rfl rfl
  | produceHead =>
    rcases execProduceHead_next h with ⟨_, rfl⟩ | ⟨-, -, rfl⟩
    · exact same _ rfl rfl rfl rfl rfl rfl
    · exact publishOrHold_sameInputs _ s
  | pushFront =>
    rcases execPushFront_next h with ⟨_, rfl⟩ | ⟨-, -, m, -, rfl⟩
    · exact same _ rfl rfl rfl rfl rfl rfl
    · exact publishOrHold_sameInputs _ { s with storage := m }
  | tailRef => rcases execTailRef_next h with ⟨_, rfl⟩ | ⟨-, -, rfl⟩ <;> exact same _ rfl rfl rfl rfl rfl rfl
  | consumeTail =>
    rcases execConsumeTail_next h with ⟨_, rfl⟩ | ⟨-, ⟨-, rfl⟩ | ⟨-, rfl⟩⟩ <;> exact same _ rfl rfl rfl rfl rfl rfl
  | popBack => rcases execPopBack_next h with ⟨_, rfl⟩ | ⟨-, -, _, -, rfl⟩ <;> exact same _ rfl rfl rfl rfl rfl rfl
  | resize n =>
    rcases execResize_next h with ⟨_, rfl⟩ | ⟨-, -, ⟨-, rfl⟩ | ⟨-, -, rfl⟩ | ⟨-, -, -, rfl⟩ | ⟨-, -, a, -, rfl⟩⟩
    · exact same _ rfl rfl rfl rfl rfl rfl
    · exact same _ rfl rfl rfl rfl rfl rfl
    · exact freeOwned_sameInputs s.origin (clearRing s)
    · exact same _ rfl rfl rfl rfl rfl rfl
    · exact freeOwned_sameInputs s.origin (installStorage n .fresh (.allocated a) (afterAlloc s))
  | provide n =>
    rcases execProvide_next h with ⟨_, rfl⟩ | ⟨-, -, ⟨-, rfl⟩ | ⟨-, -, -, rfl⟩ | ⟨-, -, -, rfl⟩⟩
    · exact same _ rfl rfl rfl rfl rfl rfl
    · exact same _ rfl rfl rfl rfl rfl rfl
    · exact same _ rfl rfl rfl rfl rfl rfl
    · exact freeOwned_sameInputs s.origin
        (installStorage n (bufferFill (operandH s) n s) (.provided (operandH s)) (afterProvide s))
  | slotRd slot w => rcases execSlotRd_next h with ⟨_, rfl⟩ | ⟨-, -, _, -, rfl⟩ <;> exact same _ rfl rfl rfl rfl rfl rfl
  | slotWr slot w => rcases execSlotWr_next h with ⟨_, rfl⟩ | ⟨-, -, _, -, rfl⟩ <;> exact same _ rfl rfl rfl rfl rfl rfl

/-- A step leaves the events to come that `takeEvent` leaves. -/
theorem step_events {s t : State} (h : step s = .next t) :
    t.schedule = (takeEvent s).schedule ∧ t.turn = (takeEvent s).turn := by
  rcases step_next h with rfl | ⟨-, rfl⟩ | ⟨-, -, -, -, rfl⟩ | ⟨p, c, rest, -, -, -, -, ⟨_, -, rfl⟩ | ⟨i, -, he⟩⟩
  · exact ⟨rfl, rfl⟩
  · exact ⟨rfl, rfl⟩
  · exact ⟨rfl, rfl⟩
  · exact ⟨accept_schedule p c rest _, accept_turn p c rest _⟩
  · obtain ⟨-, h1, h2, -⟩ := exec_sameInputs he
    exact ⟨h1.trans (accept_schedule _ _ _ _), h2.trans (accept_turn _ _ _ _)⟩

/-! ### The scheduler comes to every port again (R112) -/

/-- From a time at which `l` is all that is left of the events, each of `l` happens, and then the next turn is drawn. -/
theorem run_through {r : Nat → State} (hr : IsRun r) (l : List Event) (k : Nat) (hl : (r k).schedule = l) :
    (r (k + l.length)).schedule = [] ∧ (r (k + l.length)).turn = (r k).turn ∧
      ∀ e ∈ l, ∃ j, k ≤ j ∧ nextEvent (r j) = e := by
  induction l generalizing k with
  | nil => exact ⟨hl, rfl, nofun⟩
  | cons e rest ih =>
    obtain ⟨h1, h2⟩ := step_events (hr k)
    rw [takeEvent_of_cons hl] at h1 h2
    obtain ⟨i1, i2, i3⟩ := ih (k + 1) h1
    rw [show k + 1 + rest.length = k + (e :: rest).length by simp only [List.length_cons]; omega] at i1 i2
    refine ⟨i1, i2.trans h2, fun e' he' => ?_⟩
    rcases List.mem_cons.mp he' with rfl | he'
    · exact ⟨k, Nat.le_refl k, nextEvent_of_cons hl⟩
    · obtain ⟨j, hj, hn⟩ := i3 e' he'
      exact ⟨j, by omega, hn⟩

/-- From a time at which turn `n` is to be drawn, each of its events happens, and then turn `n + 1` is to be drawn. -/
theorem run_turn {r : Nat → State} (hr : IsRun r) {k : Nat} (hk : (r k).schedule = []) :
    (∃ j, k ≤ j ∧ (r j).schedule = [] ∧ (r j).turn = (r k).turn + 1) ∧
      ∀ e ∈ drawnTurn (r k).turn, ∃ j, k ≤ j ∧ nextEvent (r j) = e := by
  obtain ⟨h1, h2⟩ := step_events (hr k)
  obtain ⟨i1, i2, i3⟩ := run_through hr _ (k + 1) h1
  rw [h2, takeEvent_turn, if_pos hk] at i2
  refine ⟨⟨_, by omega, i1, i2⟩, fun e he => ?_⟩
  rw [← upcoming_of_nil hk, upcoming_eq] at he
  rcases List.mem_cons.mp he with rfl | he
  · exact ⟨k, Nat.le_refl k, rfl⟩
  · obtain ⟨j, hj, hn⟩ := i3 e he
    exact ⟨j, by omega, hn⟩

/-- Every turn from the present one on is drawn some time. -/
theorem run_reaches_turn {r : Nat → State} (hr : IsRun r) {k : Nat} (hk : (r k).schedule = []) (m : Nat) :
    ∃ j, k ≤ j ∧ (r j).schedule = [] ∧ (r j).turn = (r k).turn + m := by
  induction m with
  | zero => exact ⟨k, Nat.le_refl k, hk, rfl⟩
  | succ m ih =>
    obtain ⟨j, hj, h1, h2⟩ := ih
    obtain ⟨i, hi, i1, i2⟩ := (run_turn hr h1).1
    exact ⟨i, by omega, i1, by omega⟩

/-- In every run, from every time on, every port is picked again. -/
theorem run_picks {r : Nat → State} (hr : IsRun r) (p : Port) (k : Nat) : ∃ j, k ≤ j ∧ nextEvent (r j) = .step p := by
  obtain ⟨h1, -, -⟩ := run_through hr _ k rfl
  obtain ⟨n, hn, hp⟩ := exists_fairPort p (r (k + (r k).schedule.length)).turn
  obtain ⟨j, hj, j1, j2⟩ := run_reaches_turn hr h1 (n - (r (k + (r k).schedule.length)).turn)
  obtain ⟨i, hi, he⟩ := (run_turn hr j1).2 (.step p) (hp ▸ (show (r j).turn = n by omega) ▸ fairPort_mem_drawnTurn (r j).turn)
  exact ⟨i, by omega, he⟩

end Sys2Proof.Machine
end

