-- ==== Sys2Proof/Tests/Slice0.lean ====
section
/-! SUPPORT. Tests, with the results taken from spec/95_test_vectors.md and from the encodings of spec/30_encoding.md, and for
every statement with hypotheses a state that meets them. -/

namespace Sys2Proof.Tests

open Sys2Proof.Machine Sys2Proof.Spec

/-! ### Well-formedness (R64, R71) -/

theorem test_wellformed_refuses_a_count_of_25_bits :
    WellFormed (.ctorn (2 ^ 24)) = false ∧ WellFormed (.resize (2 ^ 24)) = false ∧ WellFormed (.provide (2 ^ 24)) = false := by
  decide

theorem test_wellformed_refuses_a_slot_of_25_bits :
    WellFormed (.slotRd (2 ^ 24) 0) = false ∧ WellFormed (.slotWr (2 ^ 24) 0) = false := by decide

theorem test_wellformed_refuses_a_word_index_of_5_bits :
    WellFormed (.slotRd 0 16) = false ∧ WellFormed (.slotWr 0 16) = false := by decide

/-! ### Decoding: words written out from R62 and R63, OP first -/

theorem test_decode_ctor0 : decode 0b0001_0000_000000000000000000000000 = .ok .ctor0 := by rfl
theorem test_decode_ctorn : decode 0b0010_0000_111111111111111111111111 = .ok (.ctorn 16777215) := by rfl
theorem test_decode_dtor : decode 0b0011_0000_000000000000000000000000 = .ok .dtor := by rfl
theorem test_decode_isEmpty : decode 0b0100_0000_000000000000000000000000 = .ok .isEmpty := by rfl
theorem test_decode_isFull : decode 0b0101_0000_000000000000000000000000 = .ok .isFull := by rfl
theorem test_decode_headRef : decode 0b0110_0000_000000000000000000000000 = .ok .headRef := by rfl
theorem test_decode_produceHead : decode 0b0111_0000_000000000000000000000000 = .ok .produceHead := by rfl
theorem test_decode_pushFront : decode 0b1000_0000_000000000000000000000000 = .ok .pushFront := by rfl
theorem test_decode_tailRef : decode 0b1001_0000_000000000000000000000000 = .ok .tailRef := by rfl
theorem test_decode_consumeTail : decode 0b1010_0000_000000000000000000000000 = .ok .consumeTail := by rfl
theorem test_decode_popBack : decode 0b1011_0000_000000000000000000000000 = .ok .popBack := by rfl
theorem test_decode_resize : decode 0b1100_0000_100000000000000000000001 = .ok (.resize 8388609) := by rfl
theorem test_decode_provide : decode 0b1101_0000_000000000000000000000011 = .ok (.provide 3) := by rfl
theorem test_decode_slotRd : decode 0b1110_0001_000000000000000000000010 = .ok (.slotRd 2 1) := by rfl
theorem test_decode_slotWr : decode 0b1111_1111_000000000000000000000011 = .ok (.slotWr 3 15) := by rfl

/-- The illegal words of spec/95_test_vectors.md L2.1, by kind (R68). -/
theorem test_decode_illegal :
    decode 0x00000000 = .error .opcodeZero ∧ decode 0x10000001 = .error .formatCBits ∧
      decode 0x30000001 = .error .formatCBits ∧ decode 0x21000004 = .error .formatNBits := by decide

/-- The words of the syntax table R71, as the opcode table numbers their bits. -/
theorem test_decodeTableWord :
    decodeTableWord 32 0xD0000003 = some (.provide 3) ∧ decodeTableWord 32 0x0FFFFFFF = none ∧
      decodeTableWord 32 0xB0000000 = some .popBack := by decide

theorem test_encode_slotWr : encode (.slotWr 2 1) = 0xF1000002 := by decide

/-! ### The assembler and the listing (R71 to R73) -/

/-- The parameters of spec/95_test_vectors.md section 0. -/
def params2 : Params := { blockWords := 2, wordBits := 32, defaultBlock := [0, 0] }

theorem test_assemble_alias : assemble params2 "C: tail ; oldest" = some ⟨.C, ⟨0x90000000, 0, []⟩⟩ := by decide

theorem test_assemble_too_wide : assemble params2 "A: ctorn 0x1000000" = none := by decide

theorem test_listing :
    listingLine params2 ⟨.P, ⟨0xF1000002, 0, [0x55]⟩⟩ = some "P: slot_wr 2, 1, 85 ; 0xF1000002" ∧
      completionLine 0x8 = some "P: (completes push_front)" := by decide

/-! ### One step -/

/-- The reset ring with the parameters of section 0. -/
def fresh : State := { State.reset with params := params2 }

/-- The start states of section 0: slot `i` holds `0xB0 + i, 0x10 + i`, the storage is ALLOCATED(0x100). -/
def ring (cap head tail : Nat) : State :=
  { fresh with
    phase := .live, cap := BitVec.ofNat 24 cap, head := BitVec.ofNat 24 head, tail := BitVec.ofNat 24 tail
    storage := { size := cap, fill := .fresh, cells := (List.range cap).map (fun i => (i, [0xB0 + i, 0x10 + i])) }
    origin := if cap = 0 then .none else .allocated 0x100 }

/-- The step in which port `p` issues one command. -/
def issue (p : Port) (w : CmdWord) (s : State) (arg : Handle := 0) (data : List Word := []) : Result :=
  step (issuing p [{ word := w, arg := arg, dataIn := data }] s)

/-- The next state, if the step answers one. -/
def nextState (r : Result) : Option State :=
  match r with
  | .next s => some s
  | .fault _ => none
  | .refused _ => none

/-- PHASE, CAP, HEAD, TAIL, PEND, FAULT after the step, and the newest output. -/
def seen (r : Result) : Option (List Nat × Option Output) :=
  (nextState r).map (fun s =>
    ([phaseBit s.phase, s.cap.toNat, s.head.toNat, s.tail.toNat, s.pend.toNat, s.fault.toNat], s.outputs.head?))

/-- What slot `slot` holds after the step. -/
def slotAfter (r : Result) (slot : Nat) : Option Block :=
  (nextState r).bind (fun s => readBlock s.params s.storage slot)

/-- ORIGIN after the step. -/
def originAfter (r : Result) : Option Origin := (nextState r).map (fun s => s.origin)

/-- All outputs of the step, newest first. -/
def outputsAfter (r : Result) : Option (List Output) := (nextState r).map (fun s => s.outputs)

def okOut (p : Port) (v : BitVec 32) : Output := .response p { status := 0, code := 0, value := v, dataOut := [0, 0] }
def dataOut (p : Port) (b : Block) : Output := .response p { status := 0, code := 0, value := 0, dataOut := b }
def failOut (p : Port) (c : BitVec 4) : Output := .response p { status := 1, code := c, value := 0, dataOut := [0, 0] }
def faultOut (p : Port) (c : BitVec 4) : Output := .response p { status := 2, code := c, value := 0, dataOut := [0, 0] }

/-- L1.1. -/
theorem test_ctor0 : seen (issue .A 0x10000000 fresh) = some ([1, 0, 0, 0, 0, 0], some (okOut .A 0)) := by decide

/-- L2.1, already constructed. -/
theorem test_ctor0_twice :
    seen (issue .A 0x10000000 (ring 4 0 0)) = some ([1, 4, 0, 0, 0, 0xC7], some (faultOut .A 3)) := by decide

/-- L1.1, with the allocator answering 0x100. -/
theorem test_ctorn :
    seen (issue .A 0x20000004 { fresh with allocAnswers := [some 0x100] }) = some ([1, 4, 0, 0, 0, 0], some (okOut .A 0)) ∧
      originAfter (issue .A 0x20000004 { fresh with allocAnswers := [some 0x100] }) = some (.allocated 0x100) ∧
      slotAfter (issue .A 0x20000004 { fresh with allocAnswers := [some 0x100] }) 3 = some [0, 0] := by decide

/-- L2.2, the allocation fails. -/
theorem test_ctorn_alloc_fails :
    seen (issue .A 0x20000004 { fresh with allocAnswers := [none] }) =
      some ([1, 0, 0, 0, 0, 0], some (failOut .A 2)) := by decide

/-- L2.2, of a non-empty ring. -/
theorem test_dtor :
    seen (issue .A 0x30000000 (ring 4 2 0)) = some ([0, 0, 0, 0, 0, 0], some (okOut .A 0)) ∧
      outputsAfter (issue .A 0x30000000 (ring 4 2 0)) = some [okOut .A 0, .free 0x100] := by decide

/-- L2.1, while the producer is held. -/
theorem test_dtor_while_held :
    seen (issue .A 0x30000000 { ring 1 0 0 with pend := 7 }) =
      some ([1, 1, 0, 0, 7, 0x1CB], some (faultOut .A 5)) := by decide

/-- L2.3, a row with HEAD = TAIL. -/
theorem test_isEmpty : seen (issue .C 0x40000000 (ring 4 2 2)) = some ([1, 4, 2, 2, 0, 0], some (okOut .C 1)) := by decide

/-- L2.1, not constructed. -/
theorem test_isEmpty_not_constructed :
    seen (issue .P 0x40000000 fresh) = some ([0, 0, 0, 0, 0, 0x209], some (faultOut .P 4)) := by decide

/-- L2.3, full with wrap. -/
theorem test_isFull : seen (issue .P 0x50000000 (ring 4 3 0)) = some ([1, 4, 3, 0, 0, 0], some (okOut .P 1)) := by decide

/-- L2.3, two queued and one free. -/
theorem test_isFull_not : seen (issue .A 0x50000000 (ring 4 2 0)) = some ([1, 4, 2, 0, 0, 0], some (okOut .A 0)) := by decide

/-- L2.4, on a full ring. -/
theorem test_headRef : seen (issue .P 0x60000000 (ring 4 3 0)) = some ([1, 4, 3, 0, 0, 0], some (okOut .P 3)) := by decide

/-- L2.4, at capacity 0. -/
theorem test_headRef_zero_capacity :
    seen (issue .P 0x60000000 (ring 0 0 0)) = some ([1, 0, 0, 0, 0, 0x30D], some (faultOut .P 6)) := by decide

/-- L2.4, with wrap. -/
theorem test_produceHead : seen (issue .P 0x70000000 (ring 4 3 1)) = some ([1, 4, 0, 1, 0, 0], some (okOut .P 0)) := by decide

/-- L2.4, on a full ring. -/
theorem test_produceHead_held : seen (issue .P 0x70000000 (ring 4 3 0)) = some ([1, 4, 3, 0, 7, 0], none) := by decide

/-- L2.4, on an empty ring. -/
theorem test_pushFront :
    seen (issue .P 0x80000000 (ring 4 0 0) 0 [0xE1, 0xE2]) = some ([1, 4, 1, 0, 0, 0], some (okOut .P 0)) ∧
      slotAfter (issue .P 0x80000000 (ring 4 0 0) 0 [0xE1, 0xE2]) 0 = some [0xE1, 0xE2] := by decide

/-- L2.4, on a full ring: the copy is made, the publication waits. -/
theorem test_pushFront_held :
    seen (issue .P 0x80000000 (ring 4 2 3) 0 [0xE1, 0xE2]) = some ([1, 4, 2, 3, 8, 0], none) ∧
      slotAfter (issue .P 0x80000000 (ring 4 2 3) 0 [0xE1, 0xE2]) 2 = some [0xE1, 0xE2] := by decide

/-- L2.4, the completion of a hold. -/
theorem test_completion :
    seen (issue .P 0x70000000 { ring 4 3 1 with pend := 7 }) = some ([1, 4, 0, 1, 0, 0], some (okOut .P 0)) := by decide

/-- L2.5. -/
theorem test_tailRef : seen (issue .C 0x90000000 (ring 4 3 1)) = some ([1, 4, 3, 1, 0, 0], some (okOut .C 1)) := by decide

/-- L2.5, on an empty ring. -/
theorem test_tailRef_empty :
    seen (issue .C 0x90000000 (ring 4 2 2)) = some ([1, 4, 2, 2, 0, 0x4B1], some (faultOut .C 8)) := by decide

/-- L2.5, with wrap. -/
theorem test_consumeTail : seen (issue .C 0xA0000000 (ring 4 1 3)) = some ([1, 4, 1, 0, 0, 0], some (okOut .C 0)) := by decide

/-- L2.5, on an empty ring. -/
theorem test_consumeTail_empty :
    seen (issue .C 0xA0000000 (ring 4 2 2)) = some ([1, 4, 2, 2, 0, 0], some (okOut .C 0)) := by decide

/-- L2.5, with wrap. -/
theorem test_popBack :
    seen (issue .C 0xB0000000 (ring 4 0 3)) = some ([1, 4, 0, 0, 0, 0], some (dataOut .C [0xB3, 0x13])) := by decide

/-- L2.5, on an empty ring. -/
theorem test_popBack_empty :
    seen (issue .C 0xB0000000 (ring 4 1 1)) = some ([1, 4, 1, 1, 0, 0x5B1], some (faultOut .C 8)) := by decide

/-- L2.6, to the same capacity. -/
theorem test_resize :
    outputsAfter (issue .A 0xC0000004 { ring 4 2 2 with allocAnswers := [some 0x200] }) =
        some [okOut .A 0, .free 0x100] ∧
      originAfter (issue .A 0xC0000004 { ring 4 2 2 with allocAnswers := [some 0x200] }) = some (.allocated 0x200) ∧
      slotAfter (issue .A 0xC0000004 { ring 4 2 2 with allocAnswers := [some 0x200] }) 3 = some [0, 0] := by decide

/-- L2.6, non-empty. -/
theorem test_resize_nonempty :
    seen (issue .A 0xC0000008 (ring 4 1 0)) = some ([1, 4, 1, 0, 0, 0], some (failOut .A 1)) := by decide

/-- L2.6, with the buffer drawn as section 0 says. -/
theorem test_provide :
    seen (issue .A 0xD0000003 { ring 4 0 0 with bufAnswers := [[[0xA0, 0], [0xA1, 0], [0xA2, 0]]] } 0x300) =
        some ([1, 3, 0, 0, 0, 0], some (okOut .A 0)) ∧
      originAfter (issue .A 0xD0000003 { ring 4 0 0 with bufAnswers := [[[0xA0, 0], [0xA1, 0], [0xA2, 0]]] } 0x300) =
        some (.provided 0x300) ∧
      slotAfter (issue .A 0xD0000003 { ring 4 0 0 with bufAnswers := [[[0xA0, 0], [0xA1, 0], [0xA2, 0]]] } 0x300) 2 =
        some [0xA2, 0] := by decide

/-- L2.6, null and non-empty: INVALID comes first. -/
theorem test_provide_null_and_nonempty :
    seen (issue .A 0xD0000003 (ring 4 1 0)) = some ([1, 4, 1, 0, 0, 0], some (failOut .A 3)) := by decide

/-- L2.7, the producer reads its head slot. -/
theorem test_slotRd :
    seen (issue .P 0xE1000002 (ring 4 2 0)) = some ([1, 4, 2, 0, 0, 0], some (dataOut .P [0x12, 0])) := by decide

/-- L2.7, out of range on an empty ring: INDEX_RANGE comes before EMPTY_TAIL. -/
theorem test_slotRd_out_of_range :
    seen (issue .C 0xE0000007 (ring 4 1 1)) = some ([1, 4, 1, 1, 0, 0x72F], some (faultOut .C 7)) := by decide

/-- L2.7, the producer writes its head slot. -/
theorem test_slotWr :
    seen (issue .P 0xF0000002 (ring 4 2 0) 0 [0x55]) = some ([1, 4, 2, 0, 0, 0], some (okOut .P 0)) ∧
      slotAfter (issue .P 0xF0000002 (ring 4 2 0) 0 [0x55]) 2 = some [0x55, 0x12] := by decide

/-- L2.7, the producer writes the tail slot. -/
theorem test_slotWr_ownership :
    seen (issue .P 0xF0000000 (ring 4 2 0) 0 [0x55]) = some ([1, 4, 2, 0, 0, 0x793], some (faultOut .P 9)) := by decide

/-- L2.1, the order of the checks: illegal before wrong port. -/
theorem test_illegal_before_wrong_port :
    seen (issue .C 0x30000001 fresh) = some ([0, 0, 0, 0, 0, 0x1A3], some (faultOut .C 1)) := by decide

/-- L2.8, a step after a fault. -/
theorem test_halted :
    seen (issue .C 0x40000000 { ring 0 0 0 with fault := 0x30D }) = some ([1, 0, 0, 0, 0, 0x30D], none) := by decide

/-- L2.8, a hardware reset. -/
theorem test_reset :
    seen (step { ring 4 3 0 with pend := 7, fault := 0x30D, schedule := [.reset] }) =
      some ([0, 0, 0, 0, 0, 0], none) := by decide

/-- The word placed by `withFetchWord` is the next command to run. -/
theorem test_withFetchWord :
    (nextState (step (State.reset.withFetchWord 32 0x10000000))).map (fun s => phaseBit s.phase) = some 1 ∧
      (nextState (step (State.reset.withFetchWord 32 0xE1000002))).map (fun s => s.fault.toNat) = some 0x709 := by decide

/-! ### Witnesses: the hypotheses of each statement can be met, clause by clause -/

/-- A state in which port `p` issues `w` next, the ring being `s`. -/
def toIssue (p : Port) (w : CmdWord) (s : State) (arg : Handle := 0) (data : List Word := []) : State :=
  issuing p [{ word := w, arg := arg, dataIn := data }] s

/-- The state with a command on the bus. -/
def onBus (p : Port) (s : State) (arg : Handle := 0) (data : List Word := []) : State :=
  { s with bus := { port := p, cmd := { word := 0xE0000000, arg := arg, dataIn := data } } }

theorem witness_DecodeAfterEncode :
    WellFormed .popBack = true ∧ WellFormed (.ctorn (2 ^ 24 - 1)) = true ∧ WellFormed (.slotWr (2 ^ 24 - 1) 15) = true := by
  decide

theorem witness_EncodeAfterDecode :
    decode 0xA0000000 = .ok .consumeTail ∧ decode 0xD0FFFFFF = .ok (.provide (2 ^ 24 - 1)) ∧
      decode 0xEF000000 = .ok (.slotRd 0 15) := by decide

theorem witness_StepRunsTheDecodedCommand :
    Issues (toIssue .C 0xB0000000 (ring 4 3 1)) .C { word := 0xB0000000, arg := 0, dataIn := [] } [] [] ∧
      decode 0xB0000000 = .ok .popBack := by decide

theorem witness_IllegalWordsFault_opcode :
    Issues (toIssue .P 0x0FFFFFFF fresh) .P { word := 0x0FFFFFFF, arg := 0, dataIn := [] } [] [] ∧
      (0x0FFFFFFF : CmdWord).toNat / 2 ^ 28 = 0 := by decide

theorem witness_IllegalWordsFault_format_C :
    Issues (toIssue .A 0x10000001 fresh) .A { word := 0x10000001, arg := 0, dataIn := [] } [] [] ∧
      (0x10000001 : CmdWord).toNat / 2 ^ 28 = 0x1 ∧ (0x10000001 : CmdWord).toNat % 2 ^ 28 ≠ 0 := by decide

theorem witness_IllegalWordsFault_format_N :
    Issues (toIssue .A 0xDF000000 fresh) .A { word := 0xDF000000, arg := 0, dataIn := [] } [] [] ∧
      (0xDF000000 : CmdWord).toNat / 2 ^ 28 = 0xD ∧ (0xDF000000 : CmdWord).toNat / 2 ^ 24 % 16 ≠ 0 := by decide

/-- A held producer whose next step is due. -/
def heldRing (cap head tail : Nat) (pend : BitVec 4) : State :=
  { ring cap head tail with pend := pend, schedule := [.step .P] }

theorem witness_HeldProduceCompletes_not_full :
    (heldRing 4 3 1 8).schedule = [.step .P] ∧ (heldRing 4 3 1 8).fault.getLsbD 0 = false ∧ (heldRing 4 3 1 8).pend = 0x8 ∧
      ¬Full (heldRing 4 3 1 8) := by decide

theorem witness_HeldProduceCompletes_full :
    (heldRing 1 0 0 7).schedule = [.step .P] ∧ (heldRing 1 0 0 7).fault.getLsbD 0 = false ∧ (heldRing 1 0 0 7).pend = 0x7 ∧
      Full (heldRing 1 0 0 7) := by decide

/-- A halted ring. -/
def haltedRing (e : Event) : State := { ring 4 1 1 with fault := 0x4B1, schedule := [e] }

theorem witness_FaultLastsUntilReset_step :
    (haltedRing (.step .C)).fault.getLsbD 0 = true ∧ (haltedRing (.step .C)).schedule = [.step .C] := by decide

theorem witness_FaultLastsUntilReset_reset :
    (haltedRing .reset).fault.getLsbD 0 = true ∧ (haltedRing .reset).schedule = [.reset] := by decide

theorem witness_HardwareResetSetsEveryRegister : (haltedRing .reset).schedule = .reset :: [] := rfl

/-- The states of section 0 meet the invariant, degenerate capacities among them. -/
theorem witness_Inv : (ring 0 0 0).Inv ∧ (ring 1 0 0).Inv ∧ (ring 2 1 0).Inv ∧ (ring 4 3 1).Inv :=
  ⟨by decide, by decide, by decide, by decide⟩

theorem witness_StepKeepsInvariant :
    (toIssue .P 0x80000000 (ring 4 3 1)).Inv ∧ ∃ t, step (toIssue .P 0x80000000 (ring 4 3 1)) = .next t :=
  ⟨by decide, _, rfl⟩

theorem witness_InvariantStatesNeverStop : (toIssue .C 0xEF000003 (ring 4 0 3)).Inv := by decide

theorem witness_InspectionNumbers :
    (ring 4 2 0).Inv ∧ InSlotSpace (ring 4 2 0) 3 1 ∧ ¬InSlotSpace (ring 4 2 0) 4 0 ∧ ¬InSlotSpace (ring 4 2 0) 3 2 := by
  decide

theorem witness_ParametersNeverChange : ∃ t, step (toIssue .A 0xC0000000 (ring 4 2 2)) = .next t := ⟨_, rfl⟩

theorem witness_InputsAreTakenInOrder : ∃ t, step (toIssue .A 0x30000000 (ring 4 2 2)) = .next t := ⟨_, rfl⟩

theorem witness_EveryIssuedCommandIsAnsweredOrHeld :
    Issues (toIssue .P 0x70000000 (ring 2 1 0)) .P { word := 0x70000000, arg := 0, dataIn := [] } [] [] ∧
      ∃ t, step (toIssue .P 0x70000000 (ring 2 1 0)) = .next t := ⟨by decide, _, rfl⟩

theorem witness_ResponsesHaveTheirFormat_ok :
    (toIssue .C 0xB0000000 (ring 4 3 1)).Inv ∧ ∃ t, step (toIssue .C 0xB0000000 (ring 4 3 1)) = .next t ∧
      t.outputs ≠ (toIssue .C 0xB0000000 (ring 4 3 1)).outputs ∧ t.outputs.head? = some (dataOut .C [0xB1, 0x11]) :=
  ⟨by decide, _, rfl, by decide, by decide⟩

theorem witness_ResponsesHaveTheirFormat_fail :
    (toIssue .A 0xC0000008 (ring 4 3 1)).Inv ∧ ∃ t, step (toIssue .A 0xC0000008 (ring 4 3 1)) = .next t ∧
      t.outputs ≠ (toIssue .A 0xC0000008 (ring 4 3 1)).outputs ∧ t.outputs.head? = some (failOut .A 1) :=
  ⟨by decide, _, rfl, by decide, by decide⟩

theorem witness_ResponsesHaveTheirFormat_fault :
    (toIssue .C 0x90000000 (ring 4 1 1)).Inv ∧ ∃ t, step (toIssue .C 0x90000000 (ring 4 1 1)) = .next t ∧
      t.outputs ≠ (toIssue .C 0x90000000 (ring 4 1 1)).outputs ∧ t.outputs.head? = some (faultOut .C 8) :=
  ⟨by decide, _, rfl, by decide, by decide⟩

theorem witness_UnmarkedPortsFault : (onBus .A (ring 4 2 0)).bus.port ∉ ports (.slotRd 0 0) := by decide

theorem witness_PhaseAndQuiescenceFaults_constructed :
    (onBus .A (ring 4 0 0)).bus.port ∈ ports .ctor0 ∧ IsConstructor .ctor0 ∧ (onBus .A (ring 4 0 0)).phase = .live :=
  ⟨by decide, .inl rfl, rfl⟩

theorem witness_PhaseAndQuiescenceFaults_unconstructed :
    (onBus .P fresh).bus.port ∈ ports .isEmpty ∧ ¬IsConstructor .isEmpty ∧ (onBus .P fresh).phase = .unconstructed :=
  ⟨by decide, nofun, rfl⟩

theorem witness_PhaseAndQuiescenceFaults_held :
    (onBus .A (heldRing 1 0 0 7)).bus.port ∈ ports (.resize 8) ∧ NeedsQuiescence (.resize 8) ∧
      (onBus .A (heldRing 1 0 0 7)).phase = .live ∧ (onBus .A (heldRing 1 0 0 7)).pend ≠ 0 :=
  ⟨by decide, .inr (.inl ⟨8, rfl⟩), rfl, by decide⟩

theorem witness_FaultEntryIsPreciseAndHalts :
    ∃ t r, step (toIssue .C 0x90000000 (ring 4 1 1)) = .next t ∧
      t.outputs = .response .C r :: (toIssue .C 0x90000000 (ring 4 1 1)).outputs ∧ r.status = 2 :=
  ⟨_, _, rfl, rfl, rfl⟩

theorem witness_NextAndPrevIndex :
    (1 : Idx) ≠ 0 ∧ (0 : Idx).toNat < (1 : Idx).toNat ∧ (3 : Idx).toNat < (4 : Idx).toNat ∧
      (16777214 : Idx).toNat < (16777215 : Idx).toNat := by decide

theorem witness_OccupancyEmptyAndFull :
    IndexRange (ring 0 0 0) ∧ (ring 0 0 0).cap.toNat ≤ 1 ∧ IndexRange (ring 1 0 0) ∧ (ring 1 0 0).cap.toNat ≤ 1 ∧
      IndexRange (ring 2 1 0) ∧ 2 ≤ (ring 2 1 0).cap.toNat := by decide

theorem witness_OneWriterPerIndex :
    (∃ t, step (toIssue .P 0x70000000 (ring 4 3 1)) = .next t) ∧ (∃ t, step (toIssue .C 0xA0000000 (ring 4 1 3)) = .next t) ∧
      (∃ t, step (toIssue .A 0xC0000000 (ring 4 2 2)) = .next t) := ⟨⟨_, rfl⟩, ⟨_, rfl⟩, ⟨_, rfl⟩⟩

theorem witness_RegisterWriters : ∃ t, exec .consumeTail (onBus .C (ring 4 1 3)) = .next t := ⟨_, rfl⟩

/-- CTOR0 on a ring whose storage and phase are as R37 has them. -/
theorem witness_RegisterWriters_ctor0 :
    (∃ t, exec .ctor0 (onBus .A fresh) = .next t) ∧ StorageOk (onBus .A fresh) ∧ PhaseOk (onBus .A fresh) :=
  ⟨⟨_, rfl⟩, by decide, by decide⟩

theorem witness_Ctor0Constructs : (onBus .A fresh).bus.port = .A ∧ (onBus .A fresh).phase = .unconstructed := by decide

/-- The fresh ring with the allocator's next answer fixed, and the Admin's command on the bus. -/
def toAllocate (a : Option Handle) (s : State) : State := onBus .A { s with allocAnswers := [a] }

theorem witness_CtornConstructs_zero :
    (onBus .A fresh).bus.port = .A ∧ (onBus .A fresh).phase = .unconstructed ∧ (0 : Nat) < 2 ^ 24 := by decide

theorem witness_CtornConstructs_alloc_fails :
    (toAllocate none fresh).bus.port = .A ∧ (toAllocate none fresh).phase = .unconstructed ∧
      allocAnswer (toAllocate none fresh) 1 = none := by decide

theorem witness_CtornConstructs_alloc :
    (toAllocate (some 0x100) fresh).bus.port = .A ∧ (toAllocate (some 0x100) fresh).phase = .unconstructed ∧
      allocAnswer (toAllocate (some 0x100) fresh) (2 ^ 24 - 1) = some 0x100 := by decide

theorem witness_AllocatedHandlesAreFresh : allocAnswer (toAllocate (some 0x200) (ring 4 2 2)) 8 = some 0x200 := by decide

theorem witness_DtorDestroys :
    (onBus .A (ring 4 2 0)).bus.port = .A ∧ (onBus .A (ring 4 2 0)).phase = .live ∧ (onBus .A (ring 4 2 0)).pend = 0 := by
  decide

theorem witness_IsEmptyAnswers : (onBus .C (ring 1 0 0)).phase = .live := rfl

theorem witness_IsFullAnswers : (onBus .A (ring 0 0 0)).phase = .live := rfl

theorem witness_HeadRefAnswers :
    ((onBus .P (ring 0 0 0)).bus.port = .P ∧ (onBus .P (ring 0 0 0)).phase = .live ∧ (onBus .P (ring 0 0 0)).cap = 0) ∧
      ((onBus .P (ring 1 0 0)).bus.port = .P ∧ (onBus .P (ring 1 0 0)).phase = .live ∧ (onBus .P (ring 1 0 0)).cap ≠ 0) := by
  decide

theorem witness_ProduceHeadPublishesOrHolds :
    (onBus .P (ring 0 0 0)).cap = 0 ∧ ((onBus .P (ring 2 0 0)).cap ≠ 0 ∧ ¬Full (onBus .P (ring 2 0 0))) ∧
      ((onBus .P (ring 1 0 0)).cap ≠ 0 ∧ Full (onBus .P (ring 1 0 0))) ∧
      (onBus .P (ring 2 0 0)).bus.port = .P ∧ (onBus .P (ring 2 0 0)).phase = .live := by decide

theorem witness_PushFrontCopiesThenPublishesOrHolds :
    let s := onBus .P (ring 2 1 1) 0 [0xE1, 0xE2]
    let f := onBus .P (ring 1 0 0) 0 [0xE1, 0xE2]
    (s.bus.port = .P ∧ s.phase = .live ∧ s.cap ≠ 0 ∧ IndexRange s ∧ StorageOk s ∧ ¬Full s ∧
        s.params.blockOk s.bus.cmd.dataIn = true) ∧
      (f.bus.port = .P ∧ f.phase = .live ∧ f.cap ≠ 0 ∧ IndexRange f ∧ StorageOk f ∧ Full f) := by decide

theorem witness_TailRefAnswers :
    ((onBus .C (ring 0 0 0)).phase = .live ∧ (onBus .C (ring 0 0 0)).head = (onBus .C (ring 0 0 0)).tail) ∧
      ((onBus .C (ring 2 0 1)).bus.port = .C ∧ (onBus .C (ring 2 0 1)).phase = .live ∧
        (onBus .C (ring 2 0 1)).head ≠ (onBus .C (ring 2 0 1)).tail) := by decide

theorem witness_ConsumeTailRetires :
    ((onBus .C (ring 0 0 0)).phase = .live ∧ (onBus .C (ring 0 0 0)).head = (onBus .C (ring 0 0 0)).tail) ∧
      ((onBus .C (ring 4 1 3)).bus.port = .C ∧ (onBus .C (ring 4 1 3)).phase = .live ∧
        (onBus .C (ring 4 1 3)).head ≠ (onBus .C (ring 4 1 3)).tail) := by decide

theorem witness_PopBackCopiesAndRetires :
    let s := onBus .C (ring 4 0 3)
    let e := onBus .C (ring 0 0 0)
    (s.bus.port = .C ∧ s.phase = .live ∧ s.head ≠ s.tail ∧ IndexRange s ∧ StorageOk s) ∧
      (e.bus.port = .C ∧ e.phase = .live ∧ e.head = e.tail) := by decide

theorem witness_ResizeReplacesTheStorage :
    let e := onBus .A (ring 4 1 0)
    let n := toAllocate none (ring 4 2 2)
    let a := toAllocate (some 0x200) (ring 4 2 2)
    (e.bus.port = .A ∧ e.phase = .live ∧ e.pend = 0 ∧ e.head ≠ e.tail) ∧
      (n.bus.port = .A ∧ n.phase = .live ∧ n.pend = 0 ∧ n.head = n.tail ∧ allocAnswer n 1 = none) ∧
      (a.bus.port = .A ∧ a.phase = .live ∧ a.pend = 0 ∧ a.head = a.tail ∧ allocAnswer a (2 ^ 24 - 1) = some 0x200) := by
  decide

theorem witness_ProvideTakesTheBuffer :
    let z := onBus .A (ring 4 1 0)
    let e := onBus .A (ring 4 1 0) 0x300
    let a := onBus .A { ring 4 2 2 with bufAnswers := [[[0xA0, 0]]] } 0x300
    (z.bus.port = .A ∧ z.phase = .live ∧ z.pend = 0 ∧ z.bus.cmd.arg = 0) ∧
      (e.bus.port = .A ∧ e.phase = .live ∧ e.pend = 0 ∧ e.bus.cmd.arg ≠ 0 ∧ e.head ≠ e.tail) ∧
      (a.bus.port = .A ∧ a.phase = .live ∧ a.pend = 0 ∧ a.bus.cmd.arg ≠ 0 ∧ a.head = a.tail ∧
        (a.bufAnswers.headD [])[0]? = some [0xA0, 0]) := by decide

/-- Every clause of the two slot statements: out of range by slot and by word, empty, not the owner, the producer's and the
consumer's own slot at the last word. -/
theorem witness_SlotRdReadsOneWord :
    let p := onBus .P (ring 4 2 0)
    let c := onBus .C (ring 4 2 0)
    let e := onBus .C (ring 4 1 1)
    (p.bus.port ∈ [Port.P, Port.C] ∧ p.phase = .live ∧ ¬InSlotSpace p 4 0 ∧ ¬InSlotSpace p 2 2) ∧
      (InSlotSpace e 1 0 ∧ e.bus.port = .C ∧ e.head = e.tail) ∧
      (InSlotSpace c 1 0 ∧ ¬(c.bus.port = .C ∧ c.head = c.tail) ∧ ¬OwnSlot c 1) ∧
      (ParamsOk p ∧ StorageOk p ∧ InSlotSpace p 2 1 ∧ OwnSlot p 2) ∧
      (ParamsOk c ∧ StorageOk c ∧ InSlotSpace c 0 1 ∧ OwnSlot c 0) := by decide

theorem witness_SlotWrWritesOneWord :
    let p := onBus .P (ring 4 1 1) 0 [0x55]
    let c := onBus .C (ring 4 0 3) 0 [0]
    let e := onBus .C (ring 4 1 1)
    (p.bus.port ∈ [Port.P, Port.C] ∧ p.phase = .live ∧ ¬InSlotSpace p 4 0 ∧ ¬InSlotSpace p 1 2) ∧
      (InSlotSpace e 1 0 ∧ e.bus.port = .C ∧ e.head = e.tail) ∧
      (InSlotSpace c 1 0 ∧ ¬(c.bus.port = .C ∧ c.head = c.tail) ∧ ¬OwnSlot c 1) ∧
      (ParamsOk p ∧ StorageOk p ∧ InSlotSpace p 1 1 ∧ OwnSlot p 1 ∧ (0x55 : Nat) < 2 ^ p.params.wordBits) ∧
      (ParamsOk c ∧ StorageOk c ∧ InSlotSpace c 3 1 ∧ OwnSlot c 3) := by decide

/-- A state that breaks R37: it has no storage. -/
def noStorage (p : Port) : State := onBus p { ring 4 2 0 with storage := Memory.empty }

theorem witness_StopsByName :
    Accepted (.ctorn (2 ^ 24)) (onBus .A fresh) ∧ Accepted (.resize (2 ^ 24)) (onBus .A (ring 4 2 2)) ∧
      Accepted (.provide (2 ^ 24)) (onBus .A (ring 4 2 2)) ∧
      (Accepted .pushFront (noStorage .P) ∧ (noStorage .P).cap ≠ 0 ∧ (noStorage .P).storage.size ≤ (noStorage .P).head.toNat) ∧
      (Accepted .popBack (noStorage .C) ∧ (noStorage .C).head ≠ (noStorage .C).tail ∧
        (noStorage .C).storage.size ≤ (noStorage .C).tail.toNat) ∧
      (InSlotSpace (noStorage .P) 2 1 ∧ OwnSlot (noStorage .P) 2 ∧ (noStorage .P).storage.size ≤ 2) := by
  refine ⟨?_, ?_, ?_, ⟨?_, by decide, by decide⟩, ⟨?_, by decide, by decide⟩, by decide⟩
  all_goals
    refine ⟨by decide, ?_, ?_, ?_⟩ <;> intro h <;>
      first
      | rfl
      | (exfalso; revert h; simp [IsConstructor])

theorem witness_PublishingAppendsToTheQueue :
    (toIssue .P 0x70000000 (ring 4 3 1)).Inv ∧ (∃ t, step (toIssue .P 0x70000000 (ring 4 3 1)) = .next t ∧
        t.head ≠ (toIssue .P 0x70000000 (ring 4 3 1)).head) ∧
      (toIssue .P 0x70000000 (ring 4 3 0)).Inv ∧ (∃ t, step (toIssue .P 0x70000000 (ring 4 3 0)) = .next t ∧
        t.head = (toIssue .P 0x70000000 (ring 4 3 0)).head) :=
  ⟨by decide, ⟨_, rfl, by decide⟩, by decide, ⟨_, rfl, by decide⟩⟩

theorem witness_RetiringDropsTheOldestBlock :
    (toIssue .C 0xA0000000 (ring 4 1 3)).Inv ∧ (∃ t, step (toIssue .C 0xA0000000 (ring 4 1 3)) = .next t ∧
        t.tail ≠ (toIssue .C 0xA0000000 (ring 4 1 3)).tail) ∧
      (toIssue .C 0xF0000003 (ring 4 1 3)).Inv ∧ (∃ t, step (toIssue .C 0xF0000003 (ring 4 1 3)) = .next t ∧
        t.tail = (toIssue .C 0xF0000003 (ring 4 1 3)).tail) :=
  ⟨by decide, ⟨_, rfl, by decide⟩, by decide, ⟨_, rfl, by decide⟩⟩

theorem witness_AdminKeepsOrEmptiesTheQueue :
    (toIssue .A 0x30000000 (ring 4 2 0)).Inv ∧ nextEvent (toIssue .A 0x30000000 (ring 4 2 0)) ≠ .step .P ∧
      nextEvent (toIssue .A 0x30000000 (ring 4 2 0)) ≠ .step .C ∧
      ∃ t, step (toIssue .A 0x30000000 (ring 4 2 0)) = .next t := ⟨by decide, by decide, by decide, _, rfl⟩

theorem witness_CapacityOneHoldsForEver :
    (heldRing 1 0 0 7).Inv ∧ (heldRing 1 0 0 7).cap = 1 ∧ (heldRing 1 0 0 7).pend ≠ 0 ∧
      nextEvent (heldRing 1 0 0 7) ≠ .reset ∧ ∃ t, step (heldRing 1 0 0 7) = .next t :=
  ⟨by decide, by decide, by decide, by decide, _, rfl⟩

theorem witness_HeldProducerFreezesTheRing :
    (heldRing 4 3 1 7).Inv ∧ (heldRing 4 3 1 7).pend ≠ 0 ∧ nextEvent (heldRing 4 3 1 7) ≠ .reset ∧
      ∃ t, step (heldRing 4 3 1 7) = .next t := ⟨by decide, by decide, by decide, _, rfl⟩

theorem witness_EachSidesViewIsStable :
    ((toIssue .P 0x70000000 (ring 2 1 0)).Inv ∧ (ring 2 1 0).head ≠ (ring 2 1 0).tail ∧
        ∃ t, step (toIssue .P 0x70000000 (ring 2 1 0)) = .next t) ∧
      ((toIssue .C 0xA0000000 (ring 4 2 0)).Inv ∧ ¬Full (ring 4 2 0) ∧
        ∃ t, step (toIssue .C 0xA0000000 (ring 4 2 0)) = .next t) :=
  ⟨⟨by decide, by decide, _, rfl⟩, by decide, by decide, _, rfl⟩

theorem witness_QueriesHaveNoSideEffect :
    (∃ t u, exec .headRef (onBus .P (ring 1 0 0)) = .next t ∧ exec .headRef t = .next u) ∧
      (∃ t u, exec .tailRef (onBus .C (ring 0 0 0)) = .next t ∧ exec .tailRef t = .next u) :=
  ⟨⟨_, _, rfl, rfl⟩, ⟨_, _, rfl, rfl⟩⟩

/-- One failure of each reason, and both kinds of ALLOC. -/
theorem witness_FailuresAndTheirReasons :
    (∃ t r old, exec (.resize 8) (onBus .A (ring 4 1 0)) = .next t ∧ t.outputs = .response .A r :: old ∧
        t.outputs ≠ (onBus .A (ring 4 1 0)).outputs ∧ r.status = 1 ∧ r.code = 1) ∧
      (∃ t r old, exec (.resize 8) (toAllocate none (ring 4 2 2)) = .next t ∧ t.outputs = .response .A r :: old ∧
        t.outputs ≠ (toAllocate none (ring 4 2 2)).outputs ∧ r.status = 1 ∧ r.code = 2) ∧
      (∃ t r old, exec (.ctorn 4) (toAllocate none fresh) = .next t ∧ t.outputs = .response .A r :: old ∧
        t.outputs ≠ (toAllocate none fresh).outputs ∧ r.status = 1 ∧ r.code = 2) ∧
      (∃ t r old, exec (.provide 3) (onBus .A (ring 4 1 0)) = .next t ∧ t.outputs = .response .A r :: old ∧
        t.outputs ≠ (onBus .A (ring 4 1 0)).outputs ∧ r.status = 1 ∧ r.code = 3) :=
  ⟨⟨_, _, _, rfl, rfl, by decide, rfl, rfl⟩, ⟨_, _, _, rfl, rfl, by decide, rfl, rfl⟩,
    ⟨_, _, _, rfl, rfl, by decide, rfl, rfl⟩, ⟨_, _, _, rfl, rfl, by decide, rfl, rfl⟩⟩

theorem witness_PushedBlockIsPopped :
    (ring 2 1 1).Inv ∧ (ring 2 1 1).phase = .live ∧ (ring 2 1 1).head = (ring 2 1 1).tail ∧ 2 ≤ (ring 2 1 1).cap.toNat ∧
      (ring 2 1 1).params.blockOk [0xC1, 0xC2] = true := by decide

theorem witness_PushFrontEqualsItsSequence :
    ((ring 4 3 1).Inv ∧ (ring 4 3 1).phase = .live ∧ (ring 4 3 1).cap ≠ 0 ∧ (ring 4 3 1).pend = 0 ∧ (ring 4 3 1).fault = 0) ∧
      ((ring 1 0 0).Inv ∧ (ring 1 0 0).phase = .live ∧ (ring 1 0 0).cap ≠ 0 ∧ (ring 1 0 0).pend = 0 ∧
        (ring 1 0 0).fault = 0) := ⟨by decide, by decide⟩

theorem witness_PopBackEqualsItsSequence :
    (ring 4 0 3).Inv ∧ (ring 4 0 3).phase = .live ∧ (ring 4 0 3).head ≠ (ring 4 0 3).tail ∧ (ring 4 0 3).fault = 0 := by
  decide

theorem witness_OnlyTheOwnerReadsASlot :
    ((onBus .P (ring 4 2 0)).Inv ∧ (onBus .P (ring 4 2 0)).phase = .live ∧ (onBus .P (ring 4 2 0)).bus.port = .P ∧
        ownerOf (onBus .P (ring 4 2 0)) 2 = some .P) ∧
      ((onBus .C (ring 4 2 0)).Inv ∧ (onBus .C (ring 4 2 0)).bus.port = .C ∧ ownerOf (onBus .C (ring 4 2 0)) 0 = some .C ∧
        ownerOf (onBus .C (ring 4 2 0)) 1 = none) := ⟨by decide, by decide⟩

theorem witness_NeitherSideWritesTheOthersSlots :
    ((toIssue .P 0x80000000 (ring 4 2 0)).Inv ∧ (0 : Nat) ≠ (ring 4 2 0).head.toNat ∧
        ∃ t, step (toIssue .P 0x80000000 (ring 4 2 0)) = .next t) ∧
      ((toIssue .C 0xF0000000 (ring 4 2 0)).Inv ∧ (2 : Nat) ≠ (ring 4 2 0).tail.toNat ∧
        ∃ t, step (toIssue .C 0xF0000000 (ring 4 2 0)) = .next t) ∧
      ((toIssue .C 0xF0000001 (ring 4 1 1)).Inv ∧ (ring 4 1 1).head = (ring 4 1 1).tail ∧
        ∃ t, step (toIssue .C 0xF0000001 (ring 4 1 1)) = .next t) :=
  ⟨⟨by decide, by decide, _, rfl⟩, ⟨by decide, by decide, _, rfl⟩, by decide, by decide, _, rfl⟩

/-- A held producer on a full ring, with a CONSUME_TAIL waiting. -/
def heldFull : State :=
  { ring 2 1 0 with
    pend := 7, queueC := [{ word := 0xA0000000, arg := 0, dataIn := [] }], schedule := [.step .C, .step .P] }

theorem witness_ConsumingUnblocksTheHeldProduce :
    heldFull.Inv ∧ heldFull.pend ≠ 0 ∧ heldFull.fault = 0 ∧ 2 ≤ heldFull.cap.toNat ∧ Full heldFull ∧
      heldFull.queueC = { word := 0xA0000000, arg := 0, dataIn := [] } :: [] ∧
      heldFull.schedule = .step .C :: .step .P :: [] := by decide

/-- An enabled port and one with nothing to issue. -/
theorem witness_EveryRunIsWeaklyFair_picks :
    (nextEvent (toIssue .C 0xA0000000 (ring 4 1 3)) = .step .C ∧ Enabled .C (toIssue .C 0xA0000000 (ring 4 1 3)) ∧
        ∃ t, step (toIssue .C 0xA0000000 (ring 4 1 3)) = .next t) ∧
      (nextEvent (heldRing 1 0 0 7) = .step .P ∧ ¬Enabled .P (heldRing 1 0 0 7) ∧
        ∃ t, step (heldRing 1 0 0 7) = .next t) :=
  ⟨⟨by decide, by decide, _, rfl⟩, by decide, by decide, _, rfl⟩

/-- The rotation of the ports (log 16). -/
theorem test_rotation : (List.range 4).map fairPort = [.P, .C, .A, .P] := by decide

/-! A state in which no port has anything to do runs on for ever, whatever the scheduler picks. -/

/-- No command left, no hold that could be completed, no reset to come. -/
abbrev Idle (s : State) : Prop :=
  (s.queueP = [] ∧ s.queueC = [] ∧ s.queueA = []) ∧ (s.pend = 0 ∨ isFull s = true) ∧ .reset ∉ s.schedule

def idle (s : State) : Nat → State
  | 0 => s
  | k + 1 => takeEvent (idle s k)

/-- One step, and then nothing more to do. -/
def afterOne (s t : State) : Nat → State
  | 0 => s
  | k + 1 => idle t k

theorem idle_step {s : State} (h : Idle s) : step s = .next (takeEvent s) ∧ nextEvent s ≠ .reset ∧ Idle (takeEvent s) := by
  obtain ⟨hq, hp, hr⟩ := h
  have hu : Event.reset ∉ nextEvent s :: (takeEvent s).schedule := by
    rw [← upcoming_eq]
    cases hs : s.schedule with
    | nil => rw [upcoming_of_nil hs]; exact reset_not_mem_drawnTurn _
    | cons e rest => rw [upcoming_of_cons hs, ← hs]; exact hr
  have hn : nextEvent s ≠ .reset := fun e => hu (e ▸ List.mem_cons_self)
  refine ⟨?_, hn, hq, hp, fun h => hu (List.mem_cons_of_mem _ h)⟩
  cases he : nextEvent s with
  | reset => exact absurd he hn
  | step p =>
    rw [step_of_port he]
    have hqp : queueOf p (takeEvent s) = [] := by
      cases p
      · exact hq.1
      · exact hq.2.1
      · exact hq.2.2
    rcases portStep_cases p (takeEvent s) with ⟨hs, -⟩ | ⟨-, -, -, h0, hf⟩ | ⟨c, rest, hc, -⟩
    · exact hs
    · rcases hp with hp | hp
      · exact absurd hp h0
      · exact absurd (hp.symm.trans hf) nofun
    · rw [hqp] at hc
      cases hc

theorem witness_InputsAreTakenInOrder_drawn : (ring 4 2 2).schedule = [] ∧ ∃ t, step (ring 4 2 2) = .next t :=
  ⟨rfl, _, (idle_step (by decide)).1⟩

theorem idle_idle {s : State} (h : Idle s) (k : Nat) : Idle (idle s k) ∧ (idle s k).ring = s.ring := by
  induction k with
  | zero => exact ⟨h, rfl⟩
  | succ k ih => exact ⟨(idle_step ih.1).2.2, ih.2⟩

theorem idle_run {s : State} (h : Idle s) : IsRun (idle s) := fun k => (idle_step (idle_idle h k).1).1

theorem afterOne_run {s t : State} (hs : step s = .next t) (h : Idle t) : IsRun (afterOne s t)
  | 0 => hs
  | k + 1 => idle_run h k

/-- The producer is held on a ring that is not full, and is picked; and the state after that. -/
def heldThenFree : State := heldRing 4 3 1 7

def freed : State := (nextState (step heldThenFree)).getD heldThenFree

theorem witness_EveryRunIsWeaklyFair : IsRun (afterOne heldThenFree freed) := afterOne_run rfl (by decide)

theorem witness_EveryRunIsWeaklyFair_held :
    IsRun (afterOne heldThenFree freed) ∧ (afterOne heldThenFree freed 0).Inv ∧ (afterOne heldThenFree freed 0).pend ≠ 0 ∧
      ¬Full (afterOne heldThenFree freed 0) ∧ ∀ j, 0 ≤ j → nextEvent (afterOne heldThenFree freed j) ≠ .reset := by
  refine ⟨witness_EveryRunIsWeaklyFair, by decide, by decide, by decide, fun j _ => ?_⟩
  cases j with
  | zero => decide
  | succ j => exact (idle_step (idle_idle (s := freed) (by decide) j).1).2.1

theorem witness_RunsEndHaltOrHang_held :
    IsRun (idle (heldRing 1 0 0 7)) ∧ (idle (heldRing 1 0 0 7) 0).Inv ∧ (idle (heldRing 1 0 0 7) 0).pend ≠ 0 ∧
      Full (idle (heldRing 1 0 0 7) 0) ∧
      ∀ j, 0 ≤ j → nextEvent (idle (heldRing 1 0 0 7) j) ≠ .reset ∧
        (idle (heldRing 1 0 0 7) j).tail = (idle (heldRing 1 0 0 7) 0).tail := by
  have hi : Idle (heldRing 1 0 0 7) := by decide
  refine ⟨idle_run hi, by decide, by decide, by decide, fun j _ => ⟨(idle_step (idle_idle hi j).1).2.1, ?_⟩⟩
  exact congrArg RingState.tail (idle_idle hi j).2

theorem witness_RunsEndHaltOrHang :
    IsRun (idle (heldRing 1 0 0 7)) ∧ ∀ k, nextEvent (idle (heldRing 1 0 0 7) k) ≠ .reset :=
  ⟨witness_RunsEndHaltOrHang_held.1, fun k => (witness_RunsEndHaltOrHang_held.2.2.2.2 k (Nat.zero_le k)).1⟩

theorem witness_UnusedChannelsAreIgnored :
    (∀ n, Instr.slotWr 0 0 ≠ .provide n) ∧ (Instr.provide 3 ≠ .pushFront ∧ ∀ slot w, Instr.provide 3 ≠ .slotWr slot w) :=
  ⟨nofun, nofun, nofun⟩

end Sys2Proof.Tests
end

/-! ### Scope (spec/00_scope.md): every command is answered once, or held -/

namespace Sys2Proof.Machine

/-! What a command can answer -/

/-- Nothing has left the block between the two states but at most one free event (R52). -/
abbrev FreesAtMostOne (s u : State) : Prop := u.outputs = s.outputs ∨ ∃ h, u.outputs = .free h :: s.outputs

theorem freesAtMostOne_freeOwned (o : Origin) {s u : State} (h : u.outputs = s.outputs) :
    FreesAtMostOne s (freeOwned o u) := by
  cases o with
  | none => exact .inl h
  | allocated a => exact .inr ⟨a, by simp [ownedHandle, h]⟩
  | provided a => exact .inr ⟨a, by simp [ownedHandle, h]⟩

/-- The table of R96: the command that fails in a state, the reason, and the state the failure is answered from. -/
inductive FailsWith (s : State) : Instr → Reason → State → Prop where
  | resizeNonempty (n : Nat) (hne : s.head ≠ s.tail) : FailsWith s (.resize n) .nonempty s
  | provideNonempty (n : Nat) (hne : s.head ≠ s.tail) : FailsWith s (.provide n) .nonempty s
  | resizeAlloc (n : Nat) (hn : n ≠ 0) (ha : allocAnswer s n = none) : FailsWith s (.resize n) .alloc (afterAlloc s)
  | ctornAlloc (n : Nat) (hn : n ≠ 0) (ha : allocAnswer s n = none) :
      FailsWith s (.ctorn n) .alloc (constructEmpty (afterAlloc s))
  | provideInvalid (n : Nat) (hz : operandH s = 0 ∨ n = 0) : FailsWith s (.provide n) .invalid s

/-- The four kinds of answer to a command (R11), and the hold of a produce (R83, R84), which gives none yet. -/
inductive Answers (i : Instr) (s : State) : State → Prop where
  | fault (c : Cause) : Answers i s (raiseFault c s)
  | ok (v : BitVec 32) (u : State) (hb : u.bus = s.bus) (ho : FreesAtMostOne s u) : Answers i s (respondOk v u)
  | data (b : Block) (u : State) (hb : u.bus = s.bus) (ho : u.outputs = s.outputs) : Answers i s (respondData b u)
  | fail (r : Reason) (u : State) (hf : FailsWith s i r u) : Answers i s (respondFail r u)
  | held (t : State) (hp : s.bus.port = .P) (ho : t.outputs = s.outputs) (hpend : t.pend = 0x7 ∨ t.pend = 0x8) :
      Answers i s t

theorem FailsWith.frame {i : Instr} {s u : State} {r : Reason} (h : FailsWith s i r u) :
    u.bus = s.bus ∧ u.outputs = s.outputs := by
  cases h <;> exact ⟨rfl, rfl⟩

theorem TookFault.answers {i : Instr} {s t : State} (h : TookFault s t) : Answers i s t := by
  obtain ⟨c, rfl⟩ := h
  exact .fault c

/-- Publishing is an answer, or the hold, also after PUSH_FRONT's copy, which leaves the bus and the outputs alone (R84). -/
theorem answers_publishOrHold {i : Instr} {s u : State} {op : BitVec 4} (hp : s.bus.port = .P) (hb : u.bus = s.bus)
    (ho : u.outputs = s.outputs) (hop : op = 0x7 ∨ op = 0x8) : Answers i s (publishOrHold op u) := by
  cases hf : isFull u with
  | true =>
    rw [publishOrHold_of_full hf]
    exact .held _ hp ho hop
  | false =>
    rw [publishOrHold_of_not_full hf]
    exact .ok 0 _ hb (.inl ho)

/-- A command that only port P may issue, and that passed the prologue, stands on port P (R66). -/
theorem port_of_prologue {i : Instr} {s : State} (h : prologueFault i s = none)
    (hi : permitted i s.bus.port = (s.bus.port == .P)) : s.bus.port = .P :=
  eq_of_beq (hi ▸ (prologueFault_eq_none.mp h).1)

/-- Every command that ends in a next state has been answered, or is held. -/
theorem exec_answers {i : Instr} {s t : State} (h : exec i s = .next t) : Answers i s t := by
  cases i with
  | ctor0 =>
    rcases execCtor0_next h with hf | ⟨-, rfl⟩
    · exact hf.answers
    · exact .ok 0 _ rfl (.inl rfl)
  | ctorn n =>
    rcases execCtorn_next h with hf | ⟨-, -, ⟨-, rfl⟩ | ⟨hn, ha, rfl⟩ | ⟨-, _, -, rfl⟩⟩
    · exact hf.answers
    · exact .ok 0 _ rfl (.inl rfl)
    · exact .fail .alloc _ (.ctornAlloc n hn ha)
    · exact .ok 0 _ rfl (.inl rfl)
  | dtor =>
    rcases execDtor_next h with hf | ⟨-, rfl⟩
    · exact hf.answers
    · exact .ok 0 _ (freeOwned_bus s.origin s) (freesAtMostOne_freeOwned s.origin (s := s) rfl)
  | isEmpty =>
    rcases execIsEmpty_next h with hf | ⟨-, rfl⟩
    · exact hf.answers
    · exact .ok _ s rfl (.inl rfl)
  | isFull =>
    rcases execIsFull_next h with hf | ⟨-, rfl⟩
    · exact hf.answers
    · exact .ok _ s rfl (.inl rfl)
  | headRef =>
    rcases execHeadRef_next h with hf | ⟨-, -, rfl⟩
    · exact hf.answers
    · exact .ok _ s rfl (.inl rfl)
  | produceHead =>
    rcases execProduceHead_next h with hf | ⟨hp, -, rfl⟩
    · exact hf.answers
    · exact answers_publishOrHold (port_of_prologue hp rfl) rfl rfl (.inl rfl)
  | pushFront =>
    rcases execPushFront_next h with hf | ⟨hp, -, _, -, rfl⟩
    · exact hf.answers
    · exact answers_publishOrHold (port_of_prologue hp rfl) rfl rfl (.inr rfl)
  | tailRef =>
    rcases execTailRef_next h with hf | ⟨-, -, rfl⟩
    · exact hf.answers
    · exact .ok _ s rfl (.inl rfl)
  | consumeTail =>
    rcases execConsumeTail_next h with hf | ⟨-, ⟨-, rfl⟩ | ⟨-, rfl⟩⟩
    · exact hf.answers
    · exact .ok 0 s rfl (.inl rfl)
    · exact .ok 0 (retire s) rfl (.inl rfl)
  | popBack =>
    rcases execPopBack_next h with hf | ⟨-, -, b, -, rfl⟩
    · exact hf.answers
    · exact .data b (retire s) rfl rfl
  | resize n =>
    rcases execResize_next h with
      hf | ⟨-, -, ⟨he, rfl⟩ | ⟨-, -, rfl⟩ | ⟨-, hn, ha, rfl⟩ | ⟨-, -, _, -, rfl⟩⟩
    · exact hf.answers
    · exact .fail .nonempty s (.resizeNonempty n (ringEmpty_eq_false.mp he))
    · exact .ok 0 _ (freeOwned_bus _ _) (freesAtMostOne_freeOwned _ rfl)
    · exact .fail .alloc _ (.resizeAlloc n hn ha)
    · exact .ok 0 _ (freeOwned_bus _ _) (freesAtMostOne_freeOwned _ rfl)
  | provide n =>
    rcases execProvide_next h with hf | ⟨-, -, ⟨hz, rfl⟩ | ⟨-, -, he, rfl⟩ | ⟨-, -, -, rfl⟩⟩
    · exact hf.answers
    · exact .fail .invalid s (.provideInvalid n hz)
    · exact .fail .nonempty s (.provideNonempty n (ringEmpty_eq_false.mp he))
    · exact .ok 0 _ (freeOwned_bus _ _) (freesAtMostOne_freeOwned _ rfl)
  | slotRd slot w =>
    rcases execSlotRd_next h with hf | ⟨-, -, v, -, rfl⟩
    · exact hf.answers
    · exact .data _ s rfl rfl
  | slotWr slot w =>
    rcases execSlotWr_next h with hf | ⟨-, -, _, -, rfl⟩
    · exact hf.answers
    · exact .ok 0 _ rfl (.inl rfl)

/-- An answer is one response on the bus's port, after at most one free event; a hold answers nothing. -/
theorem Answers.outputs {i : Instr} {s t : State} (h : Answers i s t) :
    (∃ r old, t.outputs = .response s.bus.port r :: old ∧ (old = s.outputs ∨ ∃ h, old = .free h :: s.outputs)) ∨
      (s.bus.port = .P ∧ t.outputs = s.outputs ∧ (t.pend = 0x7 ∨ t.pend = 0x8)) := by
  cases h with
  | fault c => exact .inl ⟨_, _, rfl, .inl rfl⟩
  | ok v u hb ho => exact .inl ⟨_, u.outputs, by rw [respondOk_outputs, hb], ho⟩
  | data b u hb ho => exact .inl ⟨_, u.outputs, by rw [respondData_outputs, hb], .inl ho⟩
  | fail r u hf =>
    obtain ⟨hb, ho⟩ := hf.frame
    exact .inl ⟨_, u.outputs, by rw [respondFail_outputs, hb], .inl ho⟩
  | held _ hp ho hpend => exact .inr ⟨hp, ho, hpend⟩

/-- A new response of STATUS 1 is a failure of the table, and its code is the reason's. -/
theorem Answers.failsWith {i : Instr} {s t : State} {p : Port} {r : Response} {old : List Output} (h : Answers i s t)
    (ho : t.outputs = .response p r :: old) (hne : t.outputs ≠ s.outputs) (hr : r.status = 1) :
    ∃ e u, FailsWith s i e u ∧ t = respondFail e u ∧ r.code = reasonCode e := by
  cases h with
  | fault c =>
    cases ho
    exact absurd hr (show (2 : BitVec 2) ≠ 1 by decide)
  | ok v u hb _ | data b u hb _ =>
    cases ho
    exact absurd hr (show (0 : BitVec 2) ≠ 1 by decide)
  | fail e u hf =>
    cases ho
    exact ⟨e, u, hf, rfl, rfl⟩
  | held _ _ hs _ => exact absurd hs hne

/-! The step of the producer while it is held -/

theorem portStep_of_held {s : State} (hh : halted s = false) (hp : s.pend ≠ 0) :
    portStep .P s = .next (if isFull s then s else completeHeld s) := by
  rw [portStep, hh, if_neg Bool.false_ne_true, if_pos ⟨rfl, hp⟩]

end Sys2Proof.Machine

namespace Sys2Proof.Spec

open Sys2Proof.Machine

/-! The statements' own index arithmetic, and the machine's -/

theorem nextIdx_toNat_eq_succ (cap i : Idx) : (nextIdx cap i).toNat = succ cap.toNat i.toNat := by
  by_cases h : cap = 0
  · subst h
    rfl
  · rw [nextIdx_toNat h, succ, if_neg (cap_toNat_pos h).ne']

theorem nextIdx_head (s : State) : nextIdx s.cap s.head = nextHead s := by
  rw [nextHead, ← nextIdx_toNat_eq_succ, BitVec.ofNat_toNat, BitVec.setWidth_eq]

theorem isFull_iff_full {s : State} : isFull s = true ↔ Full s := by
  rw [ringFull_iff, ← BitVec.toNat_inj, nextIdx_toNat_eq_succ]

/-- A port that issues a command runs it, on the state whose stream and schedule have moved on (R75). -/
theorem step_of_issues {s : State} {p : Port} {c : Command} {q : List Command} {rest : List Event}
    (h : Issues s p c q rest) : step s = runBus (accept p c q { s with schedule := rest }) := by
  obtain ⟨hs, hf, hp, hq⟩ := h
  rw [step_of_cons hs]
  rcases portStep_cases p { s with schedule := rest } with ⟨-, hstuck⟩ | ⟨-, -, hP, hpend, -⟩ | ⟨c', q', hq', -, -, hrun⟩
  · have hh : halted { s with schedule := rest } = false := (faultValid_eq _).trans hf
    rcases hstuck with hhalt | ⟨hP, hpend, -⟩ | ⟨-, hnil⟩
    · exact absurd (hh.symm.trans hhalt) nofun
    · exact absurd (hp hP) hpend
    · exact absurd (hq.symm.trans hnil) nofun
  · exact absurd (hp hP) hpend
  · obtain ⟨rfl, rfl⟩ := List.cons.inj (hq.symm.trans hq')
    exact hrun

/-! ### The obligations -/

/-- Settles O8: a held producer's step is its completion or nothing, as `isFull` says. -/
theorem heldProduceCompletes : Obligations.HeldProduceCompletes := by
  intro s rest hs hf hpend
  have hne : s.pend ≠ 0 := by rcases hpend with h | h <;> rw [h] <;> decide
  have hh : halted { s with schedule := rest } = false := (faultValid_eq _).trans hf
  have hstep : step s =
      .next (if isFull s then { s with schedule := rest } else completeHeld { s with schedule := rest }) :=
    (step_of_cons hs).trans (portStep_of_held hh hne)
  refine ⟨fun hfull => ?_, fun hfull => ?_⟩
  · rw [hstep, if_neg (mt isFull_iff_full.mp hfull), ← nextIdx_head]
    rfl
  · rw [hstep, if_pos (isFull_iff_full.mpr hfull)]

/-- Settles O16, by the cases of a step: no command writes the parameters, and neither does any other event. -/
theorem parametersNeverChange : Obligations.ParametersNeverChange := by
  intro s t h
  rcases step_next h with rfl | ⟨-, rfl⟩ | ⟨-, -, -, -, rfl⟩ | ⟨p, c, rest, -, -, -, -, ⟨_, -, rfl⟩ | ⟨i, -, he⟩⟩
  · exact takeEvent_params s
  · exact hardwareReset_params _
  · exact completeHeld_params _
  · rw [raiseFault_params, accept_params, takeEvent_params]
  · obtain ⟨hparams, -⟩ := exec_sameInputs he
    rw [hparams, accept_params, takeEvent_params]

/-- Settles O18: an illegal word is answered by its fault, every other command as `Answers.outputs` says. -/
theorem everyIssuedCommandIsAnsweredOrHeld : Obligations.EveryIssuedCommandIsAnsweredOrHeld := by
  intro s p c q rest t hi h
  rw [step_of_issues hi] at h
  have hout : (accept p c q { s with schedule := rest }).outputs = s.outputs := accept_outputs p c q _
  rcases runBus_cases (accept p c q { s with schedule := rest }) with ⟨e, -, hrun⟩ | ⟨i, -, hrun⟩ <;> rw [hrun] at h
  · cases h
    exact .inl ⟨_, _, rfl, .inl hout⟩
  · have ha := (exec_answers h).outputs
    rwa [hout] at ha

/-- Settles O51, row by row of the table of R96. -/
theorem failuresAndTheirReasons : Obligations.FailuresAndTheirReasons := by
  intro i s t r old h ho hne hr
  obtain ⟨e, u, hf, rfl, hcode⟩ := (exec_answers h).failsWith ho hne hr
  cases hf with
  | resizeNonempty n hht => exact .inl ⟨hcode, hht, .inl ⟨n, rfl⟩, rfl⟩
  | provideNonempty n hht => exact .inl ⟨hcode, hht, .inr ⟨n, rfl⟩, rfl⟩
  | resizeAlloc n hn ha => exact .inr (.inl ⟨hcode, ⟨n, rfl, hn, ha⟩, rfl⟩)
  | ctornAlloc n hn ha => exact .inr (.inr (.inl ⟨hcode, ⟨n, rfl, hn, ha⟩, rfl⟩))
  | provideInvalid n hz => exact .inr (.inr (.inr ⟨hcode, ⟨n, rfl, hz⟩, rfl⟩))

end Sys2Proof.Spec

/-! ### State (spec/10_state.md): the registers, the storage and the invariant -/

namespace Sys2Proof.Spec

open Sys2Proof.Machine

/-! #### What a command and a step do to the ring's own state -/

/-- Equal ring states are equal registers, one by one. -/
theorem ring_eq_iff {t : State} {r : RingState} :
    t.ring = r ↔ t.phase = r.phase ∧ t.cap = r.cap ∧ t.head = r.head ∧ t.tail = r.tail ∧ t.pend = r.pend ∧
      t.fault = r.fault ∧ t.storage = r.storage ∧ t.origin = r.origin := by
  cases r
  simp [State.ring]

/-- What a produce command leaves in STORAGE: PRODUCE_HEAD nothing new, PUSH_FRONT a block in the head slot (R83, R84). -/
abbrev Filled (i : Instr) (pr : Params) (r : RingState) (m : Memory) : Prop :=
  (i = .produceHead ∧ m = r.storage) ∨
    (i = .pushFront ∧ ∃ b, pr.blockOk b = true ∧ writeBlock pr r.storage r.head.toNat b = some m)

/-- A constructor finds no ring, and the other Admin commands find no produce held (R70). -/
abbrev NothingInUse (i : Instr) (r : RingState) : Prop :=
  (IsConstructor i ∧ r.phase = .unconstructed) ∨ (NeedsQuiescence i ∧ r.pend = 0)

/-- Everything a command that takes no fault can do to the ring's own state, from the port it is issued on. -/
inductive Effect (i : Instr) (p : Port) (pr : Params) (r r' : RingState) : Prop where
  /-- The queries, the failures of RESIZE and PROVIDE, and CONSUME_TAIL on an empty ring. -/
  | unchanged (h : r' = r)
  /-- The Admin commands: `n` slots of unwritten storage, or none, and both indices 0. -/
  | renewed (ph : Phase) (n : Nat) (f : Fill) (o : Origin) (hport : p = .A) (hidle : NothingInUse i r)
      (hphase : ph = r.phase ∨ IsConstructor i ∨ i = .dtor) (hslots : ph = .unconstructed → n = 0)
      (hctor : i = .ctor0 → n = 0) (hn : n ≤ capMax) (ho : o = .none ↔ n = 0) (hnull : ownedHandle o ≠ some 0)
      (h : r' = { r with
        phase := ph, cap := BitVec.ofNat 24 n, head := 0, tail := 0
        storage := { size := n, fill := f, cells := [] }, origin := o })
  /-- A produce on a ring that is not full (R83, R84). -/
  | published (m : Memory) (hport : p = .P) (hm : Filled i pr r m) (hcap : r.cap ≠ 0)
      (hroom : nextIdx r.cap r.head ≠ r.tail) (h : r' = { r with head := nextIdx r.cap r.head, storage := m })
  /-- A produce on a full ring: the copy is made, and the producer waits (R83, R84). -/
  | held (m : Memory) (op : BitVec 4) (hport : p = .P) (hm : Filled i pr r m) (hcap : r.cap ≠ 0)
      (hfull : nextIdx r.cap r.head = r.tail) (hop : op = 0x7 ∨ op = 0x8) (h : r' = { r with pend := op, storage := m })
  /-- The oldest block is consumed (R87, R88). -/
  | retired (hport : p = .C) (hi : i = .consumeTail ∨ i = .popBack) (hne : r.head ≠ r.tail)
      (h : r' = { r with tail := nextIdx r.cap r.tail })
  /-- SLOT_WR by the owner of the slot (R48, R93). -/
  | wordWritten (slot w : Nat) (v : Word) (m : Memory) (hi : i = .slotWr slot w)
      (hown : (p = .P ∧ slot = r.head.toNat) ∨ (p = .C ∧ r.head ≠ r.tail ∧ slot = r.tail.toNat)) (hcap : r.cap ≠ 0)
      (hv : v < 2 ^ pr.wordBits) (hw : writeWord pr r.storage slot w v = some m) (h : r' = { r with storage := m })

/-- The allocator gives no null handle (R50). -/
theorem allocAnswer_ne_zero {s : State} {n : Nat} {h : Handle} (ha : allocAnswer s n = some h) : h ≠ 0 := by
  have free : ∀ h', (Config.alloc s.draws n (ownedHandle s.origin)).map Subtype.val = some h' → h' ≠ 0 := by
    intro h' hh
    obtain ⟨a, -, rfl⟩ := Option.map_eq_some_iff.mp hh
    exact a.property.1
  unfold allocAnswer at ha
  split at ha
  · exact free h ha
  · split at ha
    · next hl => exact (allocLegal_iff.mp hl h ha).1
    · exact free h ha

/-- Publishing or holding, after the storage has been filled, is one of the two effects of a produce. -/
theorem effect_publishOrHold {i : Instr} {s u : State} {op : BitVec 4} (hp : s.bus.port = .P)
    (hm : Filled i s.params s.ring u.storage) (hu : u.ring = { s.ring with storage := u.storage }) (hcap : s.cap ≠ 0)
    (hop : op = 0x7 ∨ op = 0x8) : Effect i s.bus.port s.params s.ring (publishOrHold op u).ring := by
  obtain ⟨h1, h2, h3, h4, h5, h6, -, h8⟩ := ring_eq_iff.mp hu
  cases hf : isFull u with
  | true =>
    rw [publishOrHold_of_full hf]
    have hfull := ringFull_iff.mp hf
    rw [h2, h3, h4] at hfull
    exact .held u.storage op hp hm hcap hfull hop (ring_eq_iff.mpr ⟨h1, h2, h3, h4, rfl, h6, rfl, h8⟩)
  | false =>
    rw [publishOrHold_of_not_full hf]
    have hroom := ringFull_eq_false.mp hf
    rw [h2, h3, h4] at hroom
    exact .published u.storage hp hm hcap hroom
      (ring_eq_iff.mpr ⟨h1, h2, by simp [h2, h3], h4, h5, h6, rfl, h8⟩)

/-- A command that only one port may issue, and that passed the prologue, stands on that port (R66). -/
theorem bus_port_of_prologue {i : Instr} {s : State} {p : Port} (h : prologueFault i s = none)
    (hi : permitted i s.bus.port = (s.bus.port == p)) : s.bus.port = p :=
  eq_of_beq (hi ▸ (prologueFault_eq_none.mp h).1)

/-- Every command that ends in a next state took a fault, or had one of the effects. -/
theorem exec_effect {i : Instr} {s t : State} (h : exec i s = .next t) :
    TookFault s t ∨ Effect i s.bus.port s.params s.ring t.ring := by
  cases i with
  | ctor0 =>
    rcases execCtor0_next h with hf | ⟨hp, rfl⟩
    · exact .inl hf
    obtain ⟨-, hun, -, -⟩ := prologueFault_eq_none.mp hp
    exact .inr (.renewed .live 0 .fresh .none (bus_port_of_prologue hp rfl) (.inl ⟨.inl rfl, hun rfl⟩)
      (.inr (.inl (.inl rfl))) nofun (fun _ => rfl) (Nat.zero_le _) (by simp) nofun rfl)
  | ctorn n =>
    rcases execCtorn_next h with hf | ⟨hp, hn, hb⟩
    · exact .inl hf
    obtain ⟨-, hun, -, -⟩ := prologueFault_eq_none.mp hp
    have hport := bus_port_of_prologue hp rfl
    have hidle : NothingInUse (.ctorn n) s.ring := .inl ⟨.inr ⟨n, rfl⟩, hun rfl⟩
    have hphase : Phase.live = s.phase ∨ IsConstructor (.ctorn n) ∨ Instr.ctorn n = .dtor :=
      .inr (.inl (.inr ⟨n, rfl⟩))
    rcases hb with ⟨-, rfl⟩ | ⟨-, -, rfl⟩ | ⟨h0, a, ha, rfl⟩
    · exact .inr (.renewed .live 0 .fresh .none hport hidle hphase nofun nofun (Nat.zero_le _) (by simp) nofun rfl)
    · exact .inr (.renewed .live 0 .fresh .none hport hidle hphase nofun nofun (Nat.zero_le _) (by simp) nofun rfl)
    · exact .inr (.renewed .live n .fresh (.allocated a) hport hidle hphase nofun nofun hn (by simp [h0])
        (by simpa [ownedHandle] using allocAnswer_ne_zero ha) rfl)
  | dtor =>
    rcases execDtor_next h with hf | ⟨hp, rfl⟩
    · exact .inl hf
    obtain ⟨-, -, -, hquiet⟩ := prologueFault_eq_none.mp hp
    exact .inr (.renewed .unconstructed 0 .fresh .none (bus_port_of_prologue hp rfl) (.inr ⟨.inl rfl, hquiet rfl⟩)
      (.inr (.inr rfl)) (fun _ => rfl) nofun (Nat.zero_le _) (by simp) nofun
      (ring_eq_iff.mpr ⟨rfl, rfl, rfl, rfl, freeOwned_pend s.origin s, freeOwned_fault s.origin s, rfl, rfl⟩))
  | isEmpty =>
    rcases execIsEmpty_next h with hf | ⟨-, rfl⟩
    · exact .inl hf
    · exact .inr (.unchanged rfl)
  | isFull =>
    rcases execIsFull_next h with hf | ⟨-, rfl⟩
    · exact .inl hf
    · exact .inr (.unchanged rfl)
  | headRef =>
    rcases execHeadRef_next h with hf | ⟨-, -, rfl⟩
    · exact .inl hf
    · exact .inr (.unchanged rfl)
  | produceHead =>
    rcases execProduceHead_next h with hf | ⟨hp, hc, rfl⟩
    · exact .inl hf
    · exact .inr (effect_publishOrHold (bus_port_of_prologue hp rfl) (.inl ⟨rfl, rfl⟩) rfl hc (.inl rfl))
  | pushFront =>
    rcases execPushFront_next h with hf | ⟨hp, hc, m, hm, rfl⟩
    · exact .inl hf
    · exact .inr (effect_publishOrHold (u := { s with storage := m }) (bus_port_of_prologue hp rfl)
        (.inr ⟨rfl, operandB s, blockOk_fitBlock _ _, hm⟩) rfl hc (.inr rfl))
  | tailRef =>
    rcases execTailRef_next h with hf | ⟨-, -, rfl⟩
    · exact .inl hf
    · exact .inr (.unchanged rfl)
  | consumeTail =>
    rcases execConsumeTail_next h with hf | ⟨hp, ⟨-, rfl⟩ | ⟨he, rfl⟩⟩
    · exact .inl hf
    · exact .inr (.unchanged rfl)
    · exact .inr (.retired (bus_port_of_prologue hp rfl) (.inl rfl) (ringEmpty_eq_false.mp he) rfl)
  | popBack =>
    rcases execPopBack_next h with hf | ⟨hp, he, b, -, rfl⟩
    · exact .inl hf
    · exact .inr (.retired (bus_port_of_prologue hp rfl) (.inr rfl) (ringEmpty_eq_false.mp he) rfl)
  | resize n =>
    rcases execResize_next h with hf | ⟨hp, hn, hb⟩
    · exact .inl hf
    obtain ⟨-, -, hlive, hquiet⟩ := prologueFault_eq_none.mp hp
    have hport := bus_port_of_prologue hp rfl
    have hidle : NothingInUse (.resize n) s.ring := .inr ⟨.inr (.inl ⟨n, rfl⟩), hquiet rfl⟩
    have hphase : Phase.live = s.phase := (hlive rfl).symm
    rcases hb with ⟨-, rfl⟩ | ⟨-, -, rfl⟩ | ⟨-, -, -, rfl⟩ | ⟨-, h0, a, ha, rfl⟩
    · exact .inr (.unchanged rfl)
    · refine .inr (.renewed .live 0 .fresh .none hport hidle (.inl hphase) nofun nofun (Nat.zero_le _) (by simp) nofun ?_)
      rw [respondOk_ring, freeOwned_ring, hphase]
      rfl
    · exact .inr (.unchanged rfl)
    · refine .inr (.renewed .live n .fresh (.allocated a) hport hidle (.inl hphase) nofun nofun hn (by simp [h0])
        (by simpa [ownedHandle] using allocAnswer_ne_zero ha) ?_)
      rw [respondOk_ring, freeOwned_ring, hphase]
      rfl
  | provide n =>
    rcases execProvide_next h with hf | ⟨hp, hn, hb⟩
    · exact .inl hf
    obtain ⟨-, -, hlive, hquiet⟩ := prologueFault_eq_none.mp hp
    have hphase : Phase.live = s.phase := (hlive rfl).symm
    rcases hb with ⟨-, rfl⟩ | ⟨-, -, -, rfl⟩ | ⟨hH, h0, -, rfl⟩
    · exact .inr (.unchanged rfl)
    · exact .inr (.unchanged rfl)
    · refine .inr (.renewed .live n (bufferFill (operandH s) n s) (.provided (operandH s)) (bus_port_of_prologue hp rfl)
        (.inr ⟨.inr (.inr ⟨n, rfl⟩), hquiet rfl⟩) (.inl hphase) nofun nofun hn (by simp [h0])
        (by simpa [ownedHandle] using hH) ?_)
      rw [respondOk_ring, freeOwned_ring, hphase]
      rfl
  | slotRd slot w =>
    rcases execSlotRd_next h with hf | ⟨-, -, v, -, rfl⟩
    · exact .inl hf
    · exact .inr (.unchanged rfl)
  | slotWr slot w =>
    rcases execSlotWr_next h with hf | ⟨hp, ha, m, hm, rfl⟩
    · exact .inl hf
    obtain ⟨⟨hc, -, -⟩, hP, hC⟩ := slotAccessFault_eq_none.mp ha
    have hown : (s.bus.port = .P ∧ slot = s.head.toNat) ∨
        (s.bus.port = .C ∧ s.head ≠ s.tail ∧ slot = s.tail.toNat) := by
      cases hport : s.bus.port with
      | P => exact .inl ⟨rfl, hP hport⟩
      | C => exact .inr ⟨rfl, (hC hport).imp_left ringEmpty_eq_false.mp⟩
      | A =>
        obtain ⟨hperm, -⟩ := prologueFault_eq_none.mp hp
        rw [hport] at hperm
        cases hperm
    exact .inr (.wordWritten slot w (operandV s) m rfl hown hc (fitWord_lt _ _ 0) hm rfl)

/-- Everything the step of a port can do to the ring's own state: nothing, a fault, the completion of a held produce (R85),
or the effect of the port's next command, which a held producer does not issue. -/
inductive PortEffect (p : Port) (s t : State) : Prop where
  | unchanged (h : t.ring = s.ring)
  | faulted (c : Cause) (op : BitVec 4) (h : t.ring = { s.ring with fault := packFault (causeCode c) (portCode p) op })
  | completed (hp : p = .P) (hpend : s.pend ≠ 0) (hroom : nextIdx s.cap s.head ≠ s.tail)
      (h : t.ring = { s.ring with head := nextIdx s.cap s.head, pend := 0 })
  | issued (i : Instr) (hfree : ¬(p = .P ∧ s.pend ≠ 0)) (h : Effect i p s.params s.ring t.ring)

theorem step_portEffect {s t : State} {p : Port} (hn : nextEvent s = .step p) (h : step s = .next t) :
    PortEffect p s t := by
  rcases step_next h with rfl | ⟨hr, -⟩ | ⟨hP, -, hpend, hf, rfl⟩ | ⟨q, c, rest, hq, -, -, hfree, ht⟩
  · exact .unchanged rfl
  · exact absurd (hn.symm.trans hr) nofun
  · obtain rfl := Event.step.inj (hn.symm.trans hP)
    exact .completed rfl hpend (ringFull_eq_false.mp hf) rfl
  · obtain rfl := Event.step.inj (hn.symm.trans hq)
    rcases ht with ⟨e, -, rfl⟩ | ⟨i, -, he⟩
    · exact .faulted _ _ (by rw [raiseFault_ring, accept_ring, takeEvent_ring]; rfl)
    · rcases exec_effect he with ⟨c', rfl⟩ | heff
      · exact .faulted _ _ (by rw [raiseFault_ring, accept_ring, takeEvent_ring]; rfl)
      · rw [accept_ring, takeEvent_ring, accept_params, takeEvent_params] at heff
        exact .issued i hfree heff

/-- A step that the schedule gives to a port. -/
theorem step_portEffect_of_cons {s t : State} {p : Port} {rest : List Event} (hs : s.schedule = .step p :: rest)
    (h : step s = .next t) : PortEffect p s t := step_portEffect (nextEvent_of_cons hs) h

/-! #### Which storage a command leaves -/

/-- The storage differs at most in one slot's block, and is as canonical as before. -/
abbrev ChangesOnlySlot (pr : Params) (slot : Nat) (m m' : Memory) : Prop :=
  m'.size = m.size ∧ m'.wf pr = true ∧ ∀ k, k ≠ slot → slotBlock pr m' k = slotBlock pr m k

theorem changesOnlySlot_writeBlock {pr : Params} {m m' : Memory} {slot : Nat} {b : Block} (hm : m.wf pr = true)
    (hb : pr.blockOk b = true) (h : writeBlock pr m slot b = some m') : ChangesOnlySlot pr slot m m' := by
  obtain ⟨-, hsize, -, hblock⟩ := writeBlock_spec (Memory.wf.rising hm) h
  exact ⟨hsize, writeBlock_wf hm hb h, fun k hk => by rw [hblock, if_neg hk]⟩

theorem changesOnlySlot_writeWord {pr : Params} {m m' : Memory} {slot w : Nat} {v : Word} (hp : pr.wf = true)
    (hm : m.wf pr = true) (hv : v < 2 ^ pr.wordBits) (h : writeWord pr m slot w v = some m') :
    ChangesOnlySlot pr slot m m' := by
  obtain ⟨-, -, hsize, -, hblock⟩ := writeWord_spec (Memory.wf.rising hm) h
  exact ⟨hsize, writeWord_wf hp hm hv h, fun k hk => by rw [hblock, if_neg hk]⟩

theorem Filled.changesOnlyHead {i : Instr} {pr : Params} {r : RingState} {m : Memory} (h : Filled i pr r m)
    (hm : r.storage.wf pr = true) : ChangesOnlySlot pr r.head.toNat r.storage m := by
  rcases h with ⟨-, rfl⟩ | ⟨-, b, hb, hw⟩
  · exact ⟨rfl, hm, fun _ _ => rfl⟩
  · exact changesOnlySlot_writeBlock hm hb hw

/-! #### The invariant -/

/-- Only a ring with slots is not empty (R25). -/
theorem cap_ne_zero_of_nonempty {s : State} (hidx : IndexRange s) (hne : s.head ≠ s.tail) : s.cap ≠ 0 := fun h0 =>
  hne ((hidx.1 h0).1.trans (hidx.1 h0).2.symm)

/-- A ring with slots exists (R37). -/
theorem live_of_cap_ne_zero {s : State} (hphase : PhaseOk s) (hcap : s.cap ≠ 0) : s.phase = .live := by
  cases h : s.phase with
  | live => rfl
  | unconstructed => exact absurd (hphase h).1 hcap

/-- The invariant speaks of the parameters and the ring's own state only. -/
theorem inv_of_ring_eq {s t : State} (hp : t.params = s.params) (hr : t.ring = s.ring) (h : s.Inv) : t.Inv := by
  obtain ⟨h1, h2, h3, h4, h5, h6, h7, h8⟩ := ring_eq_iff.mp hr
  simp only [State.Inv, ParamsOk, IndexRange, StorageOk, OriginOk, PhaseOk, PendOk, FaultOk] at h ⊢
  rw [hp, h1, h2, h3, h4, h5, h6, h7, h8]
  exact h

theorem causeCode_range (c : Cause) : 1 ≤ (causeCode c).toNat ∧ (causeCode c).toNat ≤ 9 := by cases c <;> decide

/-- A recorded fault is a legal value of FAULT (R22, R97). -/
theorem faultOk_of_packFault {t : State} {c : Cause} {p : Port} {op : BitVec 4}
    (h : t.fault = packFault (causeCode c) (portCode p) op) : FaultOk t := by
  have hport : portCode p ≠ 3 := by cases p <;> decide
  rw [FaultOk, h, faultValid_packFault, faultCause_packFault, faultPort_packFault]
  exact .inr ⟨rfl, (causeCode_range c).1, (causeCode_range c).2, hport⟩

/-- Recording a fault keeps the invariant. -/
theorem inv_of_faulted {s t : State} {c : Cause} {p : Port} {op : BitVec 4} (hp : t.params = s.params)
    (hr : t.ring = { s.ring with fault := packFault (causeCode c) (portCode p) op }) (h : s.Inv) : t.Inv := by
  obtain ⟨h1, h2, h3, h4, h5, h6, h7, h8⟩ := ring_eq_iff.mp hr
  have hfault : FaultOk t := faultOk_of_packFault h6
  simp only [State.Inv, ParamsOk, IndexRange, StorageOk, OriginOk, PhaseOk, PendOk] at h ⊢
  rw [hp, h1, h2, h3, h4, h5, h7, h8]
  obtain ⟨k1, k2, k3, k4, k5, k6, -⟩ := h
  exact ⟨k1, k2, k3, k4, k5, k6, hfault⟩

/-- New storage, or none, keeps the invariant: no produce is held over it. -/
theorem inv_of_renewed {s t : State} {i : Instr} {ph : Phase} {n : Nat} {f : Fill} {o : Origin} (hp : t.params = s.params)
    (hidle : NothingInUse i s.ring) (hslots : ph = .unconstructed → n = 0) (hn : n ≤ capMax) (ho : o = .none ↔ n = 0)
    (hnull : ownedHandle o ≠ some 0)
    (hr : t.ring = { s.ring with
        phase := ph, cap := BitVec.ofNat 24 n, head := 0, tail := 0
        storage := { size := n, fill := f, cells := [] }, origin := o })
    (h : s.Inv) : t.Inv := by
  obtain ⟨h1, h2, h3, h4, h5, h6, h7, h8⟩ := ring_eq_iff.mp hr
  obtain ⟨kp, -, -, -, kphase, kpend, kfault⟩ := h
  have hcap : (BitVec.ofNat 24 n).toNat = n := Nat.mod_eq_of_lt (by have := hn; unfold capMax at this; omega)
  have hzero : BitVec.ofNat 24 n = 0 ↔ n = 0 := by rw [← BitVec.toNat_inj, hcap]; rfl
  have hpend : s.pend = 0 := by
    rcases hidle with ⟨-, hun⟩ | ⟨-, hq⟩
    · exact not_not.mp fun hne => kpend.2 hne (kphase hun).1
    · exact hq
  refine ⟨(congrArg Params.wf hp).trans kp, ?_, ?_, ?_, ?_, ?_, ?_⟩
  · rw [IndexRange, h2, h3, h4]
    exact ⟨fun _ => ⟨rfl, rfl⟩, fun hne => ⟨cap_toNat_pos hne, cap_toNat_pos hne⟩⟩
  · rw [StorageOk, h2, h7]
    exact ⟨hcap.symm, Memory.wf_no_cells _ n f⟩
  · rw [OriginOk, h2, h8]
    exact ⟨ho.trans hzero.symm, hnull⟩
  · rw [PhaseOk, h1, h2, h3, h4, h8]
    exact fun hun => ⟨hzero.mpr (hslots hun), rfl, rfl, ho.mpr (hslots hun)⟩
  · rw [PendOk, h5]
    exact ⟨.inl hpend, fun hne => absurd hpend hne⟩
  · rw [FaultOk, h6]
    exact kfault

/-- With a ring that has slots, moving an index below the capacity, holding or releasing the producer, and rewriting a slot
keep the invariant. -/
theorem inv_of_slots_in_use {s t : State} {hd tl : Idx} {pd : BitVec 4} {m : Memory} (hp : t.params = s.params)
    (hcap : s.cap ≠ 0) (hhd : hd.toNat < s.cap.toNat) (htl : tl.toNat < s.cap.toNat) (hpd : pd = 0 ∨ pd = 0x7 ∨ pd = 0x8)
    (hsize : m.size = s.storage.size) (hwf : m.wf s.params = true)
    (hr : t.ring = { s.ring with head := hd, tail := tl, pend := pd, storage := m }) (h : s.Inv) : t.Inv := by
  obtain ⟨h1, h2, h3, h4, h5, h6, h7, h8⟩ := ring_eq_iff.mp hr
  obtain ⟨kp, -, kstore, korigin, kphase, -, kfault⟩ := h
  refine ⟨(congrArg Params.wf hp).trans kp, ?_, ?_, ?_, ?_, ?_, ?_⟩
  · rw [IndexRange, h2, h3, h4]
    exact ⟨fun h0 => absurd h0 hcap, fun _ => ⟨hhd, htl⟩⟩
  · rw [StorageOk, hp, h2, h7]
    exact ⟨hsize.trans kstore.1, hwf⟩
  · rw [OriginOk, h2, h8]
    exact korigin
  · rw [PhaseOk, h1]
    exact fun hun => absurd (kphase hun).1 hcap
  · rw [PendOk, h2, h5]
    exact ⟨hpd, fun _ => hcap⟩
  · rw [FaultOk, h6]
    exact kfault

/-- The effect of a command keeps the invariant. -/
theorem inv_of_effect {i : Instr} {p : Port} {s t : State} (hp : t.params = s.params)
    (he : Effect i p s.params s.ring t.ring) (h : s.Inv) : t.Inv := by
  obtain ⟨kp, kidx, kstore, -, -, kpend, -⟩ := id h
  cases he with
  | unchanged hr => exact inv_of_ring_eq hp hr h
  | renewed ph n f o _ hidle _ hslots _ hn ho hnull hr => exact inv_of_renewed hp hidle hslots hn ho hnull hr h
  | published m _ hm hcap _ hr =>
    obtain ⟨hsize, hwf, -⟩ := hm.changesOnlyHead kstore.2
    exact inv_of_slots_in_use hp hcap (nextIdx_lt hcap _) (kidx.2 hcap).2 kpend.1 hsize hwf hr h
  | held m op _ hm hcap _ hop hr =>
    obtain ⟨hsize, hwf, -⟩ := hm.changesOnlyHead kstore.2
    exact inv_of_slots_in_use hp hcap (kidx.2 hcap).1 (kidx.2 hcap).2 (.inr hop) hsize hwf hr h
  | retired _ _ hne hr =>
    have hcap := cap_ne_zero_of_nonempty kidx hne
    exact inv_of_slots_in_use hp hcap (kidx.2 hcap).1 (nextIdx_lt hcap _) kpend.1 rfl kstore.2 hr h
  | wordWritten slot w v m _ _ hcap hv hw hr =>
    obtain ⟨hsize, hwf, -⟩ := changesOnlySlot_writeWord kp kstore.2 hv hw
    exact inv_of_slots_in_use hp hcap (kidx.2 hcap).1 (kidx.2 hcap).2 kpend.1 hsize hwf hr h

/-- A hardware reset ends in the invariant from every state whose parameters are in R7's domain (R36). -/
theorem inv_of_reset {t : State} (hp : ParamsOk t) (hr : t.ring = State.reset.ring) : t.Inv := by
  obtain ⟨h1, h2, h3, h4, h5, h6, h7, h8⟩ := ring_eq_iff.mp hr
  refine ⟨hp, ?_, ?_, ?_, ?_, ?_, ?_⟩
  · exact ⟨fun _ => ⟨h3, h4⟩, fun hne => absurd h2 hne⟩
  · rw [StorageOk, h2, h7]
    exact ⟨rfl, Memory.wf_empty _⟩
  · rw [OriginOk, h2, h8]
    exact ⟨iff_of_true rfl rfl, nofun⟩
  · exact fun _ => ⟨h2, h3, h4, h8⟩
  · exact ⟨.inl h5, fun hne => absurd h5 hne⟩
  · exact .inl h6

/-- Settles O13. -/
theorem resetStateMeetsInvariant : Obligations.ResetStateMeetsInvariant := inv_of_reset wf_config_params rfl

/-- Settles O12, by what a hardware reset and each effect of a port's step do to the ring. -/
theorem stepKeepsInvariant : Obligations.StepKeepsInvariant := by
  intro s t hinv h
  have hp : t.params = s.params := parametersNeverChange s t h
  cases hn : nextEvent s with
  | reset =>
    rw [step_of_reset hn] at h
    obtain rfl := Host.Outcome.next.inj h
    exact inv_of_reset hinv.1 (hardwareReset_ring _)
  | step p =>
    cases step_portEffect hn h with
    | unchanged hr => exact inv_of_ring_eq hp hr hinv
    | faulted c op hr => exact inv_of_faulted hp hr hinv
    | completed _ hpend hroom hr =>
      obtain ⟨-, kidx, kstore, -, -, kpend, -⟩ := id hinv
      have hcap : s.cap ≠ 0 := kpend.2 hpend
      exact inv_of_slots_in_use hp hcap (nextIdx_lt hcap _) (kidx.2 hcap).2 (.inl rfl) rfl kstore.2 hr hinv
    | issued i _ he => exact inv_of_effect hp he hinv

/-! #### The registers -/

/-- Settles O10. -/
theorem hardwareResetSetsEveryRegister : Obligations.HardwareResetSetsEveryRegister := fun _ _ hs => step_of_cons_reset hs

/-- Settles O11: each register's reset value as it stands in the definition. -/
theorem resetStateValues : Obligations.ResetStateValues := ⟨rfl, rfl, rfl, rfl, rfl, rfl, rfl, rfl, rfl⟩

theorem nextIdx_tail (s : State) : nextIdx s.cap s.tail = nextTail s := by
  rw [nextTail, ← nextIdx_toNat_eq_succ, BitVec.ofNat_toNat, BitVec.setWidth_eq]

/-- Below the capacity, `prev` subtracts one, or wraps to the last slot. -/
theorem prevIdx_toNat_of_lt {cap i : Idx} (hi : i.toNat < cap.toNat) :
    (prevIdx cap i).toNat = if i.toNat = 0 then cap.toNat - 1 else i.toNat - 1 := by
  have h : cap ≠ 0 := by rintro rfl; simp at hi
  rw [prevIdx_toNat h]
  split
  · next h0 => rw [h0, Nat.zero_add, Nat.mod_eq_of_lt (by omega)]
  · next h0 =>
    rw [show i.toNat + cap.toNat - 1 = i.toNat - 1 + cap.toNat by omega, Nat.add_mod_right, Nat.mod_eq_of_lt (by omega)]

/-- Settles O23. -/
theorem nextAndPrevIndex : Obligations.NextAndPrevIndex := by
  refine fun cap i => ⟨fun h => ⟨nextIdx_toNat h i, prevIdx_toNat h i⟩, ?_,
    fun hi => ⟨nextIdx_toNat_of_lt hi, prevIdx_toNat_of_lt hi⟩⟩
  rintro rfl
  exact ⟨nextIdx_zero_cap i, prevIdx_zero_cap i⟩

/-- Settles O25, by the effects of a port's step: each that moves an index is of one port only. -/
theorem oneWriterPerIndex : Obligations.OneWriterPerIndex := by
  intro s t p rest hs h
  rw [← nextIdx_head, ← nextIdx_tail]
  cases step_portEffect_of_cons hs h with
  | unchanged hr | faulted _ _ hr =>
    obtain ⟨-, -, hh, ht, -⟩ := ring_eq_iff.mp hr
    exact ⟨fun _ => ⟨ht, .inl hh⟩, fun _ => ⟨hh, .inl ht⟩, fun _ => .inl ⟨hh, ht⟩⟩
  | completed hp _ _ hr =>
    obtain ⟨-, -, hh, ht, -⟩ := ring_eq_iff.mp hr
    subst hp
    exact ⟨fun _ => ⟨ht, .inr hh⟩, nofun, nofun⟩
  | issued i _ he =>
    cases he with
    | unchanged hr | wordWritten _ _ _ _ _ _ _ _ _ hr =>
      obtain ⟨-, -, hh, ht, -⟩ := ring_eq_iff.mp hr
      exact ⟨fun _ => ⟨ht, .inl hh⟩, fun _ => ⟨hh, .inl ht⟩, fun _ => .inl ⟨hh, ht⟩⟩
    | renewed _ _ _ _ hp _ _ _ _ _ _ _ hr =>
      obtain ⟨-, -, hh, ht, -⟩ := ring_eq_iff.mp hr
      subst hp
      exact ⟨nofun, nofun, fun _ => .inr ⟨hh, ht⟩⟩
    | published _ hp _ _ _ hr =>
      obtain ⟨-, -, hh, ht, -⟩ := ring_eq_iff.mp hr
      subst hp
      exact ⟨fun _ => ⟨ht, .inr hh⟩, nofun, nofun⟩
    | held _ _ hp _ _ _ _ hr =>
      obtain ⟨-, -, hh, ht, -⟩ := ring_eq_iff.mp hr
      subst hp
      exact ⟨fun _ => ⟨ht, .inl hh⟩, nofun, nofun⟩
    | retired hp _ _ hr =>
      obtain ⟨-, -, hh, ht, -⟩ := ring_eq_iff.mp hr
      subst hp
      exact ⟨nofun, fun _ => ⟨hh, .inr ht⟩, nofun⟩

/-- The port numbers and the opcode in the fault record, as the statements write the record out (R22). -/
theorem packFault_eq_faultWord (c : Cause) (p : Port) (w : CmdWord) :
    packFault (causeCode c) (portCode p) (opField w) = faultWord (causeCode c).toNat p w := by
  have hport : (portCode p).toNat = portNumber p := by cases p <;> rfl
  rw [faultWord, ← hport, ← opField_toNat, ← packFault_toNat, BitVec.ofNat_toNat, BitVec.setWidth_eq]

theorem raiseFault_eq_faulted (c : Cause) (s : State) : raiseFault c s = faulted s (causeCode c).toNat := by
  rw [faulted, ← packFault_eq_faultWord, BitVec.ofNat_toNat, BitVec.setWidth_eq]
  rfl

theorem Filled.produces {i : Instr} {pr : Params} {r : RingState} {m : Memory} (h : Filled i pr r m) :
    i = .produceHead ∨ i = .pushFront := h.imp And.left And.left

theorem Filled.storage_eq {i : Instr} {pr : Params} {r : RingState} {m : Memory} (h : Filled i pr r m)
    (hi : i ≠ .pushFront) : m = r.storage :=
  h.elim And.right fun hw => absurd hw.1 hi

theorem readBlock_of_no_slots {p : Params} {m : Memory} (h : m.size = 0) (slot : Nat) : readBlock p m slot = none :=
  if_neg (by omega)

/-- Settles O26: a fault writes FAULT alone, and each effect writes the registers of its commands' rows in R34. -/
theorem registerWriters : Obligations.RegisterWriters := by
  intro i s t h
  obtain ⟨hparams, -⟩ := exec_sameInputs h
  have same : t.storage = s.storage → ∀ slot, readBlock t.params t.storage slot = readBlock s.params s.storage slot :=
    fun hst _ => by rw [hparams, hst]
  rcases exec_effect h with ⟨c, rfl⟩ | he
  · exact ⟨fun _ => rfl, fun _ => ⟨rfl, rfl⟩, fun _ => rfl, fun _ => rfl, fun _ => rfl, fun _ => rfl,
      fun _ _ _ => same rfl, .inr ⟨_, (causeCode_range c).1, (causeCode_range c).2, raiseFault_eq_faulted c s⟩⟩
  · cases he with
    | unchanged hr =>
      obtain ⟨h1, h2, h3, h4, h5, h6, h7, h8⟩ := ring_eq_iff.mp hr
      exact ⟨fun _ => h1, fun _ => ⟨h2, h8⟩, fun _ => h3, fun _ => h4, fun _ => h5, fun _ => h7, fun _ _ _ => same h7,
        .inl h6⟩
    | renewed ph n f o _ hidle hphase _ hctor _ _ _ hr =>
      obtain ⟨h1, -, -, -, h5, h6, h7, -⟩ := ring_eq_iff.mp hr
      have hi : IsConstructor i ∨ NeedsQuiescence i := hidle.imp And.left And.left
      refine ⟨fun hno => h1.trans (hphase.resolve_right hno), fun hno => absurd hi hno,
        fun hno => absurd (hi.imp_right .inl) hno, fun hno => absurd (hi.imp_right .inl) hno, fun _ => h5,
        fun hno => absurd (hi.imp_right .inl) hno, ?_, .inl h6⟩
      rintro rfl hstore hph slot
      obtain ⟨-, hun⟩ | ⟨hq, -⟩ := hidle
      · have hs : s.storage.size = 0 := hstore.1.trans (by rw [(hph hun).1]; rfl)
        have ht : t.storage.size = 0 := (congrArg Memory.size h7).trans (hctor rfl)
        rw [readBlock_of_no_slots hs, readBlock_of_no_slots ht]
      · simp [NeedsQuiescence] at hq
    | published m _ hm _ _ hr =>
      obtain ⟨h1, h2, -, h4, h5, h6, h7, h8⟩ := ring_eq_iff.mp hr
      exact ⟨fun _ => h1, fun _ => ⟨h2, h8⟩, fun hno => absurd (.inr (.inr hm.produces)) hno, fun _ => h4, fun _ => h5,
        fun hno => h7.trans (hm.storage_eq fun hi => hno (.inr (.inr (.inl hi)))),
        fun h0 _ _ => same (h7.trans (hm.storage_eq fun hi => nomatch h0.symm.trans hi)), .inl h6⟩
    | held m _ _ hm _ _ _ hr =>
      obtain ⟨h1, h2, h3, h4, -, h6, h7, h8⟩ := ring_eq_iff.mp hr
      exact ⟨fun _ => h1, fun _ => ⟨h2, h8⟩, fun _ => h3, fun _ => h4, fun hno => absurd hm.produces hno,
        fun hno => h7.trans (hm.storage_eq fun hi => hno (.inr (.inr (.inl hi)))),
        fun h0 _ _ => same (h7.trans (hm.storage_eq fun hi => nomatch h0.symm.trans hi)), .inl h6⟩
    | retired _ hi _ hr =>
      obtain ⟨h1, h2, h3, h4, h5, h6, h7, h8⟩ := ring_eq_iff.mp hr
      exact ⟨fun _ => h1, fun _ => ⟨h2, h8⟩, fun _ => h3, fun hno => absurd (.inr (.inr hi)) hno, fun _ => h5, fun _ => h7,
        fun _ _ _ => same h7, .inl h6⟩
    | wordWritten slot w v m hi _ _ _ _ hr =>
      obtain ⟨h1, h2, h3, h4, h5, h6, h7, h8⟩ := ring_eq_iff.mp hr
      exact ⟨fun _ => h1, fun _ => ⟨h2, h8⟩, fun _ => h3, fun _ => h4, fun _ => h5,
        fun hno => absurd (.inr (.inr (.inr ⟨slot, w, hi⟩))) hno, fun h0 => absurd (hi.symm.trans h0) nofun, .inl h6⟩

/-! #### Occupancy and the slots that are live (R26, R27) -/

/-- Below the capacity the occupancy is how far HEAD is ahead of TAIL, going round. -/
theorem occ_cases {s : State} (hidx : IndexRange s) (hcap : s.cap ≠ 0) :
    (s.tail.toNat ≤ s.head.toNat ∧ occ s + s.tail.toNat = s.head.toNat) ∨
      (s.head.toNat < s.tail.toNat ∧ occ s + s.tail.toNat = s.head.toNat + s.cap.toNat) := by
  obtain ⟨hh, ht⟩ := hidx.2 hcap
  rw [occ, if_neg hcap]
  rcases Nat.lt_or_ge s.head.toNat s.tail.toNat with hlt | hge
  · exact .inr ⟨hlt, by rw [Nat.mod_eq_of_lt (by omega)]; omega⟩
  · refine .inl ⟨hge, ?_⟩
    rw [show s.head.toNat + s.cap.toNat - s.tail.toNat = s.head.toNat - s.tail.toNat + s.cap.toNat by omega,
      Nat.add_mod_right, Nat.mod_eq_of_lt (by omega)]
    omega

theorem occ_lt_cap {s : State} (hidx : IndexRange s) (hcap : s.cap ≠ 0) : occ s < s.cap.toNat := by
  have := hidx.2 hcap
  rcases occ_cases hidx hcap with ⟨_, _⟩ | ⟨_, _⟩ <;> omega

/-- Below the capacity, `succ` adds one, or wraps to 0. -/
theorem succ_of_lt {cap i : Nat} (h : i < cap) : succ cap i = if i + 1 = cap then 0 else i + 1 := by
  rw [succ, if_neg (by omega)]
  split
  · next e => rw [e, Nat.mod_self]
  · exact Nat.mod_eq_of_lt (by omega)

theorem nextIdx_ne_self {cap i : Idx} (hcap : 2 ≤ cap.toNat) (hi : i.toNat < cap.toNat) : nextIdx cap i ≠ i := by
  intro h
  have hnext := nextIdx_toNat_of_lt hi
  rw [h] at hnext
  split at hnext <;> omega

theorem cap_ne_zero_of_two_le {s : State} (hcap : 2 ≤ s.cap.toNat) : s.cap ≠ 0 := fun h0 => by
  rw [h0] at hcap
  exact absurd hcap (by decide)

theorem occ_eq_zero_iff {s : State} (hidx : IndexRange s) : s.head = s.tail ↔ occ s = 0 := by
  by_cases hcap : s.cap = 0
  · obtain ⟨hh, ht⟩ := hidx.1 hcap
    exact iff_of_true (hh.trans ht.symm) (if_pos hcap)
  · obtain ⟨hh, ht⟩ := hidx.2 hcap
    have hocc := occ_cases hidx hcap
    rw [← BitVec.toNat_inj]
    omega

theorem full_iff_occ {s : State} (hidx : IndexRange s) (hcap : s.cap ≠ 0) : Full s ↔ occ s = s.cap.toNat - 1 := by
  obtain ⟨hh, ht⟩ := hidx.2 hcap
  have hocc := occ_cases hidx hcap
  rw [Full, succ_of_lt hh]
  split <;> omega

/-- With two slots or more an empty ring is not full. -/
theorem not_full_of_empty {s : State} (hidx : IndexRange s) (h2 : 2 ≤ s.cap.toNat) (he : s.head = s.tail) : ¬Full s :=
  fun hf => nextIdx_ne_self h2 (hidx.2 (cap_ne_zero_of_two_le h2)).1
    ((ringFull_iff.mp (isFull_iff_full.mpr hf)).trans he.symm)

/-- With one slot, or none, the ring is empty and full at once (R28). -/
theorem empty_and_full_of_cap_le_one {s : State} (hidx : IndexRange s) (h1 : s.cap.toNat ≤ 1) :
    s.head = s.tail ∧ Full s := by
  by_cases hcap : s.cap = 0
  · obtain ⟨hh, ht⟩ := hidx.1 hcap
    refine ⟨hh.trans ht.symm, ?_⟩
    rw [Full, hcap, hh, ht]
    rfl
  · have hlt := occ_lt_cap hidx hcap
    exact ⟨(occ_eq_zero_iff hidx).mpr (by omega), (full_iff_occ hidx hcap).mpr (by omega)⟩

/-- Settles O24. -/
theorem occupancyEmptyAndFull : Obligations.OccupancyEmptyAndFull := by
  intro s hidx
  exact ⟨fun hcap => Nat.le_sub_one_of_lt (occ_lt_cap hidx hcap), occ_eq_zero_iff hidx,
    fun h2 => ⟨full_iff_occ hidx (cap_ne_zero_of_two_le h2), fun ⟨he, hf⟩ => not_full_of_empty hidx h2 he hf⟩,
    empty_and_full_of_cap_le_one hidx⟩

/-! #### The live blocks under the steps of the two sides (R54, R55) -/

/-- Where live block `k` stands, without a remainder. -/
theorem liveSlot_cases {s : State} (hidx : IndexRange s) (hcap : s.cap ≠ 0) {k : Nat} (hk : k < s.cap.toNat) :
    liveSlot s k = s.tail.toNat + k ∨ liveSlot s k + s.cap.toNat = s.tail.toNat + k := by
  have ht := (hidx.2 hcap).2
  rw [liveSlot]
  rcases Nat.lt_or_ge (s.tail.toNat + k) s.cap.toNat with hlt | hge
  · exact .inl (Nat.mod_eq_of_lt hlt)
  · refine .inr ?_
    rw [Nat.mod_eq_sub_mod hge, Nat.mod_eq_of_lt (by omega)]
    omega

theorem cap_ne_zero_of_lt_occ {s : State} {k : Nat} (hk : k < occ s) : s.cap ≠ 0 := by
  intro h0
  rw [occ, if_pos h0] at hk
  exact absurd hk (Nat.not_lt_zero k)

/-- The head slot is not live. -/
theorem liveSlot_ne_head {s : State} (hidx : IndexRange s) {k : Nat} (hk : k < occ s) : liveSlot s k ≠ s.head.toNat := by
  have hcap := cap_ne_zero_of_lt_occ hk
  have hlt := occ_lt_cap hidx hcap
  rcases occ_cases hidx hcap with ho | ho <;> rcases liveSlot_cases hidx hcap (hk.trans hlt) with hl | hl <;> omega

/-- The tail slot holds no live block but the oldest. -/
theorem liveSlot_ne_tail {s : State} (hidx : IndexRange s) {k : Nat} (h0 : 0 < k) (hk : k < occ s) :
    liveSlot s k ≠ s.tail.toNat := by
  have hcap := cap_ne_zero_of_lt_occ hk
  have hlt := occ_lt_cap hidx hcap
  rcases liveSlot_cases hidx hcap (hk.trans hlt) with hl | hl <;> omega

/-- The head slot comes right after the youngest live one. -/
theorem liveSlot_occ {s : State} (hidx : IndexRange s) (hcap : s.cap ≠ 0) : liveSlot s (occ s) = s.head.toNat := by
  obtain ⟨hh, ht⟩ := hidx.2 hcap
  have hlt := occ_lt_cap hidx hcap
  have hlive : liveSlot s (occ s) < s.cap.toNat := Nat.mod_lt _ (cap_toNat_pos hcap)
  rcases occ_cases hidx hcap with ho | ho <;> rcases liveSlot_cases hidx hcap hlt with hl | hl <;> omega

theorem liveSlot_zero {s : State} (hidx : IndexRange s) (hcap : s.cap ≠ 0) : liveSlot s 0 = s.tail.toNat :=
  Nat.mod_eq_of_lt (hidx.2 hcap).2

/-- What a step of P does to the ring that the consumer can see. -/
theorem producer_effect {s t : State} (hinv : s.Inv) (he : PortEffect .P s t) :
    t.cap = s.cap ∧ t.tail = s.tail ∧ ChangesOnlySlot s.params s.head.toNat s.storage t.storage ∧
      (t.head = s.head ∨ (s.cap ≠ 0 ∧ nextIdx s.cap s.head ≠ s.tail ∧ t.head = nextIdx s.cap s.head)) := by
  obtain ⟨kp, -, ⟨-, hwf⟩, -, -, kpend, -⟩ := hinv
  have hsame : ∀ {m}, m = s.storage → ChangesOnlySlot s.params s.head.toNat s.storage m :=
    fun hm => by rw [hm]; exact ⟨rfl, hwf, fun _ _ => rfl⟩
  cases he with
  | unchanged hr | faulted _ _ hr =>
    obtain ⟨-, h2, h3, h4, -, -, h7, -⟩ := ring_eq_iff.mp hr
    exact ⟨h2, h4, hsame h7, .inl h3⟩
  | completed _ hpend hroom hr =>
    obtain ⟨-, h2, h3, h4, -, -, h7, -⟩ := ring_eq_iff.mp hr
    exact ⟨h2, h4, hsame h7, .inr ⟨kpend.2 hpend, hroom, h3⟩⟩
  | issued i _ he =>
    cases he with
    | unchanged hr =>
      obtain ⟨-, h2, h3, h4, -, -, h7, -⟩ := ring_eq_iff.mp hr
      exact ⟨h2, h4, hsame h7, .inl h3⟩
    | renewed _ _ _ _ hp | retired hp => cases hp
    | published m _ hm hcap hroom hr =>
      obtain ⟨-, h2, h3, h4, -, -, h7, -⟩ := ring_eq_iff.mp hr
      exact ⟨h2, h4, h7 ▸ hm.changesOnlyHead hwf, .inr ⟨hcap, hroom, h3⟩⟩
    | held m _ _ hm _ _ _ hr =>
      obtain ⟨-, h2, h3, h4, -, -, h7, -⟩ := ring_eq_iff.mp hr
      exact ⟨h2, h4, h7 ▸ hm.changesOnlyHead hwf, .inl h3⟩
    | wordWritten slot w v m _ hown _ hv hw hr =>
      obtain ⟨-, h2, h3, h4, -, -, h7, -⟩ := ring_eq_iff.mp hr
      obtain ⟨-, rfl⟩ | ⟨hp, -⟩ := hown
      · exact ⟨h2, h4, h7 ▸ changesOnlySlot_writeWord kp hwf hv hw, .inl h3⟩
      · cases hp

/-- What a step of C does to the ring that the producer can see: it moves TAIL, or writes the tail slot, or neither. -/
theorem consumer_effect {s t : State} (hinv : s.Inv) (he : PortEffect .C s t) :
    t.cap = s.cap ∧ t.head = s.head ∧
      ((t.tail = s.tail ∧ t.storage = s.storage) ∨
        (s.head ≠ s.tail ∧ t.tail = s.tail ∧ ChangesOnlySlot s.params s.tail.toNat s.storage t.storage) ∨
        (s.head ≠ s.tail ∧ t.tail = nextIdx s.cap s.tail ∧ t.storage = s.storage)) := by
  obtain ⟨kp, -, ⟨-, hwf⟩, -⟩ := hinv
  cases he with
  | unchanged hr | faulted _ _ hr =>
    obtain ⟨-, h2, h3, h4, -, -, h7, -⟩ := ring_eq_iff.mp hr
    exact ⟨h2, h3, .inl ⟨h4, h7⟩⟩
  | completed hp => cases hp
  | issued i _ he =>
    cases he with
    | unchanged hr =>
      obtain ⟨-, h2, h3, h4, -, -, h7, -⟩ := ring_eq_iff.mp hr
      exact ⟨h2, h3, .inl ⟨h4, h7⟩⟩
    | renewed _ _ _ _ hp | published _ hp | held _ _ hp => cases hp
    | retired _ _ hne hr =>
      obtain ⟨-, h2, h3, h4, -, -, h7, -⟩ := ring_eq_iff.mp hr
      exact ⟨h2, h3, .inr (.inr ⟨hne, h4, h7⟩)⟩
    | wordWritten slot w v m _ hown _ hv hw hr =>
      obtain ⟨-, h2, h3, h4, -, -, h7, -⟩ := ring_eq_iff.mp hr
      obtain ⟨hp, -⟩ | ⟨-, hne, rfl⟩ := hown
      · cases hp
      · exact ⟨h2, h3, .inr (.inl ⟨hne, h4, h7 ▸ changesOnlySlot_writeWord kp hwf hv hw⟩)⟩

/-- A slot that is not the one changed reads as before. -/
theorem ChangesOnlySlot.readBlock_eq {pr : Params} {slot k : Nat} {m m' : Memory} (h : ChangesOnlySlot pr slot m m')
    (hk : k ≠ slot) : readBlock pr m' k = readBlock pr m k := by
  obtain ⟨hsize, -, hblock⟩ := h
  rw [readBlock, readBlock, hsize, hblock k hk]

/-- Settles O56. -/
theorem neitherSideWritesTheOthersSlots : Obligations.NeitherSideWritesTheOthersSlots := by
  intro s t rest slot hinv h
  rw [parametersNeverChange s t h]
  refine ⟨fun hs hne => ?_, fun hs hne => ?_⟩
  · obtain ⟨-, -, hchange, -⟩ := producer_effect hinv (step_portEffect_of_cons hs h)
    exact hchange.readBlock_eq hne
  · obtain ⟨-, -, ⟨-, hst⟩ | ⟨hht, -, hchange⟩ | ⟨-, -, hst⟩⟩ := consumer_effect hinv (step_portEffect_of_cons hs h)
    · rw [hst]
    · exact hchange.readBlock_eq (hne.resolve_right hht)
    · rw [hst]

/-- Publishing adds one to the occupancy. -/
theorem occ_of_published {s t : State} (hs : IndexRange s) (ht : IndexRange t) (hcap : s.cap ≠ 0) (hc : t.cap = s.cap)
    (htail : t.tail = s.tail) (hroom : nextIdx s.cap s.head ≠ s.tail) (hhead : t.head = nextIdx s.cap s.head) :
    occ t = occ s + 1 := by
  have hnext := nextIdx_toNat_of_lt (hs.2 hcap).1
  have hne : (nextIdx s.cap s.head).toNat ≠ s.tail.toNat := mt BitVec.eq_of_toNat_eq hroom
  have hot := occ_cases ht (hc ▸ hcap)
  have hos := occ_cases hs hcap
  rw [hc, htail, hhead] at hot
  have := hs.2 hcap
  split at hnext <;> omega

/-- Retiring takes one from the occupancy. -/
theorem occ_of_retired {s t : State} (hs : IndexRange s) (ht : IndexRange t) (hcap : s.cap ≠ 0) (hc : t.cap = s.cap)
    (hhead : t.head = s.head) (hne : s.head ≠ s.tail) (htail : t.tail = nextIdx s.cap s.tail) : occ s = occ t + 1 := by
  have hnext := nextIdx_toNat_of_lt (hs.2 hcap).2
  have hne' : s.head.toNat ≠ s.tail.toNat := mt BitVec.eq_of_toNat_eq hne
  have hot := occ_cases ht (hc ▸ hcap)
  have hos := occ_cases hs hcap
  rw [hc, htail, hhead] at hot
  have := hs.2 hcap
  split at hnext <;> omega

theorem occ_congr {s t : State} (hc : t.cap = s.cap) (hh : t.head = s.head) (ht : t.tail = s.tail) : occ t = occ s := by
  rw [occ, occ, hc, hh, ht]

theorem liveSlot_congr {s t : State} (hc : t.cap = s.cap) (ht : t.tail = s.tail) (k : Nat) : liveSlot t k = liveSlot s k := by
  rw [liveSlot, liveSlot, hc, ht]

/-- Settles O44: P changes no live slot, and the slot it publishes is the head slot. -/
theorem publishingAppendsToTheQueue : Obligations.PublishingAppendsToTheQueue := by
  intro s t rest hinv hs h
  have hpar := parametersNeverChange s t h
  have hidx : IndexRange s := hinv.2.1
  have hidxt : IndexRange t := (stepKeepsInvariant s t hinv h).2.1
  obtain ⟨hc, htail, ⟨-, -, hblock⟩, hhead⟩ := producer_effect hinv (step_portEffect_of_cons hs h)
  have hkeep : ∀ k ∈ List.range (occ s),
      slotBlock t.params t.storage (liveSlot t k) = slotBlock s.params s.storage (liveSlot s k) := fun k hk => by
    rw [hpar, liveSlot_congr hc htail, hblock _ (liveSlot_ne_head hidx (List.mem_range.mp hk))]
  refine ⟨fun hsame => ?_, fun hmoved => ?_⟩
  · rw [liveBlocks, occ_congr hc hsame htail, List.map_congr_left hkeep]
    rfl
  · obtain ⟨hcap, hroom, hh⟩ := hhead.resolve_left hmoved
    rw [liveBlocks, occ_of_published hidx hidxt hcap hc htail hroom hh, List.range_succ, List.map_append,
      List.map_congr_left hkeep, List.map_singleton, liveSlot_congr hc htail, liveSlot_occ hidx hcap]
    rfl

/-- Settles O45: C changes no live slot but the oldest, and the slots that stay live keep their order. -/
theorem retiringDropsTheOldestBlock : Obligations.RetiringDropsTheOldestBlock := by
  intro s t rest hinv hs h
  have hpar := parametersNeverChange s t h
  have hidx : IndexRange s := hinv.2.1
  have hidxt : IndexRange t := (stepKeepsInvariant s t hinv h).2.1
  obtain ⟨hc, hhead, hcases⟩ := consumer_effect hinv (step_portEffect_of_cons hs h)
  have hkeep : (∀ k, k ≠ s.tail.toNat → slotBlock s.params t.storage k = slotBlock s.params s.storage k) → t.tail = s.tail →
      (liveBlocks t).length = (liveBlocks s).length ∧ (liveBlocks t).tail = (liveBlocks s).tail := fun hblock htail => by
    rw [liveBlocks, liveBlocks, occ_congr hc hhead htail]
    refine ⟨by simp only [List.length_map], ?_⟩
    rw [← List.map_tail, ← List.map_tail, List.tail_range]
    refine List.map_congr_left fun k hk => ?_
    obtain ⟨h1, h2⟩ := List.mem_range'_1.mp hk
    rw [hpar, liveSlot_congr hc htail, hblock _ (liveSlot_ne_tail hidx (by omega) (by omega))]
  rcases hcases with ⟨htail, hst⟩ | ⟨-, htail, -, -, hblock⟩ | ⟨hne, htail, hst⟩
  · exact ⟨hkeep fun k _ => by rw [hst], fun hmoved => absurd htail hmoved⟩
  · exact ⟨hkeep hblock, fun hmoved => absurd htail hmoved⟩
  · have hcap := cap_ne_zero_of_nonempty hidx hne
    have hocc := occ_of_retired hidx hidxt hcap hc hhead hne htail
    refine ⟨fun hsame => ?_, fun _ => ?_⟩
    · have := occ_congr hc hhead hsame
      omega
    · rw [liveBlocks, hocc, List.range_succ_eq_map, List.map_cons, List.map_map, liveSlot_zero hidx hcap, liveBlocks, hst,
        hpar]
      refine congrArg _ (List.map_congr_left fun k _ => ?_)
      have hslot : liveSlot s (k + 1) = liveSlot t k := by
        rw [liveSlot, liveSlot, hc, htail, nextIdx_toNat hcap, Nat.mod_add_mod, Nat.add_right_comm, Nat.add_assoc]
      exact congrArg _ hslot

/-! #### Capacity 1 (R28, R129) -/

/-- A held producer with no free slot is not answered: only P's own completion would be. -/
theorem no_answer_on_P_while_full {s t : State} (hpend : s.pend ≠ 0) (hfull : isFull s = true) (hn : nextEvent s ≠ .reset)
    (h : step s = .next t) (r : Response) : t.outputs ≠ .response .P r :: s.outputs := by
  rcases step_next h with rfl | ⟨hr, -⟩ | ⟨-, -, -, hf, -⟩ | ⟨p, c, rest, -, -, -, hfree, ht⟩
  · exact List.ne_cons_self
  · exact absurd hr hn
  · exact absurd (hf.symm.trans hfull) nofun
  · have hp : p ≠ .P := fun hp => hfree ⟨hp, hpend⟩
    rcases ht with ⟨e, -, rfl⟩ | ⟨i, -, he⟩
    · exact fun hout => hp (Output.response.inj (List.cons.inj hout).1).1
    · rcases (exec_answers he).outputs with ⟨r', old, ho, -⟩ | ⟨hP, -⟩
      · rw [ho]
        exact fun hout => hp (Output.response.inj (List.cons.inj hout).1).1
      · exact absurd hP hp

/-- Settles O47: at capacity 1 the ring is empty and full at once, so neither side can move, and the Admin
commands that could renew it fault. -/
theorem capacityOneHoldsForEver : Obligations.CapacityOneHoldsForEver := by
  intro s t hinv h1 hpend hn h
  obtain ⟨-, hidx, -, -, hphase, -⟩ := id hinv
  obtain ⟨hempty, hfull⟩ := empty_and_full_of_cap_le_one hidx (by rw [h1]; decide)
  have hfull := isFull_iff_full.mpr hfull
  have hlive : s.phase = .live := live_of_cap_ne_zero hphase (by rw [h1]; decide)
  have hring : t.cap = s.cap ∧ t.pend = s.pend ∧ t.head = s.head := by
    cases he : nextEvent s with
    | reset => exact absurd he hn
    | step p =>
      cases step_portEffect he h with
      | unchanged hr | faulted _ _ hr =>
        obtain ⟨-, h2, h3, -, h5, -⟩ := ring_eq_iff.mp hr
        exact ⟨h2, h5, h3⟩
      | completed _ _ hroom => exact absurd (ringFull_iff.mp hfull) hroom
      | issued i hfree heff =>
        cases heff with
        | unchanged hr | wordWritten _ _ _ _ _ _ _ _ _ hr =>
          obtain ⟨-, h2, h3, -, h5, -⟩ := ring_eq_iff.mp hr
          exact ⟨h2, h5, h3⟩
        | renewed _ _ _ _ _ hidle =>
          rcases hidle with ⟨-, hun⟩ | ⟨-, hq⟩
          · exact absurd (hlive.symm.trans hun) nofun
          · exact absurd hq hpend
        | published _ hp | held _ _ hp => exact absurd ⟨hp, hpend⟩ hfree
        | retired _ _ hne => exact absurd hempty hne
  obtain ⟨hcap, hpend', hhead⟩ := hring
  exact ⟨hcap.trans h1, hpend', hhead, no_answer_on_P_while_full hpend hfull hn h⟩

/-! #### Every command has its meaning in a state that meets the invariant -/

theorem decodeC_ok {w : CmdWord} {i j : Instr} (h : decodeC w i = .ok j) : j = i := by
  unfold decodeC at h
  split at h
  · exact (Except.ok.inj h).symm
  · cases h

theorem decodeN_ok {w : CmdWord} {mk : Nat → Instr} {j : Instr} (h : decodeN w mk = .ok j) : j = mk (nField w).toNat := by
  unfold decodeN at h
  split at h
  · exact (Except.ok.inj h).symm
  · cases h

theorem decodeS_ok {w : CmdWord} {mk : Nat → Nat → Instr} {j : Instr} (h : decodeS w mk = .ok j) :
    j = mk (nField w).toNat (wField w).toNat := (Except.ok.inj h).symm

/-- The operands of a decoded word fit their fields (R64). -/
theorem decode_wellFormed {w : CmdWord} {i : Instr} (h : decode w = .ok i) : WellFormed i = true := by
  have hcount : fitsCount (nField w).toNat = true := decide_eq_true (nField w).isLt
  have hword : fitsWordIndex (wField w).toNat = true := decide_eq_true (wField w).isLt
  unfold decode at h
  split at h
  case h_1 => cases h
  case h_3 | h_13 | h_14 =>
    rw [decodeN_ok h]
    exact hcount
  case h_15 | h_16 =>
    rw [decodeS_ok h]
    exact Bool.and_eq_true_iff.mpr ⟨hcount, hword⟩
  all_goals
    rw [decodeC_ok h]
    rfl

theorem le_capMax_of_fitsCount {n : Nat} (h : fitsCount n = true) : ¬capMax < n := by
  have := of_decide_eq_true h
  unfold capMax
  omega

/-- A word of a slot of the ring can be read; no other address exists (R39, R45). -/
theorem readWord_of_inSlotSpace {s : State} {slot w : Nat} (hinv : s.Inv) (h : InSlotSpace s slot w) :
    ∃ v, readWord s.params s.storage slot w = some v ∧ (slotBlock s.params s.storage slot)[w]? = some v ∧
      v < 2 ^ s.params.wordBits := by
  obtain ⟨hp, -, ⟨hsize, hwf⟩, -⟩ := hinv
  obtain ⟨hlen, hbits⟩ := blockOk_iff.mp (blockOk_slotBlock hp hwf slot)
  have hw : w < (slotBlock s.params s.storage slot).length := hlen ▸ h.2
  have hget := List.getElem?_eq_getElem hw
  refine ⟨_, ?_, hget, hbits _ (List.getElem_mem hw)⟩
  rw [readWord, readBlock, if_pos (hsize ▸ h.1), Option.bind_some, hget]

theorem readWord_of_not_inSlotSpace {s : State} {slot w : Nat} (hinv : s.Inv) (h : ¬InSlotSpace s slot w) :
    readWord s.params s.storage slot w = none := by
  obtain ⟨hp, -, ⟨hsize, hwf⟩, -⟩ := hinv
  obtain ⟨hlen, -⟩ := blockOk_iff.mp (blockOk_slotBlock hp hwf slot)
  rw [readWord, readBlock]
  split
  · next hslot =>
    rw [Option.bind_some]
    exact List.getElem?_eq_none (hlen ▸ Nat.le_of_not_lt fun hw => h ⟨hsize ▸ hslot, hw⟩)
  · rfl

/-- Settles O14. -/
theorem inspectionNumbers : Obligations.InspectionNumbers := by
  intro s hinv
  have hphase : inspect s 0 = some (.bits (if s.phase = .live then 1 else 0)) := by
    cases h : s.phase <;> simp [inspect, phaseBit, h]
  have hbeyond : ∀ number, 7 ≤ number → inspect s number = none
    | n + 7, _ => rfl
  exact ⟨hphase, rfl, rfl, rfl, rfl, rfl, rfl, hbeyond,
    fun _ _ => ⟨readWord_of_inSlotSpace hinv, readWord_of_not_inSlotSpace hinv⟩⟩

theorem exists_next_afterPrologue {i : Instr} {s : State} {body : Result} (h : ∃ t, body = .next t) :
    ∃ t, afterPrologue i s body = .next t := by
  obtain ⟨t, rfl⟩ := h
  unfold afterPrologue
  split
  · exact ⟨_, rfl⟩
  · exact ⟨t, rfl⟩

/-- No command whose operands fit stops the machine in a state that meets the invariant: its count is below the limit, and
its storage access is in the slot space. -/
theorem exists_next_exec {i : Instr} {s : State} (hinv : s.Inv) (hi : WellFormed i = true) : ∃ t, exec i s = .next t := by
  obtain ⟨-, hidx, ⟨hsize, -⟩, -⟩ := id hinv
  cases i with
  | ctorn n | resize n | provide n =>
    refine exists_next_afterPrologue ?_
    rw [if_neg (le_capMax_of_fitsCount hi)]
    exact ⟨_, rfl⟩
  | pushFront =>
    refine exists_next_afterPrologue ?_
    split
    · exact ⟨_, rfl⟩
    · next hcap =>
      obtain ⟨m, hm⟩ := writeBlock_isSome (p := s.params) (b := operandB s) (hsize ▸ (hidx.2 hcap).1)
      rw [hm]
      exact ⟨_, rfl⟩
  | popBack =>
    refine exists_next_afterPrologue ?_
    split
    · exact ⟨_, rfl⟩
    · next he =>
      have hcap := cap_ne_zero_of_nonempty hidx (mt ringEmpty_iff.mpr he)
      rw [readBlock, if_pos (hsize ▸ (hidx.2 hcap).2)]
      exact ⟨_, rfl⟩
  | slotRd slot w =>
    refine exists_next_afterPrologue ?_
    split
    · exact ⟨_, rfl⟩
    · next ha =>
      obtain ⟨⟨-, hspace⟩, -⟩ := slotAccessFault_eq_none.mp ha
      obtain ⟨v, hv, -⟩ := readWord_of_inSlotSpace hinv hspace
      rw [hv]
      exact ⟨_, rfl⟩
  | slotWr slot w =>
    refine exists_next_afterPrologue ?_
    split
    · exact ⟨_, rfl⟩
    · next ha =>
      obtain ⟨⟨-, hspace⟩, -⟩ := slotAccessFault_eq_none.mp ha
      obtain ⟨v, -, hget, -⟩ := readWord_of_inSlotSpace hinv hspace
      obtain ⟨hlt, -⟩ := List.getElem?_eq_some_iff.mp hget
      obtain ⟨m, hm⟩ := writeWord_isSome (v := operandV s) (hsize ▸ hspace.1) hlt
      rw [hm]
      exact ⟨_, rfl⟩
  | _ => exact exists_next_afterPrologue ⟨_, rfl⟩

/-- Settles O15. -/
theorem invariantStatesNeverStop : Obligations.InvariantStatesNeverStop := by
  intro s hinv
  cases hn : nextEvent s with
  | reset => exact ⟨_, step_of_reset hn⟩
  | step p =>
    rw [step_of_port hn]
    rcases portStep_cases p (takeEvent s) with ⟨hr, -⟩ | ⟨hr, -⟩ | ⟨c, rest, -, -, -, hr⟩ <;> rw [hr]
    · exact ⟨_, rfl⟩
    · exact ⟨_, rfl⟩
    · rcases runBus_cases (accept p c rest (takeEvent s)) with ⟨e, -, hb⟩ | ⟨i, hi, hb⟩ <;> rw [hb]
      · exact ⟨_, rfl⟩
      · have hring : (accept p c rest (takeEvent s)).ring = s.ring := (accept_ring _ _ _ _).trans (takeEvent_ring s)
        exact exists_next_exec (inv_of_ring_eq (accept_params _ _ _ _) hring hinv) (decode_wellFormed hi)

/-! #### Whose slot it is (R30, R31, R48) -/

/-- P owns the head slot, which stands before the other stages. -/
theorem ownerOf_eq_P {s : State} {slot : Nat} : ownerOf s slot = some .P ↔ slot < s.cap.toNat ∧ slot = s.head.toNat := by
  unfold ownerOf stageOf
  split_ifs <;> simp_all

/-- C owns the tail slot of a ring that is not empty. -/
theorem ownerOf_eq_C {s : State} {slot : Nat} :
    ownerOf s slot = some .C ↔
      slot < s.cap.toNat ∧ slot ≠ s.head.toNat ∧ isEmpty s = false ∧ slot = s.tail.toNat := by
  unfold ownerOf stageOf
  split_ifs <;> simp_all

/-- The check of a slot operand passes for the owner of the slot, and for a word of the block. -/
theorem slotAccessFault_eq_none_iff_owner {s : State} {slot w : Nat} (hport : s.bus.port = .P ∨ s.bus.port = .C) :
    slotAccessFault slot w s = none ↔ ownerOf s slot = some s.bus.port ∧ w < s.params.blockWords := by
  have hcap : slot < s.cap.toNat → s.cap ≠ 0 := fun hlt h0 => by
    rw [h0] at hlt
    exact absurd hlt (Nat.not_lt_zero slot)
  rw [slotAccessFault_eq_none]
  rcases hport with hP | hC
  · rw [hP, ownerOf_eq_P]
    constructor
    · rintro ⟨⟨-, hlt, hw⟩, hhead, -⟩
      exact ⟨⟨hlt, hhead rfl⟩, hw⟩
    · rintro ⟨⟨hlt, hhead⟩, hw⟩
      exact ⟨⟨hcap hlt, hlt, hw⟩, fun _ => hhead, nofun⟩
  · rw [hC, ownerOf_eq_C]
    constructor
    · rintro ⟨⟨-, hlt, hw⟩, -, htail⟩
      obtain ⟨he, rfl⟩ := htail rfl
      exact ⟨⟨hlt, mt BitVec.eq_of_toNat_eq (ringEmpty_eq_false.mp he).symm, he, rfl⟩, hw⟩
    · rintro ⟨⟨hlt, -, he, htail⟩, hw⟩
      exact ⟨⟨hcap hlt, hlt, hw⟩, nofun, fun _ => ⟨he, htail⟩⟩

/-- A query or a data command passes the prologue of a live ring on a port that R66 marks for it. -/
theorem prologueFault_of_live {i : Instr} {s : State} (hlive : s.phase = .live) (hport : permitted i s.bus.port = true)
    (hc : constructs i = false) (hq : needsQuiescence i = false) : prologueFault i s = none :=
  prologueFault_eq_none.mpr ⟨hport, fun h => absurd (hc.symm.trans h) nofun, fun _ => hlive,
    fun h => absurd (hq.symm.trans h) nofun⟩

/-- Settles O55: the check of the slot operand, which is the owner's check, decides between the data response and a fault. -/
theorem onlyTheOwnerReadsASlot : Obligations.OnlyTheOwnerReadsASlot := by
  intro s slot w hinv hlive hport
  rw [← slotAccessFault_eq_none_iff_owner hport]
  constructor
  · rintro ⟨t, r, h, hout, hr⟩
    rcases execSlotRd_next h with ⟨c, rfl⟩ | ⟨-, ha, -⟩
    · obtain rfl := (Output.response.inj (List.cons.inj hout).1).2
      exact absurd hr (show (2 : BitVec 2) ≠ 0 by decide)
    · exact ha
  · intro ha
    have hp : prologueFault (.slotRd slot w) s = none :=
      prologueFault_of_live hlive (by rcases hport with h | h <;> rw [h] <;> rfl) rfl rfl
    obtain ⟨⟨-, hspace⟩, -⟩ := slotAccessFault_eq_none.mp ha
    obtain ⟨v, hv, -⟩ := readWord_of_inSlotSpace hinv hspace
    have h : exec (.slotRd slot w) s = .next (respondData (wordOut s.params v) s) := by
      simp only [exec, execSlotRd, afterPrologue_of_none hp, ha, hv]
    exact ⟨_, _, h, rfl, rfl⟩

/-! #### Pushing, popping and consuming on a ring of capacity 2 or more -/

theorem exec_pushFront_of_room {s : State} {m : Memory} (hlive : s.phase = .live) (hport : s.bus.port = .P) (hcap : s.cap ≠ 0)
    (hm : writeBlock s.params s.storage s.head.toNat (operandB s) = some m) (hroom : isFull s = false) :
    exec .pushFront s = .next (respondOk 0 { s with storage := m, head := nextIdx s.cap s.head }) := by
  have hp : prologueFault .pushFront s = none := prologueFault_of_live hlive (by rw [hport]; rfl) rfl rfl
  have hpub := publishOrHold_of_not_full (op := 0x8) (s := { s with storage := m }) hroom
  simp only [exec, execPushFront, afterPrologue_of_none hp, if_neg hcap, hm, hpub]

theorem exec_popBack_of_nonempty {s : State} {b : Block} (hlive : s.phase = .live) (hport : s.bus.port = .C)
    (hne : isEmpty s = false) (hb : readBlock s.params s.storage s.tail.toNat = some b) :
    exec .popBack s = .next (respondData b (retire s)) := by
  have hp : prologueFault .popBack s = none := prologueFault_of_live hlive (by rw [hport]; rfl) rfl rfl
  simp only [exec, execPopBack, afterPrologue_of_none hp, hne, hb, Bool.false_eq_true, if_false]

theorem exec_consumeTail_of_nonempty {s : State} (hlive : s.phase = .live) (hport : s.bus.port = .C)
    (hne : isEmpty s = false) : exec .consumeTail s = .next (respondOk 0 (retire s)) := by
  have hp : prologueFault .consumeTail s = none := prologueFault_of_live hlive (by rw [hport]; rfl) rfl rfl
  simp only [exec, execConsumeTail, afterPrologue_of_none hp, hne, Bool.false_eq_true, if_false]

/-- A step in which C issues CONSUME_TAIL on a ring that is not empty retires the tail slot (R87). -/
theorem step_of_consumeTail {s : State} {c : Command} {q : List Command} {rest : List Event} (hi : Issues s .C c q rest)
    (hc : decode c.word = .ok .consumeTail) (hlive : s.phase = .live) (hne : s.head ≠ s.tail) :
    step s = .next (respondOk 0 (retire (accept .C c q { s with schedule := rest }))) := by
  rw [step_of_issues hi, runBus, accept_bus, hc]
  exact exec_consumeTail_of_nonempty hlive rfl (ringEmpty_eq_false.mpr hne)

/-- Settles O52: the block is written to the head slot, which is the tail slot of an empty ring. -/
theorem pushedBlockIsPopped : Obligations.PushedBlockIsPopped := by
  intro s b c hinv hlive hempty h2 hb
  obtain ⟨-, hidx, ⟨hsize, hwf⟩, -⟩ := id hinv
  have hcap := cap_ne_zero_of_two_le h2
  have hlt := (hidx.2 hcap).1
  have hroom : isFull s = false := Bool.eq_false_iff.mpr fun hf =>
    not_full_of_empty hidx h2 hempty (isFull_iff_full.mp hf)
  obtain ⟨m, hm⟩ := writeBlock_isSome (p := s.params) (b := b) (hsize ▸ hlt)
  obtain ⟨hslot, hms, -, hblock⟩ := writeBlock_spec (Memory.wf.rising hwf) hm
  have hread : readBlock s.params m s.tail.toNat = some b :=
    readBlock_eq_some.mpr ⟨hempty ▸ hms ▸ hslot, by rw [hblock, if_pos (by rw [hempty])]⟩
  have hne : nextIdx s.cap s.head ≠ s.tail := hempty ▸ nextIdx_ne_self h2 hlt
  refine ⟨_, exec_pushFront_of_room hlive rfl hcap (m := m) ?_ hroom, _,
    exec_popBack_of_nonempty hlive rfl (ringEmpty_eq_false.mpr hne) hread, rfl, ?_⟩
  · rw [operandB, fitBlock_of_ok hb]
    exact hm
  · exact congrArg (nextIdx s.cap) hempty

/-- Settles O57: retiring the tail slot makes room, so the held produce's own step completes it. -/
theorem consumingUnblocksTheHeldProduce : Obligations.ConsumingUnblocksTheHeldProduce := by
  intro s q rest hinv hpend hfault h2 hfull hq hs
  obtain ⟨-, hidx, -, -, hphase, ⟨hlegal, -⟩, -⟩ := id hinv
  have hcap := cap_ne_zero_of_two_le h2
  have hne : s.head ≠ s.tail := fun he => not_full_of_empty hidx h2 he hfull
  have hfree : s.fault.getLsbD 0 = false := by rw [hfault]; rfl
  have hfirst := step_of_consumeTail ⟨hs, hfree, nofun, hq⟩ rfl (live_of_cap_ne_zero hphase hcap) hne
  have hnext : nextIdx s.cap s.head = s.tail := ringFull_iff.mp (isFull_iff_full.mpr hfull)
  have hroom : ¬Full (retire s) := fun hf => by
    have htail : nextIdx s.cap s.head = nextIdx s.cap s.tail := ringFull_iff.mp (isFull_iff_full.mpr hf)
    exact nextIdx_ne_self h2 (hidx.2 hcap).2 (htail.symm.trans hnext)
  have hsecond := (heldProduceCompletes
    (respondOk 0 (retire (accept .C { word := 0xA0000000, arg := 0, dataIn := [] } q { s with schedule := .step .P :: rest })))
    rest rfl hfree (hlegal.resolve_left hpend)).1 hroom
  exact ⟨_, by rw [run_succ hfirst, run_succ hsecond]; rfl, rfl, rfl, nextIdx_tail s, rfl⟩

end Sys2Proof.Spec

/-! ### Memory (spec/20_memory.md): the inputs of a step, the storage from and to the host, and the access to slots -/

namespace Sys2Proof.Spec

open Sys2Proof.Machine

/-! #### The inputs of a step (R53, R75, R102) -/

theorem queueOf_setQueue_of_ne {p p' : Port} (h : p ≠ p') (q : List Command) (s : State) :
    queueOf p (setQueue p' q s) = queueOf p s := by
  revert h
  cases p <;> cases p' <;> simp [queueOf, setQueue]

/-- Accepting a command takes the first one off the stream of its port, and leaves the other streams. -/
theorem queueOf_accept_cases {p : Port} {c : Command} {rest : List Command} {s : State} (h : queueOf p s = c :: rest)
    (p' : Port) :
    queueOf p' (accept p c rest s) = queueOf p' s ∨
      (p = p' ∧ queueOf p' (accept p c rest s) = (queueOf p' s).tail) := by
  by_cases hp : p' = p
  · subst hp
    exact .inr ⟨rfl, by rw [queueOf_accept, h]; rfl⟩
  · exact .inl (queueOf_setQueue_of_ne hp rest s)

/-- A step leaves every stream, or takes the first command off the stream of the port that steps. -/
theorem step_queues {s t : State} (h : step s = .next t) (p : Port) :
    queueOf p t = queueOf p s ∨ (nextEvent s = .step p ∧ queueOf p t = (queueOf p s).tail) := by
  rcases step_next h with rfl | ⟨-, rfl⟩ | ⟨-, -, -, -, rfl⟩ | ⟨q, c, rest, hn, hq, -, -, ht⟩
  · exact .inl (queueOf_takeEvent p s)
  · exact .inl (by cases p <;> rfl)
  · exact .inl (by cases p <;> rfl)
  · have hsame : queueOf p t = queueOf p (accept q c rest (takeEvent s)) := by
      rcases ht with ⟨_, -, rfl⟩ | ⟨i, -, he⟩
      · cases p <;> rfl
      · obtain ⟨-, -, -, hqueues⟩ := exec_sameInputs he
        exact hqueues p
    rw [hsame, ← queueOf_takeEvent p s]
    rw [← queueOf_takeEvent q s] at hq
    exact (queueOf_accept_cases hq p).imp_right fun ⟨hp, htail⟩ => ⟨hp ▸ hn, htail⟩

theorem drawnTurn_eq_turnEvents (k : Nat) : drawnTurn k = turnEvents k := by
  have hport : fairPort k = if k % 3 = 0 then Port.P else if k % 3 = 1 then Port.C else Port.A := by
    unfold fairPort
    split <;> simp_all
  rw [drawnTurn, hport]

/-- A step is decided by the event that happens and by what is left once it has been taken. -/
theorem step_congr {s u : State} (hn : nextEvent s = nextEvent u) (ht : takeEvent s = takeEvent u) : step s = step u := by
  rw [step, step, hn, ht]

/-- Settles O17: `takeEvent` says what is left of the events, and drawing the turn first changes nothing. -/
theorem inputsAreTakenInOrder : Obligations.InputsAreTakenInOrder := by
  intro s t h
  obtain ⟨hsched, hturn⟩ := step_events h
  refine ⟨fun e rest hs => ?_, fun hs => ?_, step_queues h⟩
  · rw [hsched, hturn, takeEvent_of_cons hs]
    exact ⟨nextEvent_of_cons hs, rfl, rfl⟩
  · obtain ⟨hup, htake⟩ := upcoming_of_drawn (t := { s with schedule := turnEvents s.turn, turn := s.turn + 1 }) hs
      (by rw [drawnTurn_eq_turnEvents])
    have hnext := congrArg (List.headD · (Event.step .P)) hup
    refine ⟨?_, ?_, hnext, (step_congr hnext htake).symm.trans h⟩
    · rw [hsched, takeEvent_schedule, upcoming_of_nil hs, drawnTurn_eq_turnEvents]
    · rw [hturn, takeEvent_turn, if_pos hs]

/-! #### The words of the commands with operands (R62 to R64) -/

theorem ofNat_eq_packWord {op wd : BitVec 4} {n : BitVec 24} {k : Nat}
    (h : k = op.toNat * 2 ^ 28 + wd.toNat * 2 ^ 24 + n.toNat) : BitVec.ofNat 32 k = packWord op wd n := by
  rw [h, ← packWord_toNat, BitVec.ofNat_toNat, BitVec.setWidth_eq]

/-- A format N word decodes to the command of its opcode with its count. -/
theorem decode_format_n (op : BitVec 4) {mk : Nat → Instr} (hop : ∀ w, opField w = op → decode w = decodeN w mk) {n : Nat}
    (hn : n < 2 ^ 24) : decode (BitVec.ofNat 32 (op.toNat * 2 ^ 28 + n)) = .ok (mk n) := by
  have hcount : (BitVec.ofNat 24 n).toNat = n := Nat.mod_eq_of_lt hn
  rw [ofNat_eq_packWord (op := op) (wd := 0) (n := BitVec.ofNat 24 n) (by simp [hcount]), hop _ (opField_packWord _ _ _),
    decodeN, wField_packWord, if_pos rfl, nField_packWord, hcount]

/-- A format S word decodes to the command of its opcode with its slot and its word index. -/
theorem decode_format_s (op : BitVec 4) {mk : Nat → Nat → Instr} (hop : ∀ w, opField w = op → decode w = decodeS w mk)
    {slot w : Nat} (hslot : slot < 2 ^ 24) (hw : w < 16) :
    decode (BitVec.ofNat 32 (op.toNat * 2 ^ 28 + w * 2 ^ 24 + slot)) = .ok (mk slot w) := by
  have hs : (BitVec.ofNat 24 slot).toNat = slot := Nat.mod_eq_of_lt hslot
  have hi : (BitVec.ofNat 4 w).toNat = w := Nat.mod_eq_of_lt hw
  rw [ofNat_eq_packWord (op := op) (wd := BitVec.ofNat 4 w) (n := BitVec.ofNat 24 slot) (by rw [hs, hi]),
    hop _ (opField_packWord _ _ _), decodeS, nField_packWord, wField_packWord, hs, hi]

/-! #### The prologue, as the statements write it out (R66, R70) -/

theorem permitted_of_mem_ports {i : Instr} {p : Port} (h : p ∈ ports i) : permitted i p = true := by
  revert h
  cases i <;> simp [ports, permitted]

theorem constructs_iff {i : Instr} : constructs i = true ↔ IsConstructor i := by
  cases i <;> simp [constructs, IsConstructor]

theorem needsQuiescence_iff {i : Instr} : needsQuiescence i = true ↔ NeedsQuiescence i := by
  cases i <;> simp [needsQuiescence, NeedsQuiescence]

/-- The prologue lets an accepted command through to its body. -/
theorem afterPrologue_of_accepted {i : Instr} {s : State} (h : Accepted i s) (body : Result) :
    afterPrologue i s body = body := by
  obtain ⟨hport, hnew, hlive, hquiet⟩ := h
  exact afterPrologue_of_none (prologueFault_eq_none.mpr ⟨permitted_of_mem_ports hport, fun hc => hnew (constructs_iff.mp hc),
    fun hc => hlive (mt constructs_iff.mpr (Bool.eq_false_iff.mp hc)), fun hq => hquiet (needsQuiescence_iff.mp hq)⟩)

theorem accepted_ctorn {s : State} (n : Nat) (hport : s.bus.port = .A) (hnew : s.phase = .unconstructed) :
    Accepted (.ctorn n) s :=
  ⟨List.mem_singleton.mpr hport, fun _ => hnew, fun hc => absurd (.inr ⟨n, rfl⟩) hc, by simp [NeedsQuiescence]⟩

/-- RESIZE and PROVIDE. -/
theorem accepted_of_quiescent {i : Instr} {s : State} (hports : ports i = [.A]) (hi : ¬IsConstructor i)
    (hport : s.bus.port = .A) (hlive : s.phase = .live) (hpend : s.pend = 0) : Accepted i s :=
  ⟨hports ▸ List.mem_singleton.mpr hport, fun hc => absurd hc hi, fun _ => hlive, fun _ => hpend⟩

theorem not_capMax_lt {n : Nat} (h : n < 2 ^ 24) : ¬capMax < n := le_capMax_of_fitsCount (decide_eq_true h)

/-! #### Storage from and to the host (R49 to R52) -/

theorem freeOwned_eq (o : Origin) (s : State) : freeOwned o s = { s with outputs := freeEvents o ++ s.outputs } := by
  cases o <;> rfl

/-- A slot of fresh storage holds DEFAULT_BLOCK (R49). -/
theorem readBlock_fresh (p : Params) (n slot : Nat) :
    readBlock p { size := n, fill := .fresh, cells := [] } slot = if slot < n then some p.defaultBlock else none := rfl

/-- A block that the outside has given of a provided buffer is what its slot holds (R51). -/
theorem readBlock_buffer_of_given {p : Params} {k n slot : Nat} {h : Handle} {given : List Block} {b : Block} (hlt : slot < n)
    (hb : given[slot]? = some b) :
    readBlock p { size := n, fill := .buffer k h n given, cells := [] } slot = some (fitBlock p b) := by
  simp [readBlock, slotBlock, lookupCell, unlistedBlock, hlt, hb]

/-- The allocator's answer is one that R50 allows. -/
theorem allocLegal_allocAnswer (s : State) (n : Nat) : allocLegal (ownedHandle s.origin) (allocAnswer s n) = true := by
  have hfree : allocLegal (ownedHandle s.origin)
      ((Config.alloc s.draws n (ownedHandle s.origin)).map Subtype.val) = true :=
    allocLegal_iff.mpr fun h hh => by
      obtain ⟨a, -, rfl⟩ := Option.map_eq_some_iff.mp hh
      exact a.property
  unfold allocAnswer
  split
  · exact hfree
  · split
    · assumption
    · exact hfree

/-- Settles O29. -/
theorem allocatedHandlesAreFresh : Obligations.AllocatedHandlesAreFresh := by
  intro s n h ha
  obtain ⟨hnull, hfresh⟩ := allocLegal_iff.mp (allocLegal_allocAnswer s n) h ha
  exact ⟨hnull, fun ho => hfresh (by rw [ho]; rfl), fun ho => hfresh (by rw [ho]; rfl)⟩

/-- The body of CTORN, once the prologue has passed and the count has a word (R78). -/
theorem exec_ctorn {s : State} {n : Nat} (ha : Accepted (.ctorn n) s) (hn : n < 2 ^ 24) :
    exec (.ctorn n) s = .next (if n = 0 then respondOk 0 (constructEmpty s) else constructN n s) := by
  rw [exec, execCtorn, afterPrologue_of_accepted ha, if_neg (not_capMax_lt hn)]

/-- Settles O28: the count, then the allocator's answer decide. -/
theorem ctornConstructs : Obligations.CtornConstructs := by
  refine ⟨fun n => decode_format_n 0x2 fun w h => by rw [decode, h]; rfl, fun s n hport hnew hn => ?_⟩
  rw [exec_ctorn (accepted_ctorn n hport hnew) hn]
  refine ⟨fun h0 => ?_, fun h0 ha => ?_, fun h h0 ha => ⟨_, rfl, Memory.wf_no_cells _ n .fresh, readBlock_fresh _ n, ?_⟩⟩
  · rw [if_pos h0]
    rfl
  · rw [if_neg h0, constructN, ha]
    rfl
  · rw [if_neg h0, constructN, ha]
    rfl

/-- The body of RESIZE, once the prologue has passed and the count has a word (R89). -/
theorem exec_resize {s : State} {n : Nat} (ha : Accepted (.resize n) s) (hn : n < 2 ^ 24) :
    exec (.resize n) s = .next
      (if !isEmpty s then respondFail .nonempty s
       else if n = 0 then respondOk 0 (freeOwned s.origin (clearRing s)) else resizeN n s) := by
  rw [exec, execResize, afterPrologue_of_accepted ha, if_neg (not_capMax_lt hn)]

theorem resizeN_of_some {s : State} {n : Nat} {h : Handle} (ha : allocAnswer s n = some h) :
    resizeN n s = respondOk 0 (freeOwned s.origin (installStorage n .fresh (.allocated h) (afterAlloc s))) := by
  simp only [resizeN, ha]

/-- Settles O39: emptiness, the count, then the allocator's answer decide. -/
theorem resizeReplacesTheStorage : Obligations.ResizeReplacesTheStorage := by
  refine ⟨fun n => decode_format_n 0xC fun w h => by rw [decode, h]; rfl, fun s n hport hlive hpend hn => ?_⟩
  rw [exec_resize (accepted_of_quiescent rfl (by simp [IsConstructor]) hport hlive hpend) hn]
  refine ⟨fun hne => ?_, fun he h0 => ?_, fun he h0 ha => ?_,
    fun h he h0 ha => ⟨_, rfl, Memory.wf_no_cells _ n .fresh, readBlock_fresh _ n, ?_⟩⟩
  · rw [ringEmpty_eq_false.mpr hne]
    rfl
  · rw [ringEmpty_iff.mpr he, if_neg (by decide), if_pos h0, freeOwned_eq]
    rfl
  · rw [ringEmpty_iff.mpr he, if_neg (by decide), if_neg h0, resizeN, ha]
    rfl
  · rw [ringEmpty_iff.mpr he, if_neg (by decide), if_neg h0, resizeN_of_some ha, freeOwned_eq]
    rfl

/-- The body of PROVIDE, once the prologue has passed and the count has a word (R90). -/
theorem exec_provide {s : State} {n : Nat} (ha : Accepted (.provide n) s) (hn : n < 2 ^ 24) :
    exec (.provide n) s = .next
      (if operandH s = 0 ∨ n = 0 then respondFail .invalid s
       else if !isEmpty s then respondFail .nonempty s
       else respondOk 0 (freeOwned s.origin
         (installStorage n (bufferFill (operandH s) n s) (.provided (operandH s)) (afterProvide s)))) := by
  rw [exec, execProvide, afterPrologue_of_accepted ha, if_neg (not_capMax_lt hn)]

/-- Settles O40: the operands, then emptiness decide. -/
theorem provideTakesTheBuffer : Obligations.ProvideTakesTheBuffer := by
  refine ⟨fun n => decode_format_n 0xD fun w h => by rw [decode, h]; rfl, fun s n hport hlive hpend hn => ?_⟩
  rw [exec_provide (accepted_of_quiescent rfl (by simp [IsConstructor]) hport hlive hpend) hn]
  have hgiven : s.bus.cmd.arg ≠ 0 → n ≠ 0 → ¬(operandH s = 0 ∨ n = 0) := fun hh h0 => not_or.mpr ⟨hh, h0⟩
  refine ⟨fun hz => ?_, fun hh h0 hne => ?_, fun hh h0 he =>
    ⟨_, rfl, Memory.wf_no_cells _ n (bufferFill (operandH s) n s), fun _ _ => readBlock_buffer_of_given, ?_⟩⟩
  · rw [if_pos (show operandH s = 0 ∨ n = 0 from hz)]
    rfl
  · rw [if_neg (hgiven hh h0), ringEmpty_eq_false.mpr hne]
    rfl
  · rw [if_neg (hgiven hh h0), ringEmpty_iff.mpr he, if_neg (by decide), freeOwned_eq]
    rfl

/-! #### Access to a slot (R39, R45, R48) -/

theorem accepted_slot {i : Instr} {s : State} {slot w : Nat} (hi : i = .slotRd slot w ∨ i = .slotWr slot w)
    (hport : s.bus.port ∈ [Port.P, Port.C]) (hlive : s.phase = .live) : Accepted i s := by
  rcases hi with rfl | rfl <;>
    exact ⟨hport, fun hc => by simp [IsConstructor] at hc, fun _ => hlive, fun hq => by simp [NeedsQuiescence] at hq⟩

theorem slotAccessFault_of_outside {s : State} {slot w : Nat} (h : ¬InSlotSpace s slot w) :
    slotAccessFault slot w s = some .indexRange := by
  refine if_pos ?_
  rcases not_and_or.mp h with hs | hw
  · exact .inr (.inl (Nat.le_of_not_lt hs))
  · exact .inr (.inr (Nat.le_of_not_lt hw))

theorem not_outside_of_inSlotSpace {s : State} {slot w : Nat} (h : InSlotSpace s slot w) :
    ¬(s.cap = 0 ∨ s.cap.toNat ≤ slot ∨ s.params.blockWords ≤ w) := by
  obtain ⟨hs, hw⟩ := h
  rintro (h0 | hout | hout)
  · rw [h0] at hs
    exact absurd hs (Nat.not_lt_zero slot)
  · omega
  · omega

/-- In the slot space the check is the port's own. -/
theorem slotAccessFault_on_P {s : State} {slot w : Nat} (h : InSlotSpace s slot w) (hport : s.bus.port = .P) :
    slotAccessFault slot w s = if slot ≠ s.head.toNat then some .ownership else none := by
  rw [slotAccessFault, if_neg (not_outside_of_inSlotSpace h), hport]

theorem slotAccessFault_on_C {s : State} {slot w : Nat} (h : InSlotSpace s slot w) (hport : s.bus.port = .C) :
    slotAccessFault slot w s =
      if isEmpty s then some .emptyTail else if slot ≠ s.tail.toNat then some .ownership else none := by
  rw [slotAccessFault, if_neg (not_outside_of_inSlotSpace h), hport]

theorem slotAccessFault_of_empty {s : State} {slot w : Nat} (h : InSlotSpace s slot w) (hport : s.bus.port = .C)
    (he : s.head = s.tail) : slotAccessFault slot w s = some .emptyTail := by
  rw [slotAccessFault_on_C h hport, if_pos (ringEmpty_iff.mpr he)]

theorem slotAccessFault_of_foreign {s : State} {slot w : Nat} (h : InSlotSpace s slot w)
    (hport : s.bus.port ∈ [Port.P, Port.C]) (he : ¬(s.bus.port = .C ∧ s.head = s.tail)) (hown : ¬OwnSlot s slot) :
    slotAccessFault slot w s = some .ownership := by
  have hports : s.bus.port = .P ∨ s.bus.port = .C := by simpa using hport
  rcases hports with hp | hp
  · rw [slotAccessFault_on_P h hp, if_pos fun hs => hown (.inl ⟨hp, hs⟩)]
  · have hne : s.head ≠ s.tail := fun hht => he ⟨hp, hht⟩
    rw [slotAccessFault_on_C h hp, if_neg (mt ringEmpty_iff.mp hne), if_pos fun hs => hown (.inr ⟨hp, hne, hs⟩)]

theorem slotAccessFault_of_own {s : State} {slot w : Nat} (h : InSlotSpace s slot w) (hown : OwnSlot s slot) :
    slotAccessFault slot w s = none := by
  rcases hown with ⟨hp, hs⟩ | ⟨hp, hne, hs⟩
  · rw [slotAccessFault_on_P h hp, if_neg (not_not_intro hs)]
  · rw [slotAccessFault_on_C h hp, if_neg (mt ringEmpty_iff.mp hne), if_neg (not_not_intro hs)]

/-- Both slot commands take the fault of the check they share. -/
theorem exec_slot_of_fault {i : Instr} {s : State} {slot w : Nat} {c : Cause} (hi : i = .slotRd slot w ∨ i = .slotWr slot w)
    (hport : s.bus.port ∈ [Port.P, Port.C]) (hlive : s.phase = .live) (h : slotAccessFault slot w s = some c) :
    exec i s = .next (faulted s (causeCode c).toNat) := by
  have ha := accepted_slot hi hport hlive
  rw [← raiseFault_eq_faulted]
  rcases hi with rfl | rfl
  · rw [exec, execSlotRd, afterPrologue_of_accepted ha, h]
  · rw [exec, execSlotWr, afterPrologue_of_accepted ha, h]

/-- The faults of a slot command, in the order of the checks of R48. -/
theorem exec_slot_faults {i : Instr} {s : State} {slot w : Nat} (hi : i = .slotRd slot w ∨ i = .slotWr slot w)
    (hport : s.bus.port ∈ [Port.P, Port.C]) (hlive : s.phase = .live) :
    (¬InSlotSpace s slot w → exec i s = .next (faulted s 7)) ∧
    (InSlotSpace s slot w → s.bus.port = .C → s.head = s.tail → exec i s = .next (faulted s 8)) ∧
    (InSlotSpace s slot w → ¬(s.bus.port = .C ∧ s.head = s.tail) → ¬OwnSlot s slot → exec i s = .next (faulted s 9)) :=
  ⟨fun hout => exec_slot_of_fault hi hport hlive (slotAccessFault_of_outside hout),
    fun hin hC he => exec_slot_of_fault hi hport hlive (slotAccessFault_of_empty hin hC he),
    fun hin he hown => exec_slot_of_fault hi hport hlive (slotAccessFault_of_foreign hin hport he hown)⟩

theorem readWord_eq (p : Params) (m : Memory) (slot w : Nat) :
    readWord p m slot w = if slot < m.size then (slotBlock p m slot)[w]? else none := by
  rw [readWord, readBlock]
  split <;> rfl

/-- A word of the block of a slot that exists can be read. -/
theorem readWord_isSome {p : Params} {m : Memory} {slot w : Nat} (h : slot < m.size) (hw : w < (slotBlock p m slot).length) :
    ∃ v, readWord p m slot w = some v :=
  ⟨_, by rw [readWord_eq, if_pos h, List.getElem?_eq_getElem hw]⟩

/-- After a word write the word reads as written, and every other word as before. -/
theorem readWord_writeWord {p : Params} {m m' : Memory} {slot w : Nat} {v : Word} (hm : Rising m.cells)
    (h : writeWord p m slot w v = some m') (slot' w' : Nat) :
    readWord p m' slot' w' = if slot' = slot ∧ w' = w then some v else readWord p m slot' w' := by
  obtain ⟨hlt, hw, hsize, -, hblock⟩ := writeWord_spec hm h
  rw [readWord_eq, readWord_eq, hsize, hblock]
  by_cases hs : slot' = slot
  · subst hs
    by_cases hw' : w' = w
    · subst hw'
      simp [hlt, hw]
    · simp [hw', List.getElem?_set_ne (Ne.symm hw')]
  · simp [hs]

/-- The blocks of the storage have BLOCK_WORDS words (R37). -/
theorem length_slotBlock {p : Params} {m : Memory} (hp : p.wf = true) (hm : m.wf p = true) (slot : Nat) :
    (slotBlock p m slot).length = p.blockWords :=
  (blockOk_iff.mp (blockOk_slotBlock hp hm slot)).1

/-- DATA_OUT with one word in front and zeros after it (R92). -/
theorem wordOut_eq {p : Params} (hp : p.wf = true) (v : Word) : wordOut p v = v :: List.replicate (p.blockWords - 1) 0 := by
  obtain ⟨h1, -⟩ := Params.wf_iff.mp hp
  obtain ⟨k, hk⟩ : ∃ k, p.blockWords = k + 1 := ⟨p.blockWords - 1, by omega⟩
  rw [wordOut, zeroBlock, hk]
  rfl

/-- A word of WORD_BITS bits comes off the channel as it is. -/
theorem operandV_of_fits {s : State} {v : Word} {rest : List Word} (h : s.bus.cmd.dataIn = v :: rest)
    (hv : v < 2 ^ s.params.wordBits) : operandV s = v := by
  rw [operandV, fitWord, h]
  exact Nat.mod_eq_of_lt hv

/-- Settles O41. -/
theorem slotRdReadsOneWord : Obligations.SlotRdReadsOneWord := by
  refine ⟨fun slot w => decode_format_s 0xE fun w h => by rw [decode, h]; rfl, fun s slot w hport hlive => ?_⟩
  obtain ⟨hrange, hempty, hforeign⟩ := exec_slot_faults (i := .slotRd slot w) (.inl rfl) hport hlive
  refine ⟨hrange, hempty, hforeign, fun hp ⟨hsize, hwf⟩ hin hown => ?_⟩
  obtain ⟨v, hv⟩ := readWord_isSome (hsize ▸ hin.1) ((length_slotBlock hp hwf slot).symm ▸ hin.2)
  refine ⟨v, hv, ?_⟩
  simp only [exec, execSlotRd, afterPrologue_of_accepted (accepted_slot (.inl rfl) hport hlive),
    slotAccessFault_of_own hin hown, hv, wordOut_eq hp]
  rfl

/-- Settles O42. -/
theorem slotWrWritesOneWord : Obligations.SlotWrWritesOneWord := by
  refine ⟨fun slot w => decode_format_s 0xF fun w h => by rw [decode, h]; rfl, fun s slot w hport hlive => ?_⟩
  obtain ⟨hrange, hempty, hforeign⟩ := exec_slot_faults (i := .slotWr slot w) (.inr rfl) hport hlive
  refine ⟨hrange, hempty, hforeign, fun hp ⟨hsize, hwf⟩ hin hown => ?_⟩
  have hw : w < (slotBlock s.params s.storage slot).length := (length_slotBlock hp hwf slot).symm ▸ hin.2
  obtain ⟨m, hm⟩ := writeWord_isSome (v := operandV s) (hsize ▸ hin.1) hw
  obtain ⟨-, -, hms, -⟩ := writeWord_spec (Memory.wf.rising hwf) hm
  refine ⟨m, operandV s, hms, writeWord_wf hp hwf (fitWord_lt _ _ 0) hm, fun _ _ => operandV_of_fits,
    readWord_writeWord (Memory.wf.rising hwf) hm, ?_⟩
  simp only [exec, execSlotWr, afterPrologue_of_accepted (accepted_slot (.inr rfl) hport hlive),
    slotAccessFault_of_own hin hown, hm]
  rfl

/-! #### Where the model itself stops (logs 10 and 11) -/

theorem capMax_lt {n : Nat} (h : 2 ^ 24 ≤ n) : capMax < n := by
  unfold capMax
  omega

theorem readBlock_of_size_le {p : Params} {m : Memory} {slot : Nat} (h : m.size ≤ slot) : readBlock p m slot = none :=
  if_neg (Nat.not_lt.mpr h)

theorem writeBlock_of_size_le {p : Params} {m : Memory} {slot : Nat} (h : m.size ≤ slot) (b : Block) :
    writeBlock p m slot b = none :=
  if_neg (Nat.not_lt.mpr h)

theorem readWord_of_size_le {p : Params} {m : Memory} {slot : Nat} (h : m.size ≤ slot) (w : Nat) :
    readWord p m slot w = none := by
  rw [readWord, readBlock_of_size_le h, Option.bind_none]

theorem writeWord_of_size_le {p : Params} {m : Memory} {slot : Nat} (h : m.size ≤ slot) (w : Nat) (v : Word) :
    writeWord p m slot w v = none := by
  rw [writeWord, readBlock_of_size_le h, Option.bind_none]

theorem port_of_ownSlot {s : State} {slot : Nat} (h : OwnSlot s slot) : s.bus.port ∈ [Port.P, Port.C] := by
  rcases h with ⟨hp, -⟩ | ⟨hp, -⟩ <;> simp [hp]

/-- Settles O43: the count is tested after the prologue, the slot when it is accessed. -/
theorem stopsByName : Obligations.StopsByName := by
  refine ⟨fun s n hn => ⟨fun ha => ?_, fun ha => ?_, fun ha => ?_⟩, fun s ha hcap hsize => ?_, fun s ha hne hsize => ?_,
    fun s slot w hlive hin hown hsize => ⟨?_, ?_⟩⟩
  · rw [exec, execCtorn, afterPrologue_of_accepted ha, if_pos (capMax_lt hn)]
  · rw [exec, execResize, afterPrologue_of_accepted ha, if_pos (capMax_lt hn)]
  · rw [exec, execProvide, afterPrologue_of_accepted ha, if_pos (capMax_lt hn)]
  · rw [exec, execPushFront, afterPrologue_of_accepted ha, if_neg hcap, writeBlock_of_size_le hsize]
  · rw [exec, execPopBack, afterPrologue_of_accepted ha, if_neg (mt ringEmpty_iff.mp hne), readBlock_of_size_le hsize]
  · simp only [exec, execSlotRd, afterPrologue_of_accepted (accepted_slot (.inl rfl) (port_of_ownSlot hown) hlive),
      slotAccessFault_of_own hin hown, readWord_of_size_le hsize]
  · simp only [exec, execSlotWr, afterPrologue_of_accepted (accepted_slot (.inr rfl) (port_of_ownSlot hown) hlive),
      slotAccessFault_of_own hin hown, writeWord_of_size_le hsize]

/-! #### The queue under the Admin (R55, R91, R117) -/

theorem liveBlocks_congr {s t : State} (hp : t.params = s.params) (hc : t.cap = s.cap) (hh : t.head = s.head)
    (ht : t.tail = s.tail) (hst : t.storage = s.storage) : liveBlocks t = liveBlocks s := by
  rw [liveBlocks, liveBlocks, occ_congr hc hh ht, hp, hst]
  exact List.map_congr_left fun k _ => by rw [liveSlot_congr hc ht]

theorem liveBlocks_of_empty {s : State} (hidx : IndexRange s) (he : s.head = s.tail) : liveBlocks s = [] := by
  rw [liveBlocks, (occ_eq_zero_iff hidx).mp he]
  rfl

/-- Settles O46: of the effects of a port's step, A has only new storage, which is empty, and those that leave the ring. -/
theorem adminKeepsOrEmptiesTheQueue : Obligations.AdminKeepsOrEmptiesTheQueue := by
  intro s t hinv hP hC h
  have hpar := parametersNeverChange s t h
  have hidx : IndexRange t := (stepKeepsInvariant s t hinv h).2.1
  have hempty : t.head = 0 → t.tail = 0 → t.head = 0 ∧ t.tail = 0 ∧ liveBlocks t = [] := fun hh ht =>
    ⟨hh, ht, liveBlocks_of_empty hidx (hh.trans ht.symm)⟩
  cases hn : nextEvent s with
  | reset =>
    rw [step_of_reset hn] at h
    obtain rfl := Host.Outcome.next.inj h
    exact .inr (hempty rfl rfl)
  | step p =>
    have hp : p ≠ .P ∧ p ≠ .C := ⟨fun hp => hP (hp ▸ hn), fun hp => hC (hp ▸ hn)⟩
    cases step_portEffect hn h with
    | unchanged hr | faulted _ _ hr =>
      obtain ⟨-, h2, h3, h4, -, -, h7, -⟩ := ring_eq_iff.mp hr
      exact .inl (liveBlocks_congr hpar h2 h3 h4 h7)
    | completed hPort => exact absurd hPort hp.1
    | issued i _ he =>
      cases he with
      | unchanged hr =>
        obtain ⟨-, h2, h3, h4, -, -, h7, -⟩ := ring_eq_iff.mp hr
        exact .inl (liveBlocks_congr hpar h2 h3 h4 h7)
      | renewed _ _ _ _ _ _ _ _ _ _ _ _ hr =>
        obtain ⟨-, -, h3, h4, -⟩ := ring_eq_iff.mp hr
        exact .inr (hempty h3 h4)
      | published _ hPort | held _ _ hPort => exact absurd hPort hp.1
      | retired hPort => exact absurd hPort hp.2
      | wordWritten _ _ _ _ _ hown => exact (hown.imp And.left And.left).elim (absurd · hp.1) (absurd · hp.2)

/-! #### The queries (R43) -/

/-- Another fault record and other outputs so far: the parts of the state that no command reads. -/
def withRecord (f : BitVec 11) (o : List Output) (s : State) : State := { s with fault := f, outputs := o }

/-- What a query comes to, whatever stands in the fault record and in the outputs: always the same fault, always the same
response, or no next state. -/
inductive FixedAnswer (s : State) (run : State → Result) : Prop where
  | faults (c : Cause) (h : ∀ f o, run (withRecord f o s) = .next (raiseFault c (withRecord f o s)))
  | answers (r : Response) (h : ∀ f o, run (withRecord f o s) = .next (respond r (withRecord f o s)))
  | stops (e : Fault) (h : ∀ f o, run (withRecord f o s) = .fault e)

theorem fixedAnswer_afterPrologue {i : Instr} {s : State} {body : State → Result} (h : FixedAnswer s body) :
    FixedAnswer s (fun u => afterPrologue i u (body u)) := by
  have hsame : ∀ f o, prologueFault i (withRecord f o s) = prologueFault i s := fun _ _ => rfl
  cases hp : prologueFault i s with
  | some c => exact .faults c fun f o => afterPrologue_of_some ((hsame f o).trans hp)
  | none =>
    have hbody : ∀ f o, afterPrologue i (withRecord f o s) (body (withRecord f o s)) = body (withRecord f o s) :=
      fun f o => afterPrologue_of_none ((hsame f o).trans hp)
    cases h with
    | faults c h => exact .faults c fun f o => (hbody f o).trans (h f o)
    | answers r h => exact .answers r fun f o => (hbody f o).trans (h f o)
    | stops e h => exact .stops e fun f o => (hbody f o).trans (h f o)

theorem fixedAnswer_query {i : Instr} (s : State)
    (hi : i = .isEmpty ∨ i = .isFull ∨ i = .headRef ∨ i = .tailRef ∨ ∃ slot w, i = .slotRd slot w) :
    FixedAnswer s (exec i) := by
  rcases hi with rfl | rfl | rfl | rfl | ⟨slot, w, rfl⟩ <;> refine fixedAnswer_afterPrologue ?_
  · exact .answers (okResponse s.params (if isEmpty s then 1 else 0)) fun _ _ => rfl
  · exact .answers (okResponse s.params (if isFull s then 1 else 0)) fun _ _ => rfl
  · by_cases hc : s.cap = 0
    · exact .faults .zeroCapacity fun _ _ => congrArg _ (if_pos hc)
    · exact .answers (okResponse s.params (s.head.setWidth 32)) fun _ _ => congrArg _ (if_neg hc)
  · by_cases he : isEmpty s = true
    · exact .faults .emptyTail fun _ _ => congrArg _ (if_pos he)
    · exact .answers (okResponse s.params (s.tail.setWidth 32)) fun _ _ => congrArg _ (if_neg he)
  · have hcheck : ∀ f o, slotAccessFault slot w (withRecord f o s) = slotAccessFault slot w s := fun _ _ => rfl
    cases ha : slotAccessFault slot w s with
    | some c => exact .faults c fun f o => by rw [hcheck, ha]
    | none =>
      have hread : ∀ f o, readWord (withRecord f o s).params (withRecord f o s).storage slot w =
          readWord s.params s.storage slot w := fun _ _ => rfl
      cases hv : readWord s.params s.storage slot w with
      | none => exact .stops .noSuchSlot fun f o => by rw [hcheck, ha]; simp only [hread, hv]
      | some v =>
        exact .answers { status := 0, code := 0, value := 0, dataOut := wordOut s.params v } fun f o => by
          rw [hcheck, ha]; simp only [hread, hv]; rfl

/-- Settles O50: a query's next state differs only in the record, so the second query comes to what the first did. -/
theorem queriesHaveNoSideEffect : Obligations.QueriesHaveNoSideEffect := by
  intro i s t u hi ht hu
  cases fixedAnswer_query s hi with
  | faults c h =>
    obtain rfl := Host.Outcome.next.inj ((h s.fault s.outputs).symm.trans ht)
    obtain rfl := Host.Outcome.next.inj ((h _ _).symm.trans hu)
    exact ⟨rfl, .inr ⟨_, raiseFault_eq_faulted c s⟩, rfl⟩
  | answers r h =>
    obtain rfl := Host.Outcome.next.inj ((h s.fault s.outputs).symm.trans ht)
    obtain rfl := Host.Outcome.next.inj ((h _ _).symm.trans hu)
    exact ⟨rfl, .inl rfl, rfl⟩
  | stops e h => exact absurd ((h s.fault s.outputs).symm.trans ht) nofun

end Sys2Proof.Spec

/-! ### Encoding (spec/30_encoding.md): words and instructions -/

namespace Sys2Proof.Spec

open Sys2Proof.Machine

/-! #### The round trip of the command word (R62 to R64, R67) -/

/-- The word that is packed for a format C command decodes to it. -/
theorem decode_packWord_c (op : BitVec 4) {i : Instr} (hop : ∀ w, opField w = op → decode w = decodeC w i) :
    decode (packWord op 0 0) = .ok i := by
  rw [hop _ (opField_packWord _ _ _)]
  exact if_pos (restField_packWord_zero op)

/-- The word that is packed for a format N command decodes to it, if its count fits. -/
theorem decode_packWord_n (op : BitVec 4) {mk : Nat → Instr} (hop : ∀ w, opField w = op → decode w = decodeN w mk) {n : Nat}
    (hn : fitsCount n = true) : decode (packWord op 0 (BitVec.ofNat 24 n)) = .ok (mk n) := by
  have hlt : n < 2 ^ 24 := of_decide_eq_true hn
  have hcount : (BitVec.ofNat 24 n).toNat = n := Nat.mod_eq_of_lt hlt
  rw [← ofNat_eq_packWord (k := op.toNat * 2 ^ 28 + n) (by simp [hcount])]
  exact decode_format_n op hop hlt

/-- The word that is packed for a format S command decodes to it, if its slot and its word index fit. -/
theorem decode_packWord_s (op : BitVec 4) {mk : Nat → Nat → Instr} (hop : ∀ w, opField w = op → decode w = decodeS w mk)
    {slot k : Nat} (h : (fitsCount slot && fitsWordIndex k) = true) :
    decode (packWord op (BitVec.ofNat 4 k) (BitVec.ofNat 24 slot)) = .ok (mk slot k) := by
  obtain ⟨hs, hk⟩ := Bool.and_eq_true_iff.mp h
  have hslot : slot < 2 ^ 24 := of_decide_eq_true hs
  have hword : k < 16 := of_decide_eq_true hk
  have hs' : (BitVec.ofNat 24 slot).toNat = slot := Nat.mod_eq_of_lt hslot
  have hk' : (BitVec.ofNat 4 k).toNat = k := Nat.mod_eq_of_lt hword
  rw [← ofNat_eq_packWord (k := op.toNat * 2 ^ 28 + k * 2 ^ 24 + slot) (by rw [hs', hk'])]
  exact decode_format_s op hop hslot hword

/-- Settles O1, format by format: the fields are read back from the word they were packed into. -/
theorem decodeAfterEncode : Obligations.DecodeAfterEncode := by
  intro i hi
  cases i with
  | ctor0 | dtor | isEmpty | isFull | headRef | produceHead | pushFront | tailRef | consumeTail | popBack =>
    exact decode_packWord_c _ fun w h => by rw [decode, h]; rfl
  | ctorn n | resize n | provide n => exact decode_packWord_n _ (fun w h => by rw [decode, h]; rfl) hi
  | slotRd slot k | slotWr slot k => exact decode_packWord_s _ (fun w h => by rw [decode, h]; rfl) hi

/-- What the decoder makes of a word, by the format of its opcode, and how the instructions it can answer are encoded. -/
inductive DecodesBy (w : CmdWord) : Prop where
  | noFormat (hop : w.toNat / 2 ^ 28 = 0) (h : decode w = .error .opcodeZero)
  | formatC (i : Instr) (hop : w.toNat / 2 ^ 28 ∈ [0x1, 0x3, 0x4, 0x5, 0x6, 0x7, 0x8, 0x9, 0xA, 0xB])
      (h : decode w = decodeC w i) (he : encode i = packWord (opField w) 0 0)
  | formatN (mk : Nat → Instr) (hop : w.toNat / 2 ^ 28 ∈ [0x2, 0xC, 0xD]) (h : decode w = decodeN w mk)
      (he : ∀ n, encode (mk n) = packWord (opField w) 0 (BitVec.ofNat 24 n))
  | formatS (mk : Nat → Nat → Instr) (hop : w.toNat / 2 ^ 28 ∈ [0xE, 0xF]) (h : decode w = decodeS w mk)
      (he : ∀ slot k, encode (mk slot k) = packWord (opField w) (BitVec.ofNat 4 k) (BitVec.ofNat 24 slot))

/-- Every opcode but 0 is some instruction's (R63). -/
theorem eq_zero_or_opcode (op : BitVec 4) : op = 0 ∨ ∃ i, opcode i = op := by
  have h : ∀ op : BitVec 4, op = 0 ∨ op ∈ [Instr.ctor0, .ctorn 0, .dtor, .isEmpty, .isFull, .headRef, .produceHead,
      .pushFront, .tailRef, .consumeTail, .popBack, .resize 0, .provide 0, .slotRd 0 0, .slotWr 0 0].map opcode := by decide
  exact (h op).imp_right fun hm => (List.mem_map.mp hm).imp fun _ => And.right

theorem decodesBy (w : CmdWord) : DecodesBy w := by
  rcases eq_zero_or_opcode (opField w) with h0 | ⟨i, hi⟩
  · exact .noFormat (by rw [← opField_toNat, h0]; rfl) (by rw [decode, h0]; rfl)
  · have hop : w.toNat / 2 ^ 28 = (opcode i).toNat := by rw [hi, opField_toNat]
    cases i with
    | ctor0 | dtor | isEmpty | isFull | headRef | produceHead | pushFront | tailRef | consumeTail | popBack =>
      exact .formatC _ (by rw [hop]; decide) (by rw [decode, ← hi]; rfl) (by rw [← hi]; rfl)
    | ctorn | resize | provide =>
      exact .formatN _ (by rw [hop]; simp [opcode]) (by rw [decode, ← hi]; rfl) (fun n => by rw [← hi]; rfl)
    | slotRd | slotWr =>
      exact .formatS _ (by rw [hop]; simp [opcode]) (by rw [decode, ← hi]; rfl) (fun slot k => by rw [← hi]; rfl)

theorem decodeC_eq_ok {w : CmdWord} {i j : Instr} : decodeC w i = .ok j ↔ restField w = 0 ∧ i = j := by
  unfold decodeC
  split
  · next h => exact ⟨fun e => ⟨h, Except.ok.inj e⟩, fun e => congrArg _ e.2⟩
  · next h => exact ⟨nofun, fun e => absurd e.1 h⟩

theorem decodeN_eq_ok {w : CmdWord} {mk : Nat → Instr} {j : Instr} :
    decodeN w mk = .ok j ↔ wField w = 0 ∧ mk (nField w).toNat = j := by
  unfold decodeN
  split
  · next h => exact ⟨fun e => ⟨h, Except.ok.inj e⟩, fun e => congrArg _ e.2⟩
  · next h => exact ⟨nofun, fun e => absurd e.1 h⟩

/-- Settles O2: the fields that must be 0 are, so the word is packed from the fields that the decoder read. -/
theorem encodeAfterDecode : Obligations.EncodeAfterDecode := by
  intro w i h
  refine ⟨decode_wellFormed h, ?_⟩
  cases decodesBy w with
  | noFormat _ hd => exact absurd (hd.symm.trans h) nofun
  | formatC j _ hd he =>
    obtain ⟨hrest, rfl⟩ := decodeC_eq_ok.mp (hd.symm.trans h)
    rw [he, packWord_op_of_rest hrest]
  | formatN mk _ hd he =>
    obtain ⟨hzero, rfl⟩ := decodeN_eq_ok.mp (hd.symm.trans h)
    rw [he, BitVec.ofNat_toNat, BitVec.setWidth_eq, ← hzero, packWord_fields]
  | formatS mk _ hd he =>
    obtain rfl := decodeS_ok (hd.symm.trans h)
    rw [he, BitVec.ofNat_toNat, BitVec.ofNat_toNat, BitVec.setWidth_eq, BitVec.setWidth_eq, packWord_fields]

theorem exists_decodeC {w : CmdWord} {i : Instr} : (∃ j, decodeC w i = .ok j) ↔ w.toNat % 2 ^ 28 = 0 := by
  have hzero : restField w = 0 ↔ w.toNat % 2 ^ 28 = 0 := by rw [← BitVec.toNat_inj, restField_toNat]; rfl
  rw [← hzero]
  exact ⟨fun ⟨_, h⟩ => (decodeC_eq_ok.mp h).1, fun h => ⟨i, decodeC_eq_ok.mpr ⟨h, rfl⟩⟩⟩

theorem exists_decodeN {w : CmdWord} {mk : Nat → Instr} : (∃ j, decodeN w mk = .ok j) ↔ w.toNat / 2 ^ 24 % 16 = 0 := by
  have hzero : wField w = 0 ↔ w.toNat / 2 ^ 24 % 16 = 0 := by rw [← BitVec.toNat_inj, wField_toNat]; rfl
  rw [← hzero]
  exact ⟨fun ⟨_, h⟩ => (decodeN_eq_ok.mp h).1, fun h => ⟨_, decodeN_eq_ok.mpr ⟨h, rfl⟩⟩⟩

/-- Settles O3, format by format: a word decodes exactly if the bits that its format has no use for are 0. -/
theorem decodableWordsAreTheLegalOnes : Obligations.DecodableWordsAreTheLegalOnes := by
  intro w
  cases decodesBy w with
  | noFormat hop hd =>
    rw [hd, hop]
    simp
  | formatC i hop hd _ =>
    rw [hd, exists_decodeC]
    simp only [List.mem_cons, List.not_mem_nil, or_false] at hop ⊢
    omega
  | formatN mk hop hd _ =>
    rw [hd, exists_decodeN]
    simp only [List.mem_cons, List.not_mem_nil, or_false] at hop ⊢
    omega
  | formatS mk hop hd _ => exact iff_of_true ⟨_, hd⟩ (.inr (.inr hop))

/-- Settles O7: none of the three kinds is among the legal words of O3, so the word does not decode. -/
theorem illegalWordsFault : Obligations.IllegalWordsFault := by
  intro s p c q rest hi hw
  have hno : ¬∃ i, decode c.word = .ok i := by
    rw [decodableWordsAreTheLegalOnes c.word]
    simp only [List.mem_cons, List.not_mem_nil, or_false] at hw ⊢
    omega
  rw [step_of_issues hi]
  rcases runBus_cases (accept p c q { s with schedule := rest }) with ⟨_, -, hrun⟩ | ⟨i, hd, -⟩
  · rw [hrun, raiseFault_eq_faulted]
    rfl
  · exact absurd ⟨i, hd⟩ hno

/-- Settles O4. -/
theorem tableWordsDecode : Obligations.TableWordsDecode := ⟨rfl, rfl, rfl, rfl, rfl, rfl, rfl, rfl⟩

/-- Settles O5: reading a line is a computation, which no parameter enters that the lines leave open. -/
theorem assemblerLines : Obligations.AssemblerLines :=
  ⟨fun _ => ⟨rfl, rfl, rfl, rfl, rfl, rfl, rfl, rfl, rfl, rfl, rfl, rfl, rfl, rfl, rfl, rfl⟩, fun _ => ⟨rfl, rfl⟩⟩

/-- Settles O6: the port issues the command, and the word on the bus decodes. -/
theorem stepRunsTheDecodedCommand : Obligations.StepRunsTheDecodedCommand := by
  intro s p c q rest i hi hd
  rw [step_of_issues hi, runBus, accept_bus, hd]
  rfl

/-! #### The prologue (R66, R70) -/

theorem exec_eq_afterPrologue (i : Instr) (s : State) : ∃ body, exec i s = afterPrologue i s body := by
  cases i <;> exact ⟨_, rfl⟩

/-- A check of the prologue that fails decides what a command comes to, whatever its body is. -/
theorem exec_of_prologueFault {i : Instr} {s : State} {c : Cause} (h : prologueFault i s = some c) :
    exec i s = .next (faulted s (causeCode c).toNat) := by
  obtain ⟨body, hb⟩ := exec_eq_afterPrologue i s
  rw [hb, afterPrologue_of_some h, raiseFault_eq_faulted]

theorem permitted_iff {i : Instr} {p : Port} : permitted i p = true ↔ p ∈ ports i := by
  refine ⟨fun h => ?_, permitted_of_mem_ports⟩
  revert h
  cases i <;> cases p <;> simp [ports, permitted]

/-- Settles O20: the port is the first check. -/
theorem unmarkedPortsFault : Obligations.UnmarkedPortsFault := by
  intro i s h
  refine exec_of_prologueFault (c := .wrongPort) ?_
  rw [prologueFault, Bool.eq_false_iff.mpr (mt permitted_iff.mp h)]
  rfl

/-- Settles O21: on a marked port the phase is checked, then what must not be held. -/
theorem phaseAndQuiescenceFaults : Obligations.PhaseAndQuiescenceFaults := by
  intro i s hport
  have hp := permitted_of_mem_ports hport
  refine ⟨fun hc hlive => ?_, fun hc hun => ?_, fun hq hlive hpend => ?_⟩
  · refine exec_of_prologueFault (c := .alreadyConstructed) ?_
    simp [prologueFault, hp, constructs_iff.mpr hc, hlive]
  · refine exec_of_prologueFault (c := .notConstructed) ?_
    simp [prologueFault, hp, mt constructs_iff.mp hc, hun]
  · have hc : ¬IsConstructor i := by rcases hq with rfl | ⟨n, rfl⟩ | ⟨n, rfl⟩ <;> simp [IsConstructor]
    refine exec_of_prologueFault (c := .notQuiesced) ?_
    simpa [prologueFault, hp, mt constructs_iff.mp hc, hlive, needsQuiescence_iff.mpr hq] using hpend

/-! #### The format of a response (R65, R96, R97) -/

/-- The four formats of a response. -/
inductive Formatted (p : Params) : Response → Prop where
  | ok (v : BitVec 32) : Formatted p (okResponse p v)
  | data (b : Block) (hb : p.blockOk b = true) : Formatted p { status := 0, code := 0, value := 0, dataOut := b }
  | fail (e : Reason) : Formatted p { status := 1, code := reasonCode e, value := 0, dataOut := zeroBlock p }
  | fault (c : Cause) : Formatted p { status := 2, code := causeCode c, value := 0, dataOut := zeroBlock p }

theorem Formatted.blockOk {p : Params} {r : Response} (h : Formatted p r) : p.blockOk r.dataOut = true := by
  cases h with
  | data b hb => exact hb
  | ok _ | fail _ | fault _ => exact blockOk_zeroBlock p

theorem reasonCode_range (e : Reason) : 1 ≤ (reasonCode e).toNat ∧ (reasonCode e).toNat ≤ 3 := by cases e <;> decide

/-- What the STATUS of a response says of its CODE, and what is zero unless it is OK. -/
theorem Formatted.fields {p : Params} {r : Response} (h : Formatted p r) :
    r.status ≠ 3 ∧ (r.status = 0 → r.code = 0) ∧ (r.status = 1 → 1 ≤ r.code.toNat ∧ r.code.toNat ≤ 3) ∧
      (r.status = 2 → 1 ≤ r.code.toNat ∧ r.code.toNat ≤ 9) ∧
      (r.status ≠ 0 → r.value = 0 ∧ r.dataOut = List.replicate p.blockWords 0) := by
  cases h with
  | ok _ | data _ _ => exact ⟨show (0 : BitVec 2) ≠ 3 by decide, fun _ => rfl, nofun, nofun, fun h => absurd rfl h⟩
  | fail e => exact ⟨show (1 : BitVec 2) ≠ 3 by decide, nofun, fun _ => reasonCode_range e, nofun, fun _ => ⟨rfl, rfl⟩⟩
  | fault c => exact ⟨show (2 : BitVec 2) ≠ 3 by decide, nofun, nofun, fun _ => causeCode_range c, fun _ => ⟨rfl, rfl⟩⟩

/-- Nothing new has left the block, or the newest output is a response in one of the formats. -/
abbrev AnswersInFormat (s t : State) : Prop :=
  t.outputs = s.outputs ∨ ∃ p r, Formatted s.params r ∧ t.outputs.head? = some (.response p r)

theorem inFormat_of_fault {s t : State} (h : TookFault s t) : AnswersInFormat s t := by
  obtain ⟨c, rfl⟩ := h
  exact .inr ⟨_, _, .fault c, rfl⟩

theorem respondOk_inFormat {s u : State} (v : BitVec 32) (hp : u.params = s.params) : AnswersInFormat s (respondOk v u) :=
  .inr ⟨_, _, .ok v, by rw [← hp]; rfl⟩

theorem respondFail_inFormat {s u : State} (e : Reason) (hp : u.params = s.params) : AnswersInFormat s (respondFail e u) :=
  .inr ⟨_, _, .fail e, by rw [← hp]; rfl⟩

theorem respondData_inFormat {s u : State} {b : Block} (hb : s.params.blockOk b = true) :
    AnswersInFormat s (respondData b u) :=
  .inr ⟨_, _, .data b hb, rfl⟩

theorem publishOrHold_inFormat {s u : State} (op : BitVec 4) (hp : u.params = s.params) (ho : u.outputs = s.outputs) :
    AnswersInFormat s (publishOrHold op u) := by
  cases hf : isFull u with
  | true =>
    rw [publishOrHold_of_full hf]
    exact .inl ho
  | false =>
    rw [publishOrHold_of_not_full hf]
    exact respondOk_inFormat 0 hp

theorem blockOk_wordOut {p : Params} {v : Word} (hv : v < 2 ^ p.wordBits) : p.blockOk (wordOut p v) = true :=
  blockOk_set 0 (blockOk_zeroBlock p) hv

/-- Every command answers in one of the formats, or not at all while it is held. -/
theorem exec_inFormat {i : Instr} {s t : State} (hinv : s.Inv) (h : exec i s = .next t) : AnswersInFormat s t := by
  obtain ⟨hp, -, ⟨-, hwf⟩, -⟩ := id hinv
  cases i with
  | ctor0 =>
    rcases execCtor0_next h with hf | ⟨-, rfl⟩
    · exact inFormat_of_fault hf
    · exact respondOk_inFormat 0 rfl
  | ctorn n =>
    rcases execCtorn_next h with hf | ⟨-, -, ⟨-, rfl⟩ | ⟨-, -, rfl⟩ | ⟨-, _, -, rfl⟩⟩
    · exact inFormat_of_fault hf
    · exact respondOk_inFormat 0 rfl
    · exact respondFail_inFormat .alloc rfl
    · exact respondOk_inFormat 0 rfl
  | dtor =>
    rcases execDtor_next h with hf | ⟨-, rfl⟩
    · exact inFormat_of_fault hf
    · exact respondOk_inFormat 0 (freeOwned_params s.origin s)
  | isEmpty =>
    rcases execIsEmpty_next h with hf | ⟨-, rfl⟩
    · exact inFormat_of_fault hf
    · exact respondOk_inFormat _ rfl
  | isFull =>
    rcases execIsFull_next h with hf | ⟨-, rfl⟩
    · exact inFormat_of_fault hf
    · exact respondOk_inFormat _ rfl
  | headRef =>
    rcases execHeadRef_next h with hf | ⟨-, -, rfl⟩
    · exact inFormat_of_fault hf
    · exact respondOk_inFormat _ rfl
  | produceHead =>
    rcases execProduceHead_next h with hf | ⟨-, -, rfl⟩
    · exact inFormat_of_fault hf
    · exact publishOrHold_inFormat 0x7 rfl rfl
  | pushFront =>
    rcases execPushFront_next h with hf | ⟨-, -, _, -, rfl⟩
    · exact inFormat_of_fault hf
    · exact publishOrHold_inFormat 0x8 rfl rfl
  | tailRef =>
    rcases execTailRef_next h with hf | ⟨-, -, rfl⟩
    · exact inFormat_of_fault hf
    · exact respondOk_inFormat _ rfl
  | consumeTail =>
    rcases execConsumeTail_next h with hf | ⟨-, ⟨-, rfl⟩ | ⟨-, rfl⟩⟩
    · exact inFormat_of_fault hf
    · exact respondOk_inFormat 0 rfl
    · exact respondOk_inFormat 0 rfl
  | popBack =>
    rcases execPopBack_next h with hf | ⟨-, -, b, hb, rfl⟩
    · exact inFormat_of_fault hf
    · obtain ⟨-, rfl⟩ := readBlock_eq_some.mp hb
      exact respondData_inFormat (blockOk_slotBlock hp hwf _)
  | resize n =>
    rcases execResize_next h with hf | ⟨-, -, ⟨-, rfl⟩ | ⟨-, -, rfl⟩ | ⟨-, -, -, rfl⟩ | ⟨-, -, _, -, rfl⟩⟩
    · exact inFormat_of_fault hf
    · exact respondFail_inFormat .nonempty rfl
    · exact respondOk_inFormat 0 (freeOwned_params _ _)
    · exact respondFail_inFormat .alloc rfl
    · exact respondOk_inFormat 0 (freeOwned_params _ _)
  | provide n =>
    rcases execProvide_next h with hf | ⟨-, -, ⟨-, rfl⟩ | ⟨-, -, -, rfl⟩ | ⟨-, -, -, rfl⟩⟩
    · exact inFormat_of_fault hf
    · exact respondFail_inFormat .invalid rfl
    · exact respondFail_inFormat .nonempty rfl
    · exact respondOk_inFormat 0 (freeOwned_params _ _)
  | slotRd slot w =>
    rcases execSlotRd_next h with hf | ⟨-, ha, v, hv, rfl⟩
    · exact inFormat_of_fault hf
    · obtain ⟨⟨-, hspace⟩, -⟩ := slotAccessFault_eq_none.mp ha
      obtain ⟨v', hv', -, hbits⟩ := readWord_of_inSlotSpace hinv hspace
      obtain rfl := Option.some.inj (hv.symm.trans hv')
      exact respondData_inFormat (blockOk_wordOut hbits)
  | slotWr slot w =>
    rcases execSlotWr_next h with hf | ⟨-, -, _, -, rfl⟩
    · exact inFormat_of_fault hf
    · exact respondOk_inFormat 0 rfl

/-- Every step answers in one of the formats, or not at all. -/
theorem step_inFormat {s t : State} (hinv : s.Inv) (h : step s = .next t) : AnswersInFormat s t := by
  rcases step_next h with rfl | ⟨-, rfl⟩ | ⟨-, -, -, -, rfl⟩ | ⟨p, c, rest, -, -, -, -, ht⟩
  · exact .inl rfl
  · exact .inl rfl
  · exact .inr ⟨_, _, .ok 0, rfl⟩
  · have hpar : (accept p c rest (takeEvent s)).params = s.params := accept_params _ _ _ _
    have hout : (accept p c rest (takeEvent s)).outputs = s.outputs := accept_outputs _ _ _ _
    have hring : (accept p c rest (takeEvent s)).ring = s.ring := accept_ring _ _ _ _
    have hformat : AnswersInFormat (accept p c rest (takeEvent s)) t := by
      rcases ht with ⟨_, -, rfl⟩ | ⟨i, -, he⟩
      · exact inFormat_of_fault ⟨.illegalCommand, rfl⟩
      · exact exec_inFormat (inv_of_ring_eq hpar hring hinv) he
    rwa [AnswersInFormat, hpar, hout] at hformat

/-- Settles O19: the newest output is a response in one of the four formats, and each has the fields that R65 asks for. -/
theorem responsesHaveTheirFormat : Obligations.ResponsesHaveTheirFormat := by
  intro s t p r hinv h hne hr
  obtain ⟨p', r', hformat, hr'⟩ := (step_inFormat hinv h).resolve_left hne
  obtain ⟨-, rfl⟩ := Output.response.inj (Option.some.inj (hr'.symm.trans hr))
  obtain ⟨hlen, hbits⟩ := blockOk_iff.mp hformat.blockOk
  obtain ⟨hstatus, hcodes⟩ := hformat.fields
  exact ⟨hstatus, hlen, hbits, hcodes⟩

/-! #### A port that issues one command after another (R74, R75) -/

/-- Runs of machine steps, one after the other. -/
theorem run_append {a b : Nat} {s t : State} (h : core.run a s = .next t) : core.run (a + b) s = core.run b t := by
  induction a generalizing s with
  | zero =>
    obtain rfl := Host.Outcome.next.inj h
    rw [Nat.zero_add]
  | succ a ih =>
    rw [Nat.add_right_comm]
    cases hs : step s with
    | next u =>
      rw [run_succ hs] at h ⊢
      exact ih h
    | fault r | refused r =>
      simp only [Host.Core.run, show core.step s = _ from hs] at h
      cases h

/-- The port has these commands to issue, and is picked once for each. -/
abbrev HasToIssue (p : Port) (cs : List Command) (s : State) : Prop :=
  s.schedule = List.replicate cs.length (.step p) ∧ queueOf p s = cs

theorem hasToIssue_issuing (p : Port) (cs : List Command) (s : State) : HasToIssue p cs (issuing p cs s) :=
  ⟨setQueue_schedule p cs _, queueOf_setQueue p cs _⟩

@[simp] theorem issuing_ring (p : Port) (cs : List Command) (s : State) : (issuing p cs s).ring = s.ring :=
  setQueue_ring p cs _
@[simp] theorem issuing_params (p : Port) (cs : List Command) (s : State) : (issuing p cs s).params = s.params :=
  setQueue_params p cs _
@[simp] theorem issuing_outputs (p : Port) (cs : List Command) (s : State) : (issuing p cs s).outputs = s.outputs :=
  setQueue_outputs p cs _

/-- The state in which the body of a command runs that the port issues: the command is on the bus, and the ring, the
parameters and the outputs so far are as before. -/
abbrev OnBus (p : Port) (c : Command) (s a : State) : Prop :=
  a.ring = s.ring ∧ a.params = s.params ∧ a.outputs = s.outputs ∧ a.bus = { port := p, cmd := c }

/-- The port takes no other step than its next command: the ring is not halted, and the port is not held. -/
abbrev FreeToIssue (p : Port) (s : State) : Prop := s.fault = 0 ∧ (p = .P → s.pend = 0)

theorem freeToIssue_issuing {p : Port} {cs : List Command} {s : State} (h : FreeToIssue p s) :
    FreeToIssue p (issuing p cs s) :=
  ⟨(setQueue_fault p cs _).trans h.1, fun hp => (setQueue_pend p cs _).trans (h.2 hp)⟩

/-- The step of a port that has a command to issue is the command's, and the port then has the others left to issue. -/
theorem step_of_hasToIssue {p : Port} {c : Command} {cs : List Command} {s : State} {i : Instr}
    (h : HasToIssue p (c :: cs) s) (hfree : FreeToIssue p s) (hd : decode c.word = .ok i) :
    ∃ a, OnBus p c s a ∧ step s = exec i a ∧ ∀ t, exec i a = .next t → HasToIssue p cs t := by
  obtain ⟨hs, hq⟩ := h
  have hfault : s.fault.getLsbD 0 = false := by rw [hfree.1]; rfl
  refine ⟨accept p c cs { s with schedule := List.replicate cs.length (.step p) },
    ⟨accept_ring _ _ _ _, accept_params _ _ _ _, accept_outputs _ _ _ _, rfl⟩, ?_, fun t ht => ?_⟩
  · rw [step_of_issues ⟨hs, hfault, hfree.2, hq⟩, runBus, accept_bus, hd]
  · obtain ⟨-, hsched, -, hqueues⟩ := exec_sameInputs ht
    exact ⟨hsched.trans (accept_schedule _ _ _ _), (hqueues p).trans (queueOf_accept _ _ _ _)⟩

theorem map_drop_range_append {α : Type} {n k : Nat} (hk : k < n) (f : Nat → α) (rest : List α) :
    ((List.range n).drop k).map f ++ rest = f k :: (((List.range n).drop (k + 1)).map f ++ rest) := by
  rw [List.drop_eq_getElem_cons (by rwa [List.length_range]), List.getElem_range]
  rfl

/-- A rule for a port that issues `n` commands in a row: what holds before a command lets it run, and holds again after
it. -/
theorem run_commands {p : Port} {n : Nat} {f : Nat → Command} {i : Nat → Instr} {rest : List Command}
    {R : Nat → State → Prop} (hd : ∀ k, k < n → decode (f k).word = .ok (i k)) (hfree : ∀ k s, R k s → FreeToIssue p s)
    (hexec : ∀ k s a, k < n → R k s → OnBus p (f k) s a → ∃ t, exec (i k) a = .next t ∧ R (k + 1) t)
    {s : State} (h0 : R 0 s) (hi : HasToIssue p ((List.range n).map f ++ rest) s) :
    ∃ t, core.run n s = .next t ∧ R n t ∧ HasToIssue p rest t := by
  have hrun : ∀ m, m ≤ n →
      ∃ t, core.run m s = .next t ∧ R m t ∧ HasToIssue p (((List.range n).drop m).map f ++ rest) t := fun m => by
    induction m with
    | zero => exact fun _ => ⟨s, rfl, h0, hi⟩
    | succ m ih =>
      intro hm
      obtain ⟨t, ht, hR, hissue⟩ := ih (by omega)
      rw [map_drop_range_append hm] at hissue
      obtain ⟨a, hbus, hstep, hnext⟩ := step_of_hasToIssue hissue (hfree m t hR) (hd m hm)
      obtain ⟨u, hu, hR'⟩ := hexec m t a hm hR hbus
      exact ⟨u, by rw [run_append ht, run_succ (hstep.trans hu)]; rfl, hR', hnext u hu⟩
  obtain ⟨t, ht, hR, hissue⟩ := hrun n le_rfl
  rw [List.drop_of_length_le (by rw [List.length_range])] at hissue
  exact ⟨t, ht, hR, hissue⟩

/-! What the commands of the two sequences do on a ring with slots -/

theorem exec_headRef_of_slots {s : State} (hlive : s.phase = .live) (hport : s.bus.port = .P) (hcap : s.cap ≠ 0) :
    exec .headRef s = .next (respondOk (s.head.setWidth 32) s) := by
  have hp : prologueFault .headRef s = none := prologueFault_of_live hlive (by rw [hport]; rfl) rfl rfl
  rw [exec, execHeadRef, afterPrologue_of_none hp, if_neg hcap]

theorem exec_produceHead_of_slots {s : State} (hlive : s.phase = .live) (hport : s.bus.port = .P) (hcap : s.cap ≠ 0) :
    exec .produceHead s = .next (publishOrHold 0x7 s) := by
  have hp : prologueFault .produceHead s = none := prologueFault_of_live hlive (by rw [hport]; rfl) rfl rfl
  rw [exec, execProduceHead, afterPrologue_of_none hp, if_neg hcap]

theorem exec_pushFront_of_slots {s : State} {m : Memory} (hlive : s.phase = .live) (hport : s.bus.port = .P) (hcap : s.cap ≠ 0)
    (hm : writeBlock s.params s.storage s.head.toNat (operandB s) = some m) :
    exec .pushFront s = .next (publishOrHold 0x8 { s with storage := m }) := by
  have hp : prologueFault .pushFront s = none := prologueFault_of_live hlive (by rw [hport]; rfl) rfl rfl
  rw [exec, execPushFront, afterPrologue_of_none hp, if_neg hcap, hm]

theorem exec_tailRef_of_nonempty {s : State} (hlive : s.phase = .live) (hport : s.bus.port = .C) (hne : s.head ≠ s.tail) :
    exec .tailRef s = .next (respondOk (s.tail.setWidth 32) s) := by
  have hp : prologueFault .tailRef s = none := prologueFault_of_live hlive (by rw [hport]; rfl) rfl rfl
  rw [exec, execTailRef, afterPrologue_of_none hp, if_neg (mt ringEmpty_iff.mp hne)]

theorem exec_slotRd_of_own {s : State} {slot w : Nat} {v : Word} (hlive : s.phase = .live) (hin : InSlotSpace s slot w)
    (hown : OwnSlot s slot) (hv : readWord s.params s.storage slot w = some v) :
    exec (.slotRd slot w) s = .next (respondData (wordOut s.params v) s) := by
  have ha := accepted_slot (i := .slotRd slot w) (.inl rfl) (port_of_ownSlot hown) hlive
  simp only [exec, execSlotRd, afterPrologue_of_accepted ha, slotAccessFault_of_own hin hown, hv]

theorem exec_slotWr_of_own {s : State} {slot w : Nat} {m : Memory} (hlive : s.phase = .live) (hin : InSlotSpace s slot w)
    (hown : OwnSlot s slot) (hm : writeWord s.params s.storage slot w (operandV s) = some m) :
    exec (.slotWr slot w) s = .next (respondOk 0 { s with storage := m }) := by
  have ha := accepted_slot (i := .slotWr slot w) (.inr rfl) (port_of_ownSlot hown) hlive
  simp only [exec, execSlotWr, afterPrologue_of_accepted ha, slotAccessFault_of_own hin hown, hm]

/-- The words of the two slot commands decode to them, for every slot of a ring and every word of a block. -/
theorem decode_encode_slot {i : Instr} {slot : Idx} {pr : Params} {k : Nat} (hp : pr.wf = true) (hk : k < pr.blockWords)
    (hi : i = .slotRd slot.toNat k ∨ i = .slotWr slot.toNat k) : decode (encode i) = .ok i := by
  obtain ⟨-, hwords, -⟩ := Params.wf_iff.mp hp
  have hfits : (fitsCount slot.toNat && fitsWordIndex k) = true :=
    Bool.and_eq_true_iff.mpr ⟨decide_eq_true slot.isLt, decide_eq_true (by omega)⟩
  rcases hi with rfl | rfl <;> exact decodeAfterEncode _ hfits

/-! PUSH_FRONT and its sequence (R74 item 1) -/

/-- The first `k` words of a block have been written to a slot. -/
abbrev FilledTo (pr : Params) (slot : Nat) (b : Block) (k : Nat) (m m' : Memory) : Prop :=
  ChangesOnlySlot pr slot m m' ∧ m'.fill = m.fill ∧ ∀ w, w < k → (slotBlock pr m' slot)[w]? = b[w]?

/-- Writing the next word of the block. -/
theorem filledTo_succ {pr : Params} {slot k : Nat} {b : Block} {v : Word} {m m' m'' : Memory} (hp : pr.wf = true)
    (h : FilledTo pr slot b k m m') (hv : v < 2 ^ pr.wordBits) (hb : b[k]? = some v)
    (hw : writeWord pr m' slot k v = some m'') : FilledTo pr slot b (k + 1) m m'' := by
  obtain ⟨⟨hsize, hwf, hothers⟩, hfill, hwords⟩ := h
  obtain ⟨-, hlen, hsize', hfill', hblock⟩ := writeWord_spec (Memory.wf.rising hwf) hw
  refine ⟨⟨hsize'.trans hsize, writeWord_wf hp hwf hv hw, fun j hj => ?_⟩, hfill'.trans hfill, fun w hlt => ?_⟩
  · rw [hblock, if_neg hj, hothers j hj]
  · rw [hblock, if_pos rfl]
    rcases Nat.lt_succ_iff_lt_or_eq.mp hlt with hlt | rfl
    · rw [List.getElem?_set_ne (by omega), hwords w hlt]
    · rw [List.getElem?_set_self hlen, hb]

/-- Once every word has been written, the storage is what writing the block at once gives. -/
theorem eq_writeBlock_of_filledTo {pr : Params} {slot : Nat} {b : Block} {m m' m'' : Memory} (hp : pr.wf = true)
    (hm : m.wf pr = true) (hb : pr.blockOk b = true) (h : FilledTo pr slot b pr.blockWords m m')
    (hw : writeBlock pr m slot b = some m'') : m' = m'' := by
  obtain ⟨⟨hsize, hwf, hothers⟩, hfill, hwords⟩ := h
  obtain ⟨-, hsize', hfill', hblock⟩ := writeBlock_spec (Memory.wf.rising hm) hw
  refine Memory.ext_of_wf hwf (writeBlock_wf hm hb hw) (hsize.trans hsize'.symm) (hfill.trans hfill'.symm) fun j => ?_
  rw [hblock]
  split
  · next hj =>
    rw [hj]
    refine List.ext_getElem? fun w => ?_
    rcases Nat.lt_or_ge w pr.blockWords with hlt | hge
    · exact hwords w hlt
    · rw [List.getElem?_eq_none (by rwa [length_slotBlock hp hwf]),
        List.getElem?_eq_none (by rwa [(blockOk_iff.mp hb).1])]
  · next hj => exact hothers j hj

theorem getElem?_fitBlock {pr : Params} {k : Nat} (ws : List Word) (hk : k < pr.blockWords) :
    (fitBlock pr ws)[k]? = some (fitWord pr ws k) := by
  simp [fitBlock, hk]

/-- The SLOT_WR of word `k` in the sequence of PUSH_FRONT. -/
def pushWord (s : State) (b : List Word) (k : Nat) : Command :=
  { word := encode (.slotWr s.head.toNat k), arg := 0, dataIn := [b.getD k 0] }

theorem hasToIssue_pushSequence (s : State) (b : List Word) :
    HasToIssue .P ({ word := 0x60000000, arg := 0, dataIn := [] } ::
        ((List.range s.params.blockWords).map (pushWord s b) ++ [{ word := 0x70000000, arg := 0, dataIn := [] }]))
      (issuing .P (pushSequence s b) s) := hasToIssue_issuing .P (pushSequence s b) s

/-- In the sequence of `s`, after `k` words: the ring is that of `s` but for the words written to the head slot. -/
abbrev PushedWords (s : State) (b : List Word) (k : Nat) (t : State) : Prop :=
  t.params = s.params ∧ t.ring = { s.ring with storage := t.storage } ∧
    FilledTo s.params s.head.toNat (fitBlock s.params b) k s.storage t.storage

/-- The SLOT_WR of a word writes the word of the block that PUSH_FRONT writes. -/
theorem exec_slotWr_of_pushedWords {s t a : State} {b : List Word} {k : Nat} (hinv : s.Inv)
    (hlive : s.phase = .live) (hcap : s.cap ≠ 0) (hk : k < s.params.blockWords) (h : PushedWords s b k t)
    (hbus : OnBus .P (pushWord s b k) t a) :
    ∃ u, exec (.slotWr s.head.toNat k) a = .next u ∧ PushedWords s b (k + 1) u := by
  obtain ⟨hp, hidx, ⟨hsize, -⟩, -⟩ := hinv
  obtain ⟨hpar, hring, hfilled⟩ := h
  obtain ⟨haring, hapar, -, habus⟩ := hbus
  have hring' := haring.trans hring
  obtain ⟨h1, h2, h3, -, -, -, h7, -⟩ := ring_eq_iff.mp hring'
  have hV : operandV a = fitWord s.params b k := by
    rw [operandV, hapar, hpar, habus]
    rfl
  obtain ⟨⟨hsize', hwf', -⟩, -⟩ := id hfilled
  have hslot : s.head.toNat < t.storage.size := by rw [hsize', hsize]; exact (hidx.2 hcap).1
  obtain ⟨m, hm⟩ := writeWord_isSome (v := fitWord s.params b k) hslot ((length_slotBlock hp hwf' _).symm ▸ hk)
  refine ⟨_, exec_slotWr_of_own (h1.trans hlive) ⟨?_, ?_⟩ (.inl ⟨by rw [habus], by rw [h3]; rfl⟩) (m := m) ?_,
    hapar.trans hpar, ?_, filledTo_succ hp hfilled (fitWord_lt _ _ _) (getElem?_fitBlock b hk) hm⟩
  · rw [h2]
    exact (hidx.2 hcap).1
  · rwa [hapar, hpar]
  · rwa [hV, hapar, hpar, h7]
  · exact congrArg (fun r : RingState => { r with storage := m }) hring'

/-- On rings that agree, producing gives rings that agree but for the opcode that a held produce is held with. -/
theorem publishOrHold_of_ring_eq {u v : State} (h : u.ring = v.ring) (hpend : u.pend = 0) (op op' : BitVec 4) :
    { (publishOrHold op u).ring with pend := 0 } = { (publishOrHold op' v).ring with pend := 0 } ∧
      (((publishOrHold op u).pend = 0 ∧ (publishOrHold op' v).pend = 0) ∨
        ((publishOrHold op u).pend = op ∧ (publishOrHold op' v).pend = op')) := by
  have hfull : isFull v = isFull u := congrArg (fun r : RingState => nextIdx r.cap r.head == r.tail) h.symm
  have hpend' : v.pend = 0 := (congrArg RingState.pend h).symm.trans hpend
  cases hf : isFull u with
  | true =>
    rw [publishOrHold_of_full hf, publishOrHold_of_full (hfull.trans hf)]
    exact ⟨congrArg (fun r : RingState => { r with pend := 0 }) h, .inr ⟨rfl, rfl⟩⟩
  | false =>
    rw [publishOrHold_of_not_full hf, publishOrHold_of_not_full (hfull.trans hf)]
    exact ⟨congrArg (fun r : RingState => { r with head := nextIdx r.cap r.head, pend := 0 }) h, .inl ⟨hpend, hpend'⟩⟩

section
variable {s : State} {b : List Word} {m : Memory} (hlive : s.phase = .live) (hcap : s.cap ≠ 0) (hfree : FreeToIssue .P s)
  (hm : writeBlock s.params s.storage s.head.toNat (fitBlock s.params b) = some m)
include hlive hcap hfree hm

/-- PUSH_FRONT on port P produces from the ring with the block written to the head slot. -/
theorem step_of_pushFront :
    ∃ u, step (issuing .P [{ word := 0x80000000, arg := 0, dataIn := b }] s) = .next (publishOrHold 0x8 u) ∧
      u.ring = { s.ring with storage := m } := by
  have hd : decode 0x80000000 = .ok .pushFront := rfl
  obtain ⟨a, ⟨hring, hpar, -, hbus⟩, hstep, -⟩ :=
    step_of_hasToIssue (hasToIssue_issuing .P [{ word := 0x80000000, arg := 0, dataIn := b }] s)
      (freeToIssue_issuing hfree) hd
  rw [issuing_ring] at hring
  rw [issuing_params] at hpar
  obtain ⟨h1, h2, h3, -, -, -, h7, -⟩ := ring_eq_iff.mp hring
  have hB : operandB a = fitBlock s.params b := by rw [operandB, hpar, hbus]
  refine ⟨{ a with storage := m }, hstep.trans (exec_pushFront_of_slots (h1.trans hlive) (by rw [hbus]) ?_ ?_),
    congrArg (fun r : RingState => { r with storage := m }) hring⟩
  · rw [h2]
    exact hcap
  · rw [hB, hpar, h7, h3]
    exact hm

/-- So does the sequence: its words fill the head slot, and its PRODUCE_HEAD comes last. -/
theorem run_of_pushSequence (hinv : s.Inv) :
    ∃ u, core.run (s.params.blockWords + 2) (issuing .P (pushSequence s b) s) = .next (publishOrHold 0x7 u) ∧
      u.ring = { s.ring with storage := m } := by
  obtain ⟨hp, -, ⟨-, hwf⟩, -⟩ := id hinv
  have href : decode 0x60000000 = .ok .headRef := rfl
  have hproduce : decode 0x70000000 = .ok .produceHead := rfl
  obtain ⟨a, ⟨hring, hpar, -, hbus⟩, hstep, hnext⟩ :=
    step_of_hasToIssue (hasToIssue_pushSequence s b) (freeToIssue_issuing hfree) href
  rw [issuing_ring] at hring
  rw [issuing_params] at hpar
  obtain ⟨h1, h2, -, -, -, -, h7, -⟩ := ring_eq_iff.mp hring
  have hexec := exec_headRef_of_slots (h1.trans hlive) (by rw [hbus]) (by rw [h2]; exact hcap)
  have h0 : PushedWords s b 0 (respondOk (a.head.setWidth 32) a) := by
    refine ⟨hpar, ?_, ?_⟩
    · rw [respondOk_ring, respondOk_storage, hring, h7]
    · rw [respondOk_storage, h7]
      exact ⟨⟨rfl, hwf, fun _ _ => rfl⟩, rfl, fun w hw => absurd hw (Nat.not_lt_zero w)⟩
  have hkeeps : ∀ k u, PushedWords s b k u → FreeToIssue .P u := fun k u ⟨_, hu, _⟩ => by
    obtain ⟨-, -, -, -, h5, h6, -⟩ := ring_eq_iff.mp hu
    exact ⟨h6.trans hfree.1, fun hP => h5.trans (hfree.2 hP)⟩
  obtain ⟨t, hrun, hwords, hlast⟩ := run_commands (R := PushedWords s b) (f := pushWord s b)
    (i := fun k => .slotWr s.head.toNat k) (fun k hk => decode_encode_slot hp hk (.inr rfl)) hkeeps
    (fun k u a hk hu hbus => exec_slotWr_of_pushedWords hinv hlive hcap hk hu hbus) h0 (hnext _ hexec)
  obtain ⟨a', ⟨hring', -, -, hbus'⟩, hstep', -⟩ := step_of_hasToIssue hlast (hkeeps _ t hwords) hproduce
  obtain ⟨-, hringt, hfilled⟩ := hwords
  rw [eq_writeBlock_of_filledTo hp hwf (blockOk_fitBlock _ b) hfilled hm] at hringt
  have hringm := hring'.trans hringt
  obtain ⟨h1', h2', -⟩ := ring_eq_iff.mp hringm
  have hlastStep := hstep'.trans (exec_produceHead_of_slots (h1'.trans hlive) (by rw [hbus']) (by rw [h2']; exact hcap))
  refine ⟨a', ?_, hringm⟩
  rw [run_succ (hstep.trans hexec), run_append hrun, run_succ hlastStep]
  rfl

end

/-- Settles O53: both produce from one and the same ring, the one with the block in its head slot. -/
theorem pushFrontEqualsItsSequence : Obligations.PushFrontEqualsItsSequence := by
  intro s b hinv hlive hcap hpend hfault
  obtain ⟨-, hidx, ⟨hsize, -⟩, -⟩ := id hinv
  have hfree : FreeToIssue .P s := ⟨hfault, fun _ => hpend⟩
  obtain ⟨m, hm⟩ := writeBlock_isSome (p := s.params) (b := fitBlock s.params b) (hsize ▸ (hidx.2 hcap).1)
  obtain ⟨u, hu, huring⟩ := step_of_pushFront hlive hcap hfree hm
  obtain ⟨v, hv, hvring⟩ := run_of_pushSequence hlive hcap hfree hm hinv
  obtain ⟨-, -, -, -, h5, -⟩ := ring_eq_iff.mp huring
  exact ⟨_, _, hu, hv, publishOrHold_of_ring_eq (huring.trans hvring.symm) (h5.trans hpend) 0x8 0x7⟩

/-! POP_BACK and its sequence (R74 item 2) -/

/-- The SLOT_RD of word `k` in the sequence of POP_BACK. -/
def popWord (s : State) (k : Nat) : Command := { word := encode (.slotRd s.tail.toNat k), arg := 0, dataIn := [] }

theorem hasToIssue_popSequence (s : State) :
    HasToIssue .C ({ word := 0x90000000, arg := 0, dataIn := [] } ::
        ((List.range s.params.blockWords).map (popWord s) ++ [{ word := 0xA0000000, arg := 0, dataIn := [] }]))
      (issuing .C (popSequence s) s) := hasToIssue_issuing .C (popSequence s) s

/-- The response to the SLOT_RD of word `k` of the tail slot. -/
def wordRead (s : State) (k : Nat) : Response :=
  { status := 0, code := 0, value := 0
    dataOut := wordOut s.params ((slotBlock s.params s.storage s.tail.toNat).getD k 0) }

theorem wordRead_eq {s : State} {k : Nat} {v : Word} (h : (slotBlock s.params s.storage s.tail.toNat)[k]? = some v) :
    wordRead s k = { status := 0, code := 0, value := 0, dataOut := wordOut s.params v } := by
  unfold wordRead
  rw [List.getD_eq_getElem?_getD, h, Option.getD_some]

/-- In the sequence of `s`, after the response `o` and `k` words: nothing has changed but the outputs. -/
abbrev PoppedWords (s : State) (o : Output) (k : Nat) (t : State) : Prop :=
  t.params = s.params ∧ t.ring = s.ring ∧
    t.outputs = ((List.range k).map fun j => .response .C (wordRead s j)).reverse ++ o :: s.outputs

/-- The ring's tail slot can be read by C, word by word. -/
theorem exec_slotRd_of_poppedWords {s t a : State} {o : Output} {k : Nat} (hinv : s.Inv) (hlive : s.phase = .live)
    (hne : s.head ≠ s.tail) (hk : k < s.params.blockWords) (h : PoppedWords s o k t) (hbus : OnBus .C (popWord s k) t a) :
    ∃ u, exec (.slotRd s.tail.toNat k) a = .next u ∧ PoppedWords s o (k + 1) u := by
  obtain ⟨hpar, hring, hout⟩ := h
  obtain ⟨haring, hapar, haout, habus⟩ := hbus
  obtain ⟨h1, h2, h3, h4, -, -, h7, -⟩ := ring_eq_iff.mp (haring.trans hring)
  have htail : s.tail.toNat < s.cap.toNat := (hinv.2.1.2 (cap_ne_zero_of_nonempty hinv.2.1 hne)).2
  obtain ⟨v, hv, hget, -⟩ := readWord_of_inSlotSpace hinv ⟨htail, hk⟩
  have hown : OwnSlot a s.tail.toNat := .inr ⟨by rw [habus], by rwa [h3, h4], by rw [h4]; rfl⟩
  refine ⟨_, exec_slotRd_of_own (v := v) (h1.trans hlive) ⟨by rwa [h2], by rwa [hapar, hpar]⟩ hown ?_, hapar.trans hpar,
    haring.trans hring, ?_⟩
  · rw [hapar, hpar, h7]
    exact hv
  · rw [respondData_outputs, haout, hout, hapar, hpar, habus, List.range_succ, List.map_append, List.reverse_append,
      List.map_singleton, wordRead_eq hget]
    rfl

section
variable {s : State} (hlive : s.phase = .live) (hne : s.head ≠ s.tail) (hfault : s.fault = 0) (hinv : s.Inv)
include hlive hne hfault hinv

/-- POP_BACK on port C retires the tail slot and answers its block. -/
theorem step_of_popBack :
    ∃ t, step (issuing .C [{ word := 0xB0000000, arg := 0, dataIn := [] }] s) = .next t ∧
      t.ring = { s.ring with tail := nextIdx s.cap s.tail } ∧
      t.outputs = .response .C
        { status := 0, code := 0, value := 0, dataOut := slotBlock s.params s.storage s.tail.toNat } :: s.outputs := by
  have hd : decode 0xB0000000 = .ok .popBack := rfl
  obtain ⟨-, hidx, ⟨hsize, -⟩, -⟩ := id hinv
  obtain ⟨a, ⟨hring, hpar, hout, hbus⟩, hstep, -⟩ :=
    step_of_hasToIssue (hasToIssue_issuing .C [{ word := 0xB0000000, arg := 0, dataIn := [] }] s)
      (freeToIssue_issuing ⟨hfault, nofun⟩) hd
  rw [issuing_ring] at hring
  rw [issuing_params] at hpar
  rw [issuing_outputs] at hout
  obtain ⟨h1, h2, h3, h4, -, -, h7, -⟩ := ring_eq_iff.mp hring
  have hread : readBlock a.params a.storage a.tail.toNat = some (slotBlock s.params s.storage s.tail.toNat) := by
    rw [hpar, h7, h4]
    exact readBlock_eq_some.mpr ⟨hsize ▸ (hidx.2 (cap_ne_zero_of_nonempty hidx hne)).2, rfl⟩
  have hexec := exec_popBack_of_nonempty (h1.trans hlive) (by rw [hbus])
    (ringEmpty_eq_false.mpr (by rw [h3, h4]; exact hne)) hread
  refine ⟨_, hstep.trans hexec, congrArg (fun r : RingState => { r with tail := nextIdx r.cap r.tail }) hring, ?_⟩
  rw [respondData_outputs, retire_outputs, retire_bus, hout, hbus]

/-- So does the sequence, and between its first and its last response it has answered the words of the block. -/
theorem run_of_popSequence :
    ∃ u first last, core.run (s.params.blockWords + 2) (issuing .C (popSequence s) s) = .next u ∧
      u.ring = { s.ring with tail := nextIdx s.cap s.tail } ∧
      u.outputs = last ::
        (((List.range s.params.blockWords).map fun k => .response .C (wordRead s k)).reverse ++ first :: s.outputs) := by
  obtain ⟨hp, -⟩ := id hinv
  have href : decode 0x90000000 = .ok .tailRef := rfl
  have hconsume : decode 0xA0000000 = .ok .consumeTail := rfl
  obtain ⟨a, ⟨hring, hpar, hout, hbus⟩, hstep, hnext⟩ :=
    step_of_hasToIssue (hasToIssue_popSequence s) (freeToIssue_issuing ⟨hfault, nofun⟩) href
  rw [issuing_ring] at hring
  rw [issuing_params] at hpar
  rw [issuing_outputs] at hout
  obtain ⟨h1, -, h3, h4, -⟩ := ring_eq_iff.mp hring
  have hexec := exec_tailRef_of_nonempty (h1.trans hlive) (by rw [hbus]) (by rw [h3, h4]; exact hne)
  have h0 : PoppedWords s (.response a.bus.port (okResponse a.params (a.tail.setWidth 32))) 0
      (respondOk (a.tail.setWidth 32) a) := ⟨hpar, hring, by rw [respondOk_outputs, hout]; rfl⟩
  have hkeeps : ∀ o k u, PoppedWords s o k u → FreeToIssue .C u := fun o k u ⟨_, hu, _⟩ => by
    obtain ⟨-, -, -, -, -, h6, -⟩ := ring_eq_iff.mp hu
    exact ⟨h6.trans hfault, nofun⟩
  obtain ⟨t, hrun, hwords, hlast⟩ := run_commands (R := PoppedWords s _) (f := popWord s)
    (i := fun k => .slotRd s.tail.toNat k) (fun k hk => decode_encode_slot hp hk (.inl rfl)) (hkeeps _)
    (fun k u a hk hu hbus => exec_slotRd_of_poppedWords hinv hlive hne hk hu hbus) h0 (hnext _ hexec)
  obtain ⟨a', ⟨hring', -, hout', hbus'⟩, hstep', -⟩ := step_of_hasToIssue hlast (hkeeps _ _ t hwords) hconsume
  obtain ⟨-, hringt, houtt⟩ := hwords
  have hrings := hring'.trans hringt
  obtain ⟨h1', -, h3', h4', -⟩ := ring_eq_iff.mp hrings
  have hlastStep := hstep'.trans (exec_consumeTail_of_nonempty (h1'.trans hlive) (by rw [hbus'])
    (ringEmpty_eq_false.mpr (by rw [h3', h4']; exact hne)))
  refine ⟨respondOk 0 (retire a'), _, _, ?_, congrArg (fun r : RingState => { r with tail := nextIdx r.cap r.tail }) hrings,
    by rw [respondOk_outputs, retire_outputs, hout', houtt]⟩
  rw [run_succ (hstep.trans hexec), run_append hrun, run_succ hlastStep]
  rfl

end

/-- The outputs stand newest first; read in their order, the ones between the first and the last are found behind the
first. -/
theorem getElem?_reverse_take {α : Type} {first last : α} {l old : List α} {k : Nat} (hk : k < l.length) :
    ((last :: (l.reverse ++ first :: old)).take (l.length + 2)).reverse[k + 1]? = l[k]? := by
  have hsplit : last :: (l.reverse ++ first :: old) = (first :: (l ++ [last])).reverse ++ old := by simp
  rw [hsplit, List.take_left' (by simp), List.reverse_reverse, List.getElem?_cons_succ, List.getElem?_append_left hk]

/-- Settles O54: POP_BACK answers the tail slot's block, and the sequence reads that slot's words. -/
theorem popBackEqualsItsSequence : Obligations.PopBackEqualsItsSequence := by
  intro s hinv hlive hne hfault
  obtain ⟨hp, -, ⟨-, hwf⟩, -⟩ := id hinv
  obtain ⟨t, ht, htring, htout⟩ := step_of_popBack hlive hne hfault hinv
  obtain ⟨u, first, last, hu, huring, huout⟩ := run_of_popSequence hlive hne hfault hinv
  have hlen := length_slotBlock hp hwf s.tail.toNat
  refine ⟨t, u, _, ht, hu, htring.trans huring.symm, htout, hlen, fun k hk => ⟨wordRead s k, ?_, rfl, ?_⟩⟩
  · have hwords : ((List.range s.params.blockWords).map fun j => Output.response .C (wordRead s j)).length =
        s.params.blockWords := by simp
    have hget := getElem?_reverse_take (first := first) (last := last) (old := s.outputs) (hwords.symm ▸ hk)
    rw [hwords, ← huout] at hget
    rw [hget]
    simp [hk]
  · have hget := List.getElem?_eq_getElem (hlen.symm ▸ hk)
    rw [wordRead_eq hget, wordOut_eq hp, hget]
    rfl

/-! #### The channels that a command does not use (R61, R69) -/

/-- Other operand channels beside the command word on the bus. -/
def onChannels (g : Command → Command) (s : State) : State := { s with bus := { s.bus with cmd := g s.bus.cmd } }

section
variable {g : Command → Command} {i : Instr} {s : State}

theorem publishOrHold_onChannels (op : BitVec 4) :
    publishOrHold op (onChannels g s) = onChannels g (publishOrHold op s) := by
  have hfull : isFull (onChannels g s) = isFull s := rfl
  unfold publishOrHold
  rw [hfull]
  split <;> rfl

theorem constructN_onChannels (n : Nat) : constructN n (onChannels g s) = onChannels g (constructN n s) := by
  have halloc : allocAnswer (onChannels g s) n = allocAnswer s n := rfl
  unfold constructN
  rw [halloc]
  split <;> rfl

theorem resizeN_onChannels (n : Nat) : resizeN n (onChannels g s) = onChannels g (resizeN n s) := by
  have halloc : allocAnswer (onChannels g s) n = allocAnswer s n := rfl
  unfold resizeN
  rw [halloc]
  split
  · rfl
  · rw [freeOwned_eq, freeOwned_eq]
    rfl

/-- A fault reads the port and the command word only (R98). -/
theorem raiseFault_onChannels (hw : ∀ c, (g c).word = c.word) (c : Cause) :
    raiseFault c (onChannels g s) = onChannels g (raiseFault c s) := by
  simp only [raiseFault, onChannels, hw]
  rfl

/-- The prologue reads no channel (R70). -/
theorem afterPrologue_onChannels (hw : ∀ c, (g c).word = c.word) {body body' : Result}
    (h : body' = onNext (onChannels g) body) :
    afterPrologue i (onChannels g s) body' = onNext (onChannels g) (afterPrologue i s body) := by
  have hsame : prologueFault i (onChannels g s) = prologueFault i s := rfl
  cases hp : prologueFault i s with
  | none => rw [afterPrologue_of_none (hsame.trans hp), afterPrologue_of_none hp, h]
  | some c => rw [afterPrologue_of_some (hsame.trans hp), afterPrologue_of_some hp, raiseFault_onChannels hw]; rfl

/-- A command that finds its own operands unchanged comes to the same outcome, whatever else stands on the channels. -/
theorem exec_onChannels (hw : ∀ c, (g c).word = c.word) (harg : (∃ n, i = .provide n) → ∀ c, (g c).arg = c.arg)
    (hdata : (i = .pushFront ∨ ∃ slot w, i = .slotWr slot w) → ∀ c, (g c).dataIn = c.dataIn) :
    exec i (onChannels g s) = onNext (onChannels g) (exec i s) := by
  have hcap : (onChannels g s).cap = s.cap := rfl
  have hempty : isEmpty (onChannels g s) = isEmpty s := rfl
  have hcheck : ∀ slot w, slotAccessFault slot w (onChannels g s) = slotAccessFault slot w s := fun _ _ => rfl
  have hraise : ∀ c, raiseFault c (onChannels g s) = onChannels g (raiseFault c s) := raiseFault_onChannels hw
  cases i <;> refine afterPrologue_onChannels hw ?_
  case ctor0 | isEmpty | isFull => rfl
  case dtor =>
    rw [freeOwned_eq, freeOwned_eq]
    rfl
  case ctorn n =>
    rw [constructN_onChannels]
    split_ifs <;> rfl
  case resize n =>
    rw [hempty, freeOwned_eq, freeOwned_eq, resizeN_onChannels]
    split_ifs <;> rfl
  case provide n =>
    have hH : operandH (onChannels g s) = operandH s := harg ⟨n, rfl⟩ _
    rw [hempty, hH, freeOwned_eq, freeOwned_eq]
    split_ifs <;> rfl
  case headRef =>
    rw [hraise, hcap]
    split <;> rfl
  case produceHead =>
    rw [hraise, hcap, publishOrHold_onChannels]
    split <;> rfl
  case tailRef =>
    rw [hraise, hempty]
    split <;> rfl
  case consumeTail =>
    rw [hempty]
    split <;> rfl
  case pushFront =>
    have hB : operandB (onChannels g s) = operandB s := congrArg (fitBlock s.params) (hdata (.inl rfl) _)
    have hwrite : writeBlock (onChannels g s).params (onChannels g s).storage (onChannels g s).head.toNat (operandB s) =
        writeBlock s.params s.storage s.head.toNat (operandB s) := rfl
    rw [hraise, hB, hcap, hwrite]
    split
    · rfl
    · split
      · rfl
      · next m _ => exact congrArg _ (publishOrHold_onChannels (s := { s with storage := m }) 0x8)
  case popBack =>
    have hread : readBlock (onChannels g s).params (onChannels g s).storage (onChannels g s).tail.toNat =
        readBlock s.params s.storage s.tail.toNat := rfl
    rw [hraise, hempty, hread]
    split
    · rfl
    · split <;> rfl
  case slotRd slot w =>
    have hread : readWord (onChannels g s).params (onChannels g s).storage slot w = readWord s.params s.storage slot w := rfl
    rw [hcheck, hread]
    split
    · exact congrArg _ (hraise _)
    · split <;> rfl
  case slotWr slot w =>
    have hV : operandV (onChannels g s) = operandV s :=
      congrArg (fitWord s.params · 0) (hdata (.inr ⟨slot, w, rfl⟩) _)
    have hwrite : writeWord (onChannels g s).params (onChannels g s).storage slot w (operandV s) =
        writeWord s.params s.storage slot w (operandV s) := rfl
    rw [hcheck, hV, hwrite]
    split
    · exact congrArg _ (hraise _)
    · split <;> rfl

end

/-- Settles O58: each of the two changes the one channel that the command, by hypothesis, does not read. -/
theorem unusedChannelsAreIgnored : Obligations.UnusedChannelsAreIgnored := fun _ s =>
  ⟨fun hi a => exec_onChannels (g := fun c => { c with arg := a }) (s := s) (fun _ => rfl)
      (fun ⟨n, hn⟩ => absurd hn (hi n)) (fun _ _ => rfl),
    fun ⟨hpush, hslot⟩ d => exec_onChannels (g := fun c => { c with dataIn := d }) (s := s) (fun _ => rfl) (fun _ _ => rfl)
      (fun hi => hi.elim (absurd · hpush) fun ⟨slot, w, h⟩ => absurd h (hslot slot w))⟩

/-! #### Weak fairness (R75, R85, R102, R112) -/

/-- Whatever stands on the bus, running it has no effect on the inputs. -/
theorem runBus_sameInputs {s t : State} (h : runBus s = .next t) : SameInputs s t := by
  rcases runBus_cases s with ⟨e, -, hr⟩ | ⟨i, -, hr⟩ <;> rw [hr] at h
  · obtain rfl := Host.Outcome.next.inj h
    exact .of_fields rfl rfl rfl rfl rfl rfl
  · exact exec_sameInputs h

theorem enabled_iff {p : Port} {s : State} :
    Enabled p s ↔ halted s = false ∧ (p = .P ∧ s.pend ≠ 0 → isFull s = false) ∧
      (¬(p = .P ∧ s.pend ≠ 0) → queueOf p s ≠ []) := and_congr_right' ite_prop_iff_and

/-- A port that is picked completes its held produce or takes its next command if its step is enabled, and else changes
nothing of the ring, the outputs and the streams. -/
theorem picked_port_acts {s t : State} {p : Port} (hn : nextEvent s = .step p) (h : step s = .next t) :
    (Enabled p s → (p = .P ∧ s.pend ≠ 0 ∧ t.pend = 0) ∨ ∃ c, queueOf p s = c :: queueOf p t) ∧
    (¬Enabled p s → t.ring = s.ring ∧ t.outputs = s.outputs ∧ ∀ q, queueOf q t = queueOf q s) := by
  rw [step_of_port hn] at h
  rcases portStep_cases p (takeEvent s) with ⟨hr, hstuck⟩ | ⟨hr, hh, rfl, hpend, hf⟩ | ⟨c, rest, hq, hh, hfree, hr⟩ <;>
    rw [hr] at h
  · obtain rfl := Host.Outcome.next.inj h
    rw [queueOf_takeEvent] at hstuck
    refine ⟨fun he => ?_, fun _ => ⟨rfl, rfl, fun q => queueOf_takeEvent q s⟩⟩
    obtain ⟨hh, hheld, hfree⟩ := enabled_iff.mp he
    rcases hstuck with hhalt | ⟨hP, hpend, hfull⟩ | ⟨hno, hnil⟩
    · exact absurd (hh.symm.trans hhalt) nofun
    · exact absurd ((hheld ⟨hP, hpend⟩).symm.trans hfull) nofun
    · exact absurd hnil (hfree hno)
  · obtain rfl := Host.Outcome.next.inj h
    have he : Enabled .P s := enabled_iff.mpr ⟨hh, fun _ => hf, fun hno => absurd ⟨rfl, hpend⟩ hno⟩
    exact ⟨fun _ => .inl ⟨rfl, hpend, rfl⟩, fun hno => absurd he hno⟩
  · rw [queueOf_takeEvent] at hq
    have he : Enabled p s := enabled_iff.mpr ⟨hh, fun hheld => absurd hheld hfree, fun _ => by rw [hq]; nofun⟩
    obtain ⟨-, -, -, hqueues⟩ := runBus_sameInputs h
    exact ⟨fun _ => .inr ⟨c, by rw [hqueues, queueOf_accept, hq]⟩, fun hno => absurd he hno⟩

/-- Every port is picked again, so the first time from `k` on at which it takes its step or is disabled exists (R112). -/
theorem weaklyFair_of_isRun {r : Nat → State} (hr : IsRun r) : WeaklyFair r := by
  classical
  intro p k
  have hex : ∃ j, k ≤ j ∧ (Takes p (r j) ∨ ¬Enabled p (r j)) := by
    obtain ⟨j, hj, hn⟩ := run_picks hr p k
    by_cases he : Enabled p (r j)
    · exact ⟨j, hj, .inl ⟨hn, he⟩⟩
    · exact ⟨j, hj, .inr he⟩
  obtain ⟨hj, hdone⟩ := Nat.find_spec hex
  exact ⟨Nat.find hex, hj, fun i hi hlt ht => Nat.find_min hex hlt ⟨hi, .inl ht⟩, hdone⟩

theorem nextIdx_inj {cap i j : Idx} (hi : i.toNat < cap.toNat) (hj : j.toNat < cap.toNat)
    (h : nextIdx cap i = nextIdx cap j) : i = j := by
  have h1 := nextIdx_toNat_of_lt hi
  have h2 := nextIdx_toNat_of_lt hj
  rw [h] at h1
  apply BitVec.eq_of_toNat_eq
  split at h1 <;> split at h2 <;> omega

theorem full_congr {s t : State} (hc : t.cap = s.cap) (hh : t.head = s.head) (ht : t.tail = s.tail) : Full t ↔ Full s := by
  rw [Full, Full, hc, hh, ht]

/-- While the producer is held, no step of another port moves HEAD, changes the capacity or fills the ring (R85). -/
theorem others_keep_held {s t : State} {p : Port} (hinv : s.Inv) (hpend : s.pend ≠ 0) (hp : p ≠ .P)
    (he : PortEffect p s t) : t.cap = s.cap ∧ t.head = s.head ∧ t.pend = s.pend ∧ (¬Full s → ¬Full t) := by
  obtain ⟨-, hidx, -, -, hphase, hslots, -⟩ := hinv
  have hcap : s.cap ≠ 0 := hslots.2 hpend
  have hsame : t.cap = s.cap → t.head = s.head → t.tail = s.tail → t.pend = s.pend →
      t.cap = s.cap ∧ t.head = s.head ∧ t.pend = s.pend ∧ (¬Full s → ¬Full t) :=
    fun h2 h3 h4 h5 => ⟨h2, h3, h5, mt (full_congr h2 h3 h4).mp⟩
  cases he with
  | unchanged hr | faulted _ _ hr =>
    obtain ⟨-, h2, h3, h4, h5, -⟩ := ring_eq_iff.mp hr
    exact hsame h2 h3 h4 h5
  | completed hP => exact absurd hP hp
  | issued i _ he =>
    cases he with
    | unchanged hr | wordWritten _ _ _ _ _ _ _ _ _ hr =>
      obtain ⟨-, h2, h3, h4, h5, -⟩ := ring_eq_iff.mp hr
      exact hsame h2 h3 h4 h5
    | renewed _ _ _ _ _ hidle =>
      rcases hidle with ⟨-, hun⟩ | ⟨-, hq⟩
      · exact absurd ((live_of_cap_ne_zero hphase hcap).symm.trans hun) nofun
      · exact absurd hq hpend
    | published _ hP | held _ _ hP => exact absurd hP hp
    | retired _ _ hne hr =>
      obtain ⟨-, h2, h3, h4, h5, -⟩ := ring_eq_iff.mp hr
      obtain ⟨hh, ht⟩ := hidx.2 hcap
      refine ⟨h2, h3, h5, fun _ hf => hne (nextIdx_inj hh ht ?_)⟩
      have hfull := ringFull_iff.mp (isFull_iff_full.mpr hf)
      rwa [h2, h3, h4] at hfull

/-- The produce held in `s` is still held in `t`, on the same ring, which is not full. -/
abbrev StillHeld (s t : State) : Prop :=
  t.Inv ∧ t.params = s.params ∧ t.cap = s.cap ∧ t.head = s.head ∧ t.pend = s.pend ∧ ¬Full t

theorem StillHeld.step {s t u : State} (hpend : s.pend ≠ 0) (h : StillHeld s t) (hP : nextEvent t ≠ .step .P)
    (hreset : nextEvent t ≠ .reset) (hu : Machine.step t = .next u) : StillHeld s u := by
  obtain ⟨hinv, hpar, hc, hh, hpd, hroom⟩ := h
  cases hn : nextEvent t with
  | reset => exact absurd hn hreset
  | step p =>
    obtain ⟨hc', hh', hpd', hroom'⟩ :=
      others_keep_held hinv (hpd ▸ hpend) (fun hp => hP (hp ▸ hn)) (step_portEffect hn hu)
    exact ⟨stepKeepsInvariant t u hinv hu, (parametersNeverChange t u hu).trans hpar, hc'.trans hc, hh'.trans hh,
      hpd'.trans hpd, hroom' hroom⟩

/-- The next pick of P finds the produce still held, so it completes it, unless the ring is halted by then. -/
theorem held_completes_or_faults {r : Nat → State} {k : Nat} (hr : IsRun r) (hinv : (r k).Inv) (hpend : (r k).pend ≠ 0)
    (hroom : ¬Full (r k)) (hreset : ∀ j, k ≤ j → nextEvent (r j) ≠ .reset) :
    ∃ j, k ≤ j ∧ StillHeld (r k) (r j) ∧ (halted (r j) = true ∨ r (j + 1) = completeHeld (takeEvent (r j))) := by
  classical
  obtain ⟨hj, hP⟩ := Nat.find_spec (run_picks hr .P k)
  have hheld : ∀ i, k ≤ i → i ≤ Nat.find (run_picks hr .P k) → StillHeld (r k) (r i) := fun i hi => by
    induction i, hi using Nat.le_induction with
    | base => exact fun _ => ⟨hinv, rfl, rfl, rfl, rfl, hroom⟩
    | succ i hi ih =>
      exact fun hle => (ih (by omega)).step hpend (fun hn => Nat.find_min (run_picks hr .P k) hle ⟨hi, hn⟩) (hreset i hi) (hr i)
  refine ⟨_, hj, hheld _ hj le_rfl, ?_⟩
  obtain ⟨-, -, -, -, hpd, hfree⟩ := hheld _ hj le_rfl
  generalize Nat.find (run_picks hr .P k) = j at *
  cases hh : halted (r j) with
  | true => exact .inl rfl
  | false =>
    have hstep := hr j
    have hf : isFull (takeEvent (r j)) = false := Bool.eq_false_iff.mpr (mt isFull_iff_full.mp hfree)
    rw [step_of_port hP, portStep_of_held (s := takeEvent (r j)) hh (hpd ▸ hpend), hf] at hstep
    exact .inr (Host.Outcome.next.inj hstep).symm

/-- Settles O59: every port is picked again and again, and a pick of P finds the produce still held, on a ring that is not
full. -/
theorem everyRunIsWeaklyFair : Obligations.EveryRunIsWeaklyFair := by
  refine ⟨fun s t p => picked_port_acts, fun r => weaklyFair_of_isRun, fun r k hr hinv hpend hroom hreset => ?_⟩
  obtain ⟨j, hj, ⟨-, hpar, hc, hh, hpd, -⟩, hhalt | hdone⟩ := held_completes_or_faults hr hinv hpend hroom hreset
  · exact ⟨j, hj, .inl ((faultValid_eq _).symm.trans hhalt)⟩
  · refine ⟨j, hj, .inr ⟨hpd, ?_⟩⟩
    rw [hdone, ← nextIdx_head, zeros, ← hpar, ← hc, ← hh]
    exact ⟨rfl, rfl, rfl⟩

end Sys2Proof.Spec

/-! ### Construction and destruction (spec/40_construction.md): CTOR0 and DTOR -/

namespace Sys2Proof.Spec

open Sys2Proof.Machine

theorem accepted_ctor0 {s : State} (hport : s.bus.port = .A) (hnew : s.phase = .unconstructed) : Accepted .ctor0 s :=
  ⟨List.mem_singleton.mpr hport, fun _ => hnew, fun hc => absurd (.inl rfl) hc, by simp [NeedsQuiescence]⟩

/-- The body of CTOR0, once the prologue has passed (R77). -/
theorem exec_ctor0 {s : State} (ha : Accepted .ctor0 s) : exec .ctor0 s = .next (respondOk 0 (constructEmpty s)) :=
  afterPrologue_of_accepted ha _

/-- Settles O27: an accepted CTOR0 answers with the empty ring, whose fields are those of the statement. -/
theorem ctor0Constructs : Obligations.Ctor0Constructs := by
  refine ⟨decodeAfterEncode .ctor0 rfl, fun s hport hnew => ?_⟩
  rw [exec_ctor0 (accepted_ctor0 hport hnew)]
  rfl

/-- The body of DTOR, once the prologue has passed (R79). -/
theorem exec_dtor {s : State} (ha : Accepted .dtor s) :
    exec .dtor s = .next (respondOk 0 (clearRing { freeOwned s.origin s with phase := .unconstructed })) :=
  afterPrologue_of_accepted ha _

/-- Settles O30: the body of DTOR tests nothing, so the ring may hold blocks, and `freeEvents` is what `freeOwned` puts out. -/
theorem dtorDestroys : Obligations.DtorDestroys := by
  refine ⟨decodeAfterEncode .dtor rfl, fun s hport hlive hpend => ?_⟩
  rw [exec_dtor (accepted_of_quiescent rfl (by simp [IsConstructor]) hport hlive hpend), freeOwned_eq]
  rfl

end Sys2Proof.Spec

/-! ### Status (spec/41_status.md): IS_EMPTY, IS_FULL and what each side may conclude from them -/

namespace Sys2Proof.Spec

open Sys2Proof.Machine

/-! #### The view that each side has of the ring (R122, R123) -/

/-- The producer leaves TAIL where it is, and moves HEAD only where it does not meet TAIL (R122). -/
theorem nonempty_of_producer_effect {s t : State} (hinv : s.Inv) (he : PortEffect .P s t) (hne : s.head ≠ s.tail) :
    t.head ≠ t.tail := by
  obtain ⟨-, htail, -, hhead | ⟨-, hroom, hhead⟩⟩ := producer_effect hinv he
  · rwa [hhead, htail]
  · rwa [hhead, htail]

/-- Retiring leaves a ring that is not full, as HEAD and TAIL differed and `next` keeps them apart. -/
theorem not_full_of_retired {s t : State} (hidx : IndexRange s) (hcap : t.cap = s.cap) (hhead : t.head = s.head)
    (hne : s.head ≠ s.tail) (htail : t.tail = nextIdx s.cap s.tail) : ¬Full t := by
  intro hfull
  obtain ⟨hh, ht⟩ := hidx.2 (cap_ne_zero_of_nonempty hidx hne)
  have hnext : nextIdx t.cap t.head = t.tail := ringFull_iff.mp (isFull_iff_full.mpr hfull)
  rw [hcap, hhead, htail] at hnext
  exact hne (nextIdx_inj hh ht hnext)

/-- The consumer leaves HEAD and the capacity as they are, and when it moves TAIL it makes room (R123). -/
theorem not_full_of_consumer_effect {s t : State} (hinv : s.Inv) (he : PortEffect .C s t) (hroom : ¬Full s) : ¬Full t := by
  obtain ⟨hcap, hhead, ⟨htail, -⟩ | ⟨-, htail, -⟩ | ⟨hne, htail, -⟩⟩ := consumer_effect hinv he
  · exact mt (full_congr hcap hhead htail).mp hroom
  · exact mt (full_congr hcap hhead htail).mp hroom
  · obtain ⟨-, hidx, -⟩ := hinv
    exact not_full_of_retired hidx hcap hhead hne htail

/-- Settles O49, by what a step of each side does to the indices. -/
theorem eachSidesViewIsStable : Obligations.EachSidesViewIsStable := fun _ _ _ hinv h =>
  ⟨fun hs => nonempty_of_producer_effect hinv (step_portEffect_of_cons hs h),
    fun hs => not_full_of_consumer_effect hinv (step_portEffect_of_cons hs h)⟩

/-! #### The answers (R80, R81) -/

theorem exec_isEmpty_of_live {s : State} (hlive : s.phase = .live) :
    exec .isEmpty s = .next (respondOk (if s.head = s.tail then 1 else 0) s) := by
  have hp : prologueFault .isEmpty s = none := prologueFault_of_live hlive rfl rfl rfl
  simp only [exec, execIsEmpty, afterPrologue_of_none hp, ringEmpty_iff]

theorem exec_isFull_of_live {s : State} (hlive : s.phase = .live) :
    exec .isFull s = .next (respondOk (if Full s then 1 else 0) s) := by
  have hp : prologueFault .isFull s = none := prologueFault_of_live hlive rfl rfl rfl
  simp only [exec, execIsFull, afterPrologue_of_none hp, isFull_iff_full]

/-- Settles O31: IS_EMPTY is permitted on every port, and its test is the equality of the indices. -/
theorem isEmptyAnswers : Obligations.IsEmptyAnswers :=
  ⟨decodeAfterEncode .isEmpty rfl, fun _ hlive => exec_isEmpty_of_live hlive⟩

/-- Settles O32: IS_FULL is permitted on every port, and its test is the statement's `Full`. -/
theorem isFullAnswers : Obligations.IsFullAnswers :=
  ⟨decodeAfterEncode .isFull rfl, fun _ hlive => exec_isFull_of_live hlive⟩

end Sys2Proof.Spec

/-! ### The producer (spec/42_producer.md): HEAD_REF, PRODUCE_HEAD, PUSH_FRONT, the held producer, and where runs come to -/

namespace Sys2Proof.Spec

open Sys2Proof.Machine

/-! #### The commands of the producer (R82 to R84) -/

/-- Without slots each of the three raises ZERO_CAPACITY, and PUSH_FRONT does so before it copies. -/
theorem exec_producer_of_no_slots {i : Instr} {s : State} (hi : i = .headRef ∨ i = .produceHead ∨ i = .pushFront)
    (hport : s.bus.port = .P) (hlive : s.phase = .live) (hcap : s.cap = 0) : exec i s = .next (faulted s 6) := by
  have hfault : raiseFault .zeroCapacity s = faulted s 6 := raiseFault_eq_faulted .zeroCapacity s
  have hp : prologueFault i s = none := by
    rcases hi with rfl | rfl | rfl <;> exact prologueFault_of_live hlive (by rw [hport]; rfl) rfl rfl
  rw [← hfault]
  rcases hi with rfl | rfl | rfl
  · rw [exec, execHeadRef, afterPrologue_of_none hp, if_pos hcap]
  · rw [exec, execProduceHead, afterPrologue_of_none hp, if_pos hcap]
  · rw [exec, execPushFront, afterPrologue_of_none hp, if_pos hcap]

/-- Publishing as the statements write it out: HEAD advances with OK(0). -/
theorem publishOrHold_of_room {s : State} (hroom : ¬Full s) (op : BitVec 4) :
    publishOrHold op s = { s with head := nextHead s, outputs := okResp s 0 :: s.outputs } := by
  rw [publishOrHold_of_not_full (Bool.eq_false_iff.mpr (mt isFull_iff_full.mp hroom)), nextIdx_head]
  rfl

/-- What every slot reads once a block has been written to one of them. -/
theorem readBlock_writeBlock {p : Params} {m m' : Memory} {slot : Nat} {b : Block} (hm : Rising m.cells)
    (h : writeBlock p m slot b = some m') (slot' : Nat) :
    readBlock p m' slot' = if slot' = slot then some b else readBlock p m slot' := by
  obtain ⟨hlt, hsize, -, hblock⟩ := writeBlock_spec hm h
  rw [readBlock, readBlock, hsize, hblock]
  by_cases hs : slot' = slot
  · rw [if_pos hs, if_pos hs, if_pos (hs ▸ hlt)]
  · rw [if_neg hs, if_neg hs]

/-- Settles O33. -/
theorem headRefAnswers : Obligations.HeadRefAnswers := by
  refine ⟨decodeAfterEncode .headRef rfl, fun s hport hlive => ⟨exec_producer_of_no_slots (.inl rfl) hport hlive,
    fun hcap => ?_⟩⟩
  rw [exec_headRef_of_slots hlive hport hcap, BitVec.ofNat_toNat]
  rfl

/-- Settles O34: on a ring with slots PRODUCE_HEAD is `publishOrHold`, which is decided by `Full`. -/
theorem produceHeadPublishesOrHolds : Obligations.ProduceHeadPublishesOrHolds := by
  refine ⟨decodeAfterEncode .produceHead rfl, fun s hport hlive =>
    ⟨exec_producer_of_no_slots (.inr (.inl rfl)) hport hlive, fun hcap hroom => ?_, fun hcap hfull => ?_⟩⟩
  · rw [exec_produceHead_of_slots hlive hport hcap, publishOrHold_of_room hroom]
  · rw [exec_produceHead_of_slots hlive hport hcap, publishOrHold_of_full (isFull_iff_full.mpr hfull)]

/-- Settles O35: the copy into the head slot gives the storage that is then published or held, and `Full` does not read the
storage. -/
theorem pushFrontCopiesThenPublishesOrHolds : Obligations.PushFrontCopiesThenPublishesOrHolds := by
  refine ⟨decodeAfterEncode .pushFront rfl, fun s hport hlive =>
    ⟨exec_producer_of_no_slots (.inr (.inr rfl)) hport hlive, fun hcap hidx ⟨hsize, hwf⟩ => ?_⟩⟩
  obtain ⟨m, hm⟩ := writeBlock_isSome (p := s.params) (b := operandB s) (hsize ▸ (hidx.2 hcap).1)
  have hrise := Memory.wf.rising hwf
  obtain ⟨-, hsize', -⟩ := writeBlock_spec hrise hm
  have hexec := exec_pushFront_of_slots hlive hport hcap hm
  refine ⟨m, operandB s, hsize', writeBlock_wf hwf (blockOk_fitBlock _ _) hm, fitBlock_of_ok, readBlock_writeBlock hrise hm,
    fun hroom => ?_, fun hfull => ?_⟩
  · rw [hexec, publishOrHold_of_room (s := { s with storage := m }) hroom]
  · rw [hexec, publishOrHold_of_full (s := { s with storage := m }) (isFull_iff_full.mpr hfull)]

/-! #### The ring under a held producer (R85) -/

/-- While a produce is held no command renews the ring: a held producer has slots, so the ring is live, and the commands that
ask for quiescence fault. -/
theorem not_nothingInUse_of_held {i : Instr} {s : State} (hinv : s.Inv) (hpend : s.pend ≠ 0) :
    ¬NothingInUse i s.ring := by
  obtain ⟨-, -, -, -, hphase, hslots, -⟩ := hinv
  rintro (⟨-, hun⟩ | ⟨-, hquiet⟩)
  · exact hslots.2 hpend (hphase hun).1
  · exact hpend hquiet

/-- No step of a port changes PHASE or ORIGIN while a produce is held. -/
theorem phase_origin_of_held {s t : State} {p : Port} (hinv : s.Inv) (hpend : s.pend ≠ 0) (he : PortEffect p s t) :
    t.phase = s.phase ∧ t.origin = s.origin := by
  cases he with
  | unchanged hr | faulted _ _ hr | completed _ _ _ hr =>
    obtain ⟨hph, -, -, -, -, -, -, ho⟩ := ring_eq_iff.mp hr
    exact ⟨hph, ho⟩
  | issued i _ he =>
    cases he with
    | renewed _ _ _ _ _ hidle => exact absurd hidle (not_nothingInUse_of_held hinv hpend)
    | unchanged hr | published _ _ _ _ _ hr | held _ _ _ _ _ _ _ hr | retired _ _ _ hr | wordWritten _ _ _ _ _ _ _ _ _ hr =>
      obtain ⟨hph, -, -, -, -, -, -, ho⟩ := ring_eq_iff.mp hr
      exact ⟨hph, ho⟩

/-- A held producer's own step issues nothing: it is the completion, or it leaves the indices and PEND alone. -/
theorem producer_step_of_held {s t : State} (hpend : s.pend ≠ 0) (he : PortEffect .P s t) :
    t.cap = s.cap ∧ ((t.pend = s.pend ∧ t.head = s.head ∧ t.tail = s.tail) ∨
      (t.pend = 0 ∧ t.head = nextIdx s.cap s.head ∧ nextIdx s.cap s.head ≠ s.tail)) := by
  cases he with
  | unchanged hr | faulted _ _ hr =>
    obtain ⟨-, hc, hh, ht, hpd, -⟩ := ring_eq_iff.mp hr
    exact ⟨hc, .inl ⟨hpd, hh, ht⟩⟩
  | completed _ _ hroom hr =>
    obtain ⟨-, hc, hh, -, hpd, -⟩ := ring_eq_iff.mp hr
    exact ⟨hc, .inr ⟨hpd, hh, hroom⟩⟩
  | issued _ hfree => exact absurd ⟨rfl, hpend⟩ hfree

/-- Settles O48: the other ports keep the held ring (`others_keep_held`), and P's own step is its completion or nothing. -/
theorem heldProducerFreezesTheRing : Obligations.HeldProducerFreezesTheRing := by
  intro s t hinv hpend hn h
  cases hp : nextEvent s with
  | reset => exact absurd hp hn
  | step p =>
    have he := step_portEffect hp h
    obtain ⟨hphase, horigin⟩ := phase_origin_of_held hinv hpend he
    by_cases hP : p = .P
    · subst hP
      obtain ⟨hc, ⟨hpd, hh, ht⟩ | ⟨hpd, hh, hroom⟩⟩ := producer_step_of_held hpend he
      · exact ⟨hc, hphase, horigin, .inl ⟨hpd, hh, mt (full_congr hc hh ht).mp⟩⟩
      · exact ⟨hc, hphase, horigin,
          .inr ⟨hpd, hh.trans (nextIdx_head s), fun hf => hroom (ringFull_iff.mp (isFull_iff_full.mpr hf))⟩⟩
    · obtain ⟨hc, hh, hpd, hroom⟩ := others_keep_held hinv hpend hP he
      exact ⟨hc, hphase, horigin, .inl ⟨hpd, hh, hroom⟩⟩

/-! #### A hold on a full ring that no one empties (R112) -/

/-- The produce held in `s` is still held in `t`, on the same ring, which is full. -/
abbrev HeldFull (s t : State) : Prop := t.Inv ∧ t.cap = s.cap ∧ t.head = s.head ∧ t.pend = s.pend ∧ Full t

/-- A full ring lets nothing complete, so only a move of TAIL could end the hold. -/
theorem HeldFull.step {s t u : State} (hpend : s.pend ≠ 0) (h : HeldFull s t) (hreset : nextEvent t ≠ .reset)
    (hu : Machine.step t = .next u) (htail : u.tail = t.tail) : HeldFull s u := by
  obtain ⟨hinv, hc, hh, hpd, hfull⟩ := h
  obtain ⟨hc', -, -, ⟨hpd', hh', -⟩ | ⟨-, -, hroom⟩⟩ := heldProducerFreezesTheRing t u hinv (hpd ▸ hpend) hreset hu
  · exact ⟨stepKeepsInvariant t u hinv hu, hc'.trans hc, hh'.trans hh, hpd'.trans hpd, (full_congr hc' hh' htail).mpr hfull⟩
  · exact absurd hfull hroom

theorem heldFull_of_tail_fixed {r : Nat → State} {k : Nat} (hr : IsRun r) (hinv : (r k).Inv) (hpend : (r k).pend ≠ 0)
    (hfull : Full (r k)) (hquiet : ∀ j, k ≤ j → nextEvent (r j) ≠ .reset ∧ (r j).tail = (r k).tail) {j : Nat} (hj : k ≤ j) :
    HeldFull (r k) (r j) := by
  induction j, hj using Nat.le_induction with
  | base => exact ⟨hinv, rfl, rfl, rfl, hfull⟩
  | succ j hj ih =>
    obtain ⟨hreset, htail⟩ := hquiet j hj
    exact ih.step hpend hreset (hr j) ((hquiet (j + 1) (by omega)).2.trans htail.symm)

/-! #### Every run without resets comes to rest (R98, R112, R116) -/

/-- At rest is where no port has an enabled step. -/
theorem atRest_of_none_enabled {s : State} (h : ∀ p, ¬Enabled p s) : AtRest s := by
  cases hh : halted s with
  | true => exact .inr (.inl ((faultValid_eq _).symm.trans hh))
  | false =>
    have hidle : ∀ p, ¬(p = .P ∧ s.pend ≠ 0) → queueOf p s = [] := fun p hfree =>
      not_not.mp fun hq => h p (enabled_iff.mpr ⟨hh, fun hheld => absurd hheld hfree, fun _ => hq⟩)
    have hC : s.queueC = [] := hidle .C (fun ⟨hp, _⟩ => nomatch hp)
    have hA : s.queueA = [] := hidle .A (fun ⟨hp, _⟩ => nomatch hp)
    by_cases hpend : s.pend = 0
    · exact .inl ⟨hidle .P (fun ⟨_, hne⟩ => hne hpend), hC, hA, hpend, hh⟩
    · have hfull : isFull s = true := not_not.mp fun hf =>
        h .P (enabled_iff.mpr ⟨hh, fun _ => Bool.eq_false_iff.mpr hf, fun hfree => absurd ⟨rfl, hpend⟩ hfree⟩)
      exact .inr (.inr ⟨hpend, hfull, hC, hA⟩)

/-- The steps that the ports can still take at most: two for a command, which may be held first, and one for a produce that is
already held. -/
def work (s : State) : Nat :=
  2 * (s.queueP.length + s.queueC.length + s.queueA.length) + if s.pend = 0 then 0 else 1

/-- Every enabled step that is taken uses up some of the work. -/
theorem work_lt_of_takes {s t : State} {p : Port} (ht : Takes p s) (h : step s = .next t) : work t < work s := by
  obtain ⟨hn, he⟩ := ht
  have hle : ∀ q, (queueOf q t).length ≤ (queueOf q s).length := fun q => by
    rcases step_queues h q with hq | ⟨-, hq⟩
    · rw [hq]
    · rw [hq, List.length_tail]
      exact Nat.sub_le _ _
  have hP := hle .P
  have hC := hle .C
  have hA := hle .A
  simp only [queueOf] at hP hC hA
  unfold work
  rcases (picked_port_acts hn h).1 he with ⟨-, hpend, hpend'⟩ | ⟨c, hq⟩
  · rw [if_neg hpend, if_pos hpend']
    omega
  · have hlen : (queueOf p s).length = (queueOf p t).length + 1 := by rw [hq, List.length_cons]
    have hheld : (if t.pend = 0 then 0 else 1) ≤ 1 := by split <;> decide
    cases p <;> simp only [queueOf] at hlen <;> omega

/-- A step that takes no port's enabled step, and is no reset, leaves the ring and the streams as they are. -/
theorem idle_step_of_not_takes {s t : State} (hreset : nextEvent s ≠ .reset) (hidle : ∀ p, ¬Takes p s)
    (h : step s = .next t) : t.ring = s.ring ∧ ∀ q, queueOf q t = queueOf q s := by
  cases hn : nextEvent s with
  | reset => exact absurd hn hreset
  | step p =>
    obtain ⟨hring, -, hq⟩ := (picked_port_acts hn h).2 fun he => hidle p ⟨hn, he⟩
    exact ⟨hring, hq⟩

/-- Whether a port is enabled is a matter of the ring and the streams. -/
theorem enabled_congr {s t : State} (hr : t.ring = s.ring) (hq : ∀ q, queueOf q t = queueOf q s) (p : Port) :
    Enabled p t ↔ Enabled p s := by
  obtain ⟨-, hc, hh, ht, hpd, hf, -⟩ := ring_eq_iff.mp hr
  have hhalted : halted t = halted s := congrArg faultValid hf
  have hfull : isFull t = isFull s := by rw [isFull, isFull, hc, hh, ht]; rfl
  rw [enabled_iff, enabled_iff, hhalted, hfull, hpd, hq]
  rfl

theorem work_congr {s t : State} (hr : t.ring = s.ring) (hq : ∀ q, queueOf q t = queueOf q s) : work t = work s := by
  obtain ⟨-, -, -, -, hpd, -⟩ := ring_eq_iff.mp hr
  have hP : t.queueP = s.queueP := hq .P
  have hC : t.queueC = s.queueC := hq .C
  have hA : t.queueA = s.queueA := hq .A
  rw [work, work, hP, hC, hA, hpd]
  rfl

theorem work_le_of_step {s t : State} (hreset : nextEvent s ≠ .reset) (h : step s = .next t) : work t ≤ work s := by
  by_cases ht : ∃ p, Takes p s
  · obtain ⟨p, ht⟩ := ht
    exact (work_lt_of_takes ht h).le
  · obtain ⟨hr, hq⟩ := idle_step_of_not_takes hreset (not_exists.mp ht) h
    exact (work_congr hr hq).le

/-- The work of a run without resets runs out: from some time on no enabled step is taken. -/
theorem run_idles {r : Nat → State} (hr : IsRun r) (hreset : ∀ k, nextEvent (r k) ≠ .reset) :
    ∃ k, ∀ j, k ≤ j → ∀ p, ¬Takes p (r j) := by
  have hanti : Antitone fun k => work (r k) := antitone_nat_of_succ_le fun k => work_le_of_step (hreset k) (hr k)
  obtain ⟨k, hk⟩ := WellFoundedLT.antitone_chain_condition hanti
  exact ⟨k, fun j hj p ht => (work_lt_of_takes ht (hr j)).ne ((hk (j + 1) (by omega)).symm.trans (hk j hj))⟩

/-- Once no enabled step is taken any more, none is enabled: it would stay so, and fairness would come to it (R112). -/
theorem none_enabled_of_idle {r : Nat → State} {k : Nat} (hr : IsRun r) (hreset : ∀ j, nextEvent (r j) ≠ .reset)
    (hidle : ∀ j, k ≤ j → ∀ p, ¬Takes p (r j)) (p : Port) : ¬Enabled p (r k) := by
  intro he
  have hstays : ∀ j, k ≤ j → Enabled p (r j) := fun j hj => by
    induction j, hj using Nat.le_induction with
    | base => exact he
    | succ j hj ih =>
      obtain ⟨hring, hq⟩ := idle_step_of_not_takes (hreset j) (hidle j hj) (hr j)
      exact (enabled_congr hring hq p).mpr ih
  obtain ⟨j, hj, -, ht | hno⟩ := weaklyFair_of_isRun hr p k
  · exact hidle j hj p ht
  · exact hno (hstays j hj)

/-- Settles O60: a hold on a full ring lasts while TAIL stays, and a run without resets has finitely many enabled steps to take,
after which no port is enabled. -/
theorem runsEndHaltOrHang : Obligations.RunsEndHaltOrHang := by
  refine ⟨fun r k hr hinv hpend hfull hquiet j hj => ?_, fun r hr hreset => ?_⟩
  · obtain ⟨-, -, hh, hpd, hf⟩ := heldFull_of_tail_fixed hr hinv hpend hfull hquiet hj
    exact ⟨hpd, hh, hf, fun ⟨_, _, _, hzero, _⟩ => hpend (hpd.symm.trans hzero)⟩
  · obtain ⟨k, hidle⟩ := run_idles hr hreset
    exact ⟨k, fun j hj => atRest_of_none_enabled
      (none_enabled_of_idle hr hreset fun i hi => hidle i (Nat.le_trans hj hi))⟩

end Sys2Proof.Spec

/-! ### The consumer (spec/43_consumer.md): TAIL_REF, CONSUME_TAIL, POP_BACK -/

namespace Sys2Proof.Spec

open Sys2Proof.Machine

/-- On an empty ring TAIL_REF and POP_BACK raise EMPTY_TAIL (R86, R88). -/
theorem exec_tailReader_of_empty {i : Instr} {s : State} (hi : i = .tailRef ∨ i = .popBack) (hport : s.bus.port = .C)
    (hlive : s.phase = .live) (hempty : s.head = s.tail) : exec i s = .next (faulted s 8) := by
  have hfault : raiseFault .emptyTail s = faulted s 8 := raiseFault_eq_faulted .emptyTail s
  have hp : prologueFault i s = none := by
    rcases hi with rfl | rfl <;> exact prologueFault_of_live hlive (by rw [hport]; rfl) rfl rfl
  rw [← hfault]
  rcases hi with rfl | rfl
  · rw [exec, execTailRef, afterPrologue_of_none hp, if_pos (ringEmpty_iff.mpr hempty)]
  · rw [exec, execPopBack, afterPrologue_of_none hp, if_pos (ringEmpty_iff.mpr hempty)]

/-- CONSUME_TAIL on an empty ring answers and retires nothing (R87). -/
theorem exec_consumeTail_of_empty {s : State} (hport : s.bus.port = .C) (hlive : s.phase = .live)
    (hempty : s.head = s.tail) : exec .consumeTail s = .next (respondOk 0 s) := by
  have hp : prologueFault .consumeTail s = none := prologueFault_of_live hlive (by rw [hport]; rfl) rfl rfl
  rw [exec, execConsumeTail, afterPrologue_of_none hp, if_pos (ringEmpty_iff.mpr hempty)]

/-- Retiring as the statements write it out: TAIL advances. -/
theorem retire_eq_nextTail (s : State) : retire s = { s with tail := nextTail s } := by
  rw [retire, nextIdx_tail]

/-- Settles O36. -/
theorem tailRefAnswers : Obligations.TailRefAnswers := by
  refine ⟨decodeAfterEncode .tailRef rfl, fun s hport hlive => ⟨exec_tailReader_of_empty (.inl rfl) hport hlive,
    fun hne => ?_⟩⟩
  rw [exec_tailRef_of_nonempty hlive hport hne, BitVec.ofNat_toNat]
  rfl

/-- Settles O37: the retirement is the only part that asks for a ring that is not empty. -/
theorem consumeTailRetires : Obligations.ConsumeTailRetires := by
  refine ⟨decodeAfterEncode .consumeTail rfl, fun s hport hlive => ⟨exec_consumeTail_of_empty hport hlive,
    fun hne => ?_⟩⟩
  rw [exec_consumeTail_of_nonempty hlive hport (ringEmpty_eq_false.mpr hne), retire_eq_nextTail]
  rfl

/-- Settles O38: a ring that is not empty has slots, and TAIL points at one of them, so its block can be read. -/
theorem popBackCopiesAndRetires : Obligations.PopBackCopiesAndRetires := by
  refine ⟨decodeAfterEncode .popBack rfl, fun s hport hlive => ⟨exec_tailReader_of_empty (.inr rfl) hport hlive,
    fun hne hidx ⟨hsize, _⟩ => ?_⟩⟩
  have htail : s.tail.toNat < s.storage.size := hsize ▸ (hidx.2 (cap_ne_zero_of_nonempty hidx hne)).2
  have hread : readBlock s.params s.storage s.tail.toNat = some (slotBlock s.params s.storage s.tail.toNat) :=
    readBlock_eq_some.mpr ⟨htail, rfl⟩
  refine ⟨_, hread, ?_⟩
  rw [exec_popBack_of_nonempty hlive hport (ringEmpty_eq_false.mpr hne) hread, retire_eq_nextTail]
  rfl

end Sys2Proof.Spec

/-! ### Exceptions (spec/60_exceptions.md): taking a fault, and the halt until the reset -/

namespace Sys2Proof.Spec

open Sys2Proof.Machine

/-! #### The halt (R98, R99) -/

theorem portStep_of_halted {s : State} (h : halted s = true) (p : Port) : portStep p s = .next s := if_pos h

/-- A halted ring uses up the scheduled step of a port and does nothing else (R98). -/
theorem step_of_halted {s : State} {p : Port} {rest : List Event} (h : halted s = true)
    (hs : s.schedule = .step p :: rest) : step s = .next { s with schedule := rest } :=
  (step_of_cons hs).trans (portStep_of_halted (s := { s with schedule := rest }) h p)

/-- Settles O9: FAULT.VALID is the halt, and a hardware reset writes FAULT as every register. -/
theorem faultLastsUntilReset : Obligations.FaultLastsUntilReset := by
  intro s hf
  have hh : halted s = true := (faultValid_eq s.fault).trans hf
  exact ⟨fun _ _ hs => step_of_halted hh hs, fun _ hs => ⟨_, step_of_cons_reset hs, hardwareReset_fault _⟩⟩

/-! #### Taking a fault (R98, R104) -/

theorem halted_raiseFault (c : Cause) (s : State) : halted (raiseFault c s) = true := faultValid_packFault _ _ _

/-- Of the answers to a command only a fault has STATUS 2 (R98). -/
theorem tookFault_of_answers {i : Instr} {s t : State} {p : Port} {r : Response} {old : List Output} (h : Answers i s t)
    (ho : t.outputs = .response p r :: old) (hne : t.outputs ≠ s.outputs) (hr : r.status = 2) : TookFault s t := by
  cases h with
  | fault c => exact ⟨c, rfl⟩
  | ok v u _ _ | data b u _ _ =>
    cases ho
    exact absurd hr (show (0 : BitVec 2) ≠ 2 by decide)
  | fail e u _ =>
    cases ho
    exact absurd hr (show (1 : BitVec 2) ≠ 2 by decide)
  | held _ _ hs _ => exact absurd hs hne

/-- A step that answers FAULT has taken a port's next command and raised the fault on it. -/
theorem step_tookFault {s t : State} {p : Port} {r : Response} (h : step s = .next t)
    (ho : t.outputs = .response p r :: s.outputs) (hr : r.status = 2) :
    ∃ q c rest, TookFault (accept q c rest (takeEvent s)) t := by
  have hne : t.outputs ≠ s.outputs := ho ▸ List.cons_ne_self _ _
  rcases step_next h with rfl | ⟨-, rfl⟩ | ⟨-, -, -, -, rfl⟩ | ⟨q, c, rest, -, -, -, -, ⟨_, -, rfl⟩ | ⟨i, -, he⟩⟩
  · exact absurd rfl hne
  · exact absurd rfl hne
  · cases ho
    exact absurd hr (show (0 : BitVec 2) ≠ 2 by decide)
  · exact ⟨q, c, rest, .illegalCommand, rfl⟩
  · have hout : (accept q c rest (takeEvent s)).outputs = s.outputs := accept_outputs _ _ _ _
    exact ⟨q, c, rest, tookFault_of_answers (exec_answers he) ho (hout ▸ hne) hr⟩

/-- Settles O22: the step's whole effect on the ring is `raiseFault` on the accepted command, which records the fault that
it answers and so halts the ring. -/
theorem faultEntryIsPreciseAndHalts : Obligations.FaultEntryIsPreciseAndHalts := by
  intro s t p r h ho hr
  obtain ⟨q, c, rest, e, rfl⟩ := step_tookFault h ho hr
  have hhalt := halted_raiseFault e (accept q c rest (takeEvent s))
  rw [raiseFault_outputs, accept_params, takeEvent_params] at ho
  obtain ⟨rfl, rfl⟩ := Output.response.inj (List.cons.inj ho).1
  refine ⟨?_, rfl, (causeCode_range e).1, (causeCode_range e).2, rfl, rfl, ?_, fun _ _ => step_of_halted hhalt rfl⟩
  · rw [raiseFault_ring, accept_ring, takeEvent_ring, packFault_eq_faultWord, raiseFault_bus]
  · rintro ⟨-, -, -, -, hrunning⟩
    exact absurd (hhalt.symm.trans hrunning) nofun

end Sys2Proof.Spec
